-- ==== Sys2Proof/Word.lean ====
section
/-! DEFINITION. The words of the block: bytes and the two wider unsigned fields of the wire (00_scope.md R9). -/

namespace Sys2Proof

/-- A byte, 8 bits numbered 7 down to 0 (R9). -/
abbrev Byte := BitVec 8

/-- An unsigned 16-bit value (`u16`, R9): the length field, the CRC, the response length. -/
abbrev U16 := BitVec 16

/-- An unsigned 32-bit value (`u32`, R9): addresses, cell indices, baud rates. -/
abbrev U32 := BitVec 32

end Sys2Proof
end

