-- ==== Sys2Proof/Syntax.lean ====
section
/-! DEFINITION. The syntax of the block: the closed command set, the operand fields of each command
and the instructions, one constructor per row of spec/opcode_table.json (30_encoding.md R80, R90, R92, R102). -/

namespace Sys2Proof

/-- The closed command set, in the spec's order (R90). -/
inductive Command where
  | writeRam | readRam | copyToFlash | eraseFlash | chipEraseFlash | run | writeOtp | readOtp | readFlash | readPtable
  | readPartition | writePartition | getVersion | isEmptyFlash | getFlashState | directWriteFlash | changeBaud
  | getProductInfo | gpioWd | dummy
  deriving DecidableEq, Repr

/-- Every member of the command set, in the spec's order (R90). -/
def Command.all : List Command :=
  [.writeRam, .readRam, .copyToFlash, .eraseFlash, .chipEraseFlash, .run, .writeOtp, .readOtp, .readFlash, .readPtable,
   .readPartition, .writePartition, .getVersion, .isEmptyFlash, .getFlashState, .directWriteFlash, .changeBaud,
   .getProductInfo, .gpioWd, .dummy]

/-- The header fields of each command (R92, R96). `α` is the type of a RAM-side address field (20_memory.md R58): `U32` on
the wire, a tagged address once the `Header` stage has classified it (R25). -/
inductive HdrFields (α : Type) where
  | writeRam (dst : α)
  | readRam (src : α) (len : U16)
  | copyToFlash (src : α) (dst len : U32)
  | eraseFlash (addr len : U32)
  | chipEraseFlash
  | run (target : U32)
  | writeOtp (cell : U32)
  | readOtp (cell : U32) (count : U16)
  | readFlash (addr : U32) (len : U16)
  | readPtable
  | readPartition (id : Byte) (off : U32) (len : U16)
  | writePartition (id : Byte) (off : U32)
  | getVersion
  | isEmptyFlash (addr len : U32)
  | getFlashState
  | directWriteFlash (addr : U32) (verify : Byte)
  | changeBaud (baud : U32)
  | getProductInfo
  | gpioWd (cfg : Byte)
  | dummy
  deriving DecidableEq, Repr

/-- A complete command frame with its operands (R117): the header fields as they stand on the wire, and the payload. -/
structure Frame where
  fields : HdrFields U32
  payload : List Byte
  deriving DecidableEq, Repr

/-- The instructions: one constructor per row of spec/opcode_table.json. A command is named by its type byte alone; its
operands are no part of the instruction word but arrive in the data phase and stand in the in-flight record (00_scope.md
R2, 10_state.md R38; log 17). -/
inductive Instr where
  | writeRam
  | readRam
  | copyToFlash
  | eraseFlash
  | chipEraseFlash
  | run
  | writeOtp
  | readOtp
  | readFlash
  | readPtable
  | readPartition
  | writePartition
  | getVersion
  | isEmptyFlash
  | getFlashState
  | directWriteFlash
  | changeBaud
  | getProductInfo
  | gpioWd
  | dummy
  | soh
  | stx
  | ack
  | nak
  /-- The announcement `STX SOH VER_HI VER_LO` with the version it carries (R82). -/
  | announce (version : U16)
  /-- A command-type byte with no dispatch entry (R102). -/
  | unassigned (t : Byte)
  deriving DecidableEq, Repr

/-- The "payload" column of R92: what a command's payload length may be. -/
inductive PayloadRule where
  | nonEmpty   -- "required, ≥ 1 byte"
  | empty      -- "empty"
  | cells      -- "required, multiple of `W/8`"
  deriving DecidableEq, Repr

end Sys2Proof
end

