-- ==== Sys2Proof/Config.lean ====
section
/-! DEFINITION. The configuration record `CFG` (00_scope.md R8), the test configuration TC0 (92_eei_decisions.md) and the one
free value of the model. -/

namespace Sys2Proof

/-- One row of the dispatch table: "a command byte to {header_size, handler}" (30_encoding.md R91), with the byte positions
of the header fields in the order R92 lists them (`HDR_LAYOUT`, R8; every field is little-endian, R68; log 8). -/
structure CmdRow where
  name : Command
  code : Byte
  hdrSize : Nat
  layout : List Nat
  deriving DecidableEq, Repr

/-- A valid concrete RAM range `[lo, hi)` (20_memory.md R50). -/
structure Region where
  lo : Nat
  hi : Nat
  deriving DecidableEq, Repr

/-- An entry of the partition table (30_encoding.md R98). -/
structure PartEntry where
  startAddress : U32
  size : U32
  sectorSize : U16
  typ : Byte
  name : List Byte
  deriving DecidableEq, Repr

/-- QSPI or OQSPI: no effect on semantics (R8, 92 D56). -/
inductive FlashKind where
  | qspi | oqspi
  deriving DecidableEq, Repr

/-- `OTP_WORD_BITS`: 32 or 64 (R8, 44_otp_safety.md R270). -/
inductive OtpWidth where
  | w32 | w64
  deriving DecidableEq, Repr

/-- The configuration record `CFG` (R8): fixed for a run, changed by no step and by no RESET (10_state.md R40, R44). -/
structure Config where
  table : List CmdRow
  version : U16
  versionString : List Byte
  crcPoly : U16
  crcSeed : U16
  crcCoversFrameHdr : Bool
  addrBuf : U32
  vwMask : U32
  vwBase : U32
  bufSize : Nat
  pldMax : Nat
  ramRegions : List Region
  flashSize : Nat
  sectorSize : Nat
  flashKind : FlashKind
  otpWidth : OtpWidth
  otpWords : Nat
  ptable : List PartEntry
  productInfo : List Byte
  supportedBauds : List U32
  baudInit : U32
  storageFaults : Bool
  deriving DecidableEq, Repr

/-- TC0's dispatch table: codes, header sizes and packed layouts (92_eei_decisions.md, TC0; `GET_VERSION = 0x0B` with header
size 0 is the source's own, R91, R92). -/
def Config.tc0Table : List CmdRow :=
  [⟨.writeRam, 0x01, 4, [0]⟩, ⟨.readRam, 0x02, 6, [0, 4]⟩, ⟨.copyToFlash, 0x03, 12, [0, 4, 8]⟩,
   ⟨.eraseFlash, 0x04, 8, [0, 4]⟩, ⟨.chipEraseFlash, 0x0C, 0, []⟩, ⟨.run, 0x05, 4, [0]⟩, ⟨.writeOtp, 0x06, 4, [0]⟩,
   ⟨.readOtp, 0x07, 6, [0, 4]⟩, ⟨.readFlash, 0x08, 6, [0, 4]⟩, ⟨.readPtable, 0x09, 0, []⟩,
   ⟨.readPartition, 0x0A, 7, [0, 1, 5]⟩, ⟨.writePartition, 0x0E, 5, [0, 1]⟩, ⟨.getVersion, 0x0B, 0, []⟩,
   ⟨.isEmptyFlash, 0x0D, 8, [0, 4]⟩, ⟨.getFlashState, 0x0F, 0, []⟩, ⟨.directWriteFlash, 0x10, 5, [0, 4]⟩,
   ⟨.changeBaud, 0x11, 4, [0]⟩, ⟨.getProductInfo, 0x12, 0, []⟩, ⟨.gpioWd, 0x13, 1, [0]⟩, ⟨.dummy, 0x14, 0, []⟩]

/-- The test configuration TC0 (92_eei_decisions.md). `State.reset` carries it (log 1). -/
def Config.tc0 : Config where
  table := Config.tc0Table
  version := 0x0004
  versionString := [0x30, 0x2E, 0x30, 0x2E, 0x30, 0x2E, 0x34]
  crcPoly := 0x1021
  crcSeed := 0xFFFF
  crcCoversFrameHdr := false
  addrBuf := 0xFFFFFFFF
  vwMask := 0xFFFF0000
  vwBase := 0x80000000
  bufSize := 0x4000
  pldMax := 0x4000
  ramRegions := [⟨0x20000000, 0x20080000⟩]
  flashSize := 0x100000
  sectorSize := 0x1000
  flashKind := .qspi
  otpWidth := .w32
  otpWords := 256
  ptable := [⟨0x00000000, 0x00010000, 0x1000, 1, [0x42, 0x4F, 0x4F, 0x54]⟩,
             ⟨0x00010000, 0x00020000, 0x1000, 2, [0x41, 0x50, 0x50]⟩]
  productInfo := [0x54, 0x43, 0x30, 0x2D, 0x50, 0x52, 0x4F, 0x44, 0x55, 0x43, 0x54]
  supportedBauds := [57600, 115200, 230400, 500000, 1000000]
  baudInit := 115200
  storageFaults := false

/-- THE FREE VALUE of the model: the `n`-th draw of a storage collaborator that the environment has not fixed (20_memory.md
R60, 42_commands.md R206, 93 I10, I14; log 4). It has no body: nothing can be proved of it. -/
opaque Config.freeBytes : Nat → List Byte

end Sys2Proof
end

