-- ==== Sys2Proof/Machine/Bytes.lean ====
section
/-! DEFINITION. Little-endian integers and byte-range helpers (00_scope.md R9, 20_memory.md R59, R68, R69). -/

namespace Sys2Proof

/-- The unsigned integer a byte sequence stands for, least-significant byte first (R9, R68). -/
def leNat : List Byte → Nat
  | [] => 0
  | b :: bs => b.toNat + 256 * leNat bs

/-- The `k` low bytes of `v`, least-significant first: `LE16` is `leBytes 2`, `LE32` is `leBytes 4` (R9, R68). -/
def leBytes : Nat → Nat → List Byte
  | 0, _ => []
  | k + 1, v => BitVec.ofNat 8 v :: leBytes k (v / 256)

/-- `LE16(v)` (R9). -/
def LE16 (v : U16) : List Byte := leBytes 2 v.toNat

/-- `LE32(v)` (R9). -/
def LE32 (v : U32) : List Byte := leBytes 4 v.toNat

/-- `lo | hi << 8`, the receiver's assembly of a 16-bit wire value (40_crc.md R127). -/
def joinLE (lo hi : Byte) : U16 := (lo.zeroExtend 16) ||| ((hi.zeroExtend 16) <<< 8)

/-- `s[p .. p+n)`, the bytes past the end read as absent (R9). -/
def slice (s : List Byte) (p n : Nat) : List Byte := (s.drop p).take n

/-- `s` with the bytes from `p` replaced by `v` (43_flash_safety.md R242, `sec[p .. p+k) <- v`). -/
def splice (s : List Byte) (p : Nat) (v : List Byte) : List Byte := s.take p ++ v ++ s.drop (p + v.length)

/-- The bytes of `left` where it has one, of `normal` elsewhere: what a disturbed primitive leaves (20_memory.md R60). -/
def overlay (left normal : List Byte) : List Byte := left.take normal.length ++ normal.drop left.length

/-- Bytewise AND of two ranges of equal length (20_memory.md R64, R65). -/
def andBytes (cur v : List Byte) : List Byte := List.zipWith (· &&& ·) cur v

end Sys2Proof
end

