-- ==== Sys2Proof/Machine/Crc.lean ====
section
/-! DEFINITION. The CRC-16 generator and validator (40_crc.md R120-R132). -/

namespace Sys2Proof

/-- One bit of the CRC step: shift left, and XOR the polynomial when the bit shifted out was 1 (R121). -/
def crcShift (poly c : U16) : U16 := if c.getLsbD 15 then (c <<< 1) ^^^ poly else c <<< 1

/-- `k` bits of the CRC step. -/
def crcShifts (poly : U16) : Nat → U16 → U16
  | 0, c => c
  | k + 1, c => crcShifts poly k (crcShift poly c)

/-- `crc_update(c, b)`, bit by bit (R121). -/
def crcUpdate (poly c : U16) (b : Byte) : U16 := crcShifts poly 8 (c ^^^ ((b.zeroExtend 16) <<< 8))

/-- `crc(seed, s)`: the fold of `crc_update` over a message, first byte first (R121). -/
def crc (poly seed : U16) (s : List Byte) : U16 := s.foldl (crcUpdate poly) seed

/-- The table entry `T[i]` (R122). -/
def crcTable (poly : U16) (i : Byte) : U16 := crcUpdate poly 0 i

/-- `crc_update(c, b)` in its table-driven form (R122). -/
def crcUpdateByTable (poly c : U16) (b : Byte) : U16 := (c <<< 8) ^^^ crcTable poly ((c >>> 8).truncate 8 ^^^ b)

/-- The CRC of a message under a configuration: what a host computes and the device compares (R125). -/
def Config.crcOf (cfg : Config) (s : List Byte) : U16 := crc cfg.crcPoly cfg.crcSeed s

/-- The bytes the inbound CRC covers: the data phase, preceded by the four frame-header bytes when
`CRC_COVERS_FRAME_HDR` (R124). -/
def Config.crcInbound (cfg : Config) (frameHdr data : List Byte) : U16 :=
  if cfg.crcCoversFrameHdr then cfg.crcOf (frameHdr ++ data) else cfg.crcOf data

end Sys2Proof
end

