-- ==== Sys2Proof/Decode.lean ====
section
/-! DEFINITION. Decoding and encoding (30_encoding.md): the dispatch of a type byte, control bytes, the announcement, the
header fields of a command, and whole command frames. -/

namespace Sys2Proof

/-! ## The fixed tables (R80, R90, R92, R93) -/

/-- "start of header" (R80). -/
def SOH : Byte := 0x01
/-- Start of the device's announcement (R80). -/
def STX : Byte := 0x02
/-- Positive acknowledgement (R80). -/
def ACK : Byte := 0x06
/-- Negative acknowledgement (R80). -/
def NAK : Byte := 0x15

/-- The widths in bytes of a command's header fields, in the listed order (R92). -/
def Command.fieldWidths : Command → List Nat
  | .writeRam => [4]
  | .readRam => [4, 2]
  | .copyToFlash => [4, 4, 4]
  | .eraseFlash => [4, 4]
  | .chipEraseFlash => []
  | .run => [4]
  | .writeOtp => [4]
  | .readOtp => [4, 2]
  | .readFlash => [4, 2]
  | .readPtable => []
  | .readPartition => [1, 4, 2]
  | .writePartition => [1, 4]
  | .getVersion => []
  | .isEmptyFlash => [4, 4]
  | .getFlashState => []
  | .directWriteFlash => [4, 1]
  | .changeBaud => [4]
  | .getProductInfo => []
  | .gpioWd => [1]
  | .dummy => []

/-- `HAS_RESPONSE(n)`: the commands with a response phase (R93). -/
def Command.hasResponse : Command → Bool
  | .readRam | .readOtp | .readFlash | .readPtable | .readPartition | .getVersion | .isEmptyFlash | .getFlashState
  | .getProductInfo => true
  | .writeRam | .copyToFlash | .eraseFlash | .chipEraseFlash | .run | .writeOtp | .writePartition | .directWriteFlash
  | .changeBaud | .gpioWd | .dummy => false

/-- The "payload" column of R92. -/
def Command.payloadRule : Command → PayloadRule
  | .writeRam | .writePartition | .directWriteFlash => .nonEmpty
  | .writeOtp => .cells
  | .readRam | .copyToFlash | .eraseFlash | .chipEraseFlash | .run | .readOtp | .readFlash | .readPtable | .readPartition
  | .getVersion | .isEmptyFlash | .getFlashState | .changeBaud | .getProductInfo | .gpioWd | .dummy => .empty

/-- The instruction of a command. -/
def Command.toInstr : Command → Instr
  | .writeRam => .writeRam
  | .readRam => .readRam
  | .copyToFlash => .copyToFlash
  | .eraseFlash => .eraseFlash
  | .chipEraseFlash => .chipEraseFlash
  | .run => .run
  | .writeOtp => .writeOtp
  | .readOtp => .readOtp
  | .readFlash => .readFlash
  | .readPtable => .readPtable
  | .readPartition => .readPartition
  | .writePartition => .writePartition
  | .getVersion => .getVersion
  | .isEmptyFlash => .isEmptyFlash
  | .getFlashState => .getFlashState
  | .directWriteFlash => .directWriteFlash
  | .changeBaud => .changeBaud
  | .getProductInfo => .getProductInfo
  | .gpioWd => .gpioWd
  | .dummy => .dummy

/-- The command an instruction is, for the 20 command rows. -/
def Instr.command? : Instr → Option Command
  | .writeRam => some .writeRam
  | .readRam => some .readRam
  | .copyToFlash => some .copyToFlash
  | .eraseFlash => some .eraseFlash
  | .chipEraseFlash => some .chipEraseFlash
  | .run => some .run
  | .writeOtp => some .writeOtp
  | .readOtp => some .readOtp
  | .readFlash => some .readFlash
  | .readPtable => some .readPtable
  | .readPartition => some .readPartition
  | .writePartition => some .writePartition
  | .getVersion => some .getVersion
  | .isEmptyFlash => some .isEmptyFlash
  | .getFlashState => some .getFlashState
  | .directWriteFlash => some .directWriteFlash
  | .changeBaud => some .changeBaud
  | .getProductInfo => some .getProductInfo
  | .gpioWd => some .gpioWd
  | .dummy => some .dummy
  | .soh => none
  | .stx => none
  | .ack => none
  | .nak => none
  | .announce _ => none
  | .unassigned _ => none

/-- The command whose fields a field record holds. -/
def HdrFields.command {α : Type} : HdrFields α → Command
  | .writeRam _ => .writeRam
  | .readRam _ _ => .readRam
  | .copyToFlash _ _ _ => .copyToFlash
  | .eraseFlash _ _ => .eraseFlash
  | .chipEraseFlash => .chipEraseFlash
  | .run _ => .run
  | .writeOtp _ => .writeOtp
  | .readOtp _ _ => .readOtp
  | .readFlash _ _ => .readFlash
  | .readPtable => .readPtable
  | .readPartition _ _ _ => .readPartition
  | .writePartition _ _ => .writePartition
  | .getVersion => .getVersion
  | .isEmptyFlash _ _ => .isEmptyFlash
  | .getFlashState => .getFlashState
  | .directWriteFlash _ _ => .directWriteFlash
  | .changeBaud _ => .changeBaud
  | .getProductInfo => .getProductInfo
  | .gpioWd _ => .gpioWd
  | .dummy => .dummy

/-- The field record with every RAM-side address field (R58) sent through `g`; the other fields stay. -/
def HdrFields.map {α β : Type} (g : α → β) : HdrFields α → HdrFields β
  | .writeRam dst => .writeRam (g dst)
  | .readRam src len => .readRam (g src) len
  | .copyToFlash src dst len => .copyToFlash (g src) dst len
  | .eraseFlash addr len => .eraseFlash addr len
  | .chipEraseFlash => .chipEraseFlash
  | .run target => .run target
  | .writeOtp cell => .writeOtp cell
  | .readOtp cell count => .readOtp cell count
  | .readFlash addr len => .readFlash addr len
  | .readPtable => .readPtable
  | .readPartition id off len => .readPartition id off len
  | .writePartition id off => .writePartition id off
  | .getVersion => .getVersion
  | .isEmptyFlash addr len => .isEmptyFlash addr len
  | .getFlashState => .getFlashState
  | .directWriteFlash addr verify => .directWriteFlash addr verify
  | .changeBaud baud => .changeBaud baud
  | .getProductInfo => .getProductInfo
  | .gpioWd cfg => .gpioWd cfg
  | .dummy => .dummy

/-! ## The dispatch table (R91) -/

/-- The row of a command in the dispatch table. -/
def Config.row (cfg : Config) (n : Command) : Option CmdRow := cfg.table.find? (fun r => r.name == n)

/-- `CMD_CODE(n)` (R91). -/
def Config.cmdCode (cfg : Config) (n : Command) : Byte := ((cfg.row n).map CmdRow.code).getD 0

/-- `HDR_SIZE(n)` (R92). -/
def Config.hdrSize (cfg : Config) (n : Command) : Nat := ((cfg.row n).map CmdRow.hdrSize).getD 0

/-- `HDR_LAYOUT(n)`: the byte positions of the header fields, in the order R92 lists them (R95). -/
def Config.layout (cfg : Config) (n : Command) : List Nat := ((cfg.row n).map CmdRow.layout).getD []

/-- `DISPATCH(t)`: the command whose code is `t`, or none (R91). -/
def Config.dispatch (cfg : Config) (t : Byte) : Option Command :=
  (cfg.table.find? (fun r => r.code == t)).map CmdRow.name

/-- Bytes of an OTP cell, `W8 = OTP_WORD_BITS / 8` (44_otp_safety.md R270). -/
def Config.w8 (cfg : Config) : Nat := match cfg.otpWidth with | .w32 => 4 | .w64 => 8

/-- The "payload" column of R92 as `Init` checks it (42_commands.md R190). -/
def Config.payloadOk (cfg : Config) (n : Command) (pl : Nat) : Bool :=
  match n.payloadRule with
  | .nonEmpty => decide (1 ≤ pl)
  | .empty => decide (pl = 0)
  | .cells => decide (1 ≤ pl) && decide (pl % cfg.w8 = 0)

/-! ## One byte or one announcement: the rows of the opcode table -/

/-- Where the bytes stand decides what they mean (R81). -/
inductive Pos where
  | commandType    -- the byte after `SOH`
  | control        -- where the state machine expects a control byte
  | announcement   -- the device's 4 bytes, read by the host
  deriving DecidableEq, Repr

/-- Why bytes are no instruction at a position. -/
inductive Reject where
  | wrongLength
  | notControl (b : Byte)
  | notAnnouncement
  deriving DecidableEq, Repr

/-- The instruction a command-type byte selects: a command of the dispatch table, else an unassigned code (R91, R102). -/
def decodeType (cfg : Config) (t : Byte) : Instr :=
  match cfg.dispatch t with
  | some n => n.toInstr
  | none => .unassigned t

/-- The control byte a byte is, if any (R80). -/
def decodeControl (b : Byte) : Option Instr :=
  if b = SOH then some .soh
  else if b = STX then some .stx
  else if b = ACK then some .ack
  else if b = NAK then some .nak
  else none

/-- The version is sent high byte first, against the general little-endian rule (R82, 90_conflicts.md C2). -/
def versionBytes (v : U16) : List Byte := [(v >>> 8).truncate 8, v.truncate 8]

/-- The 4 bytes of an announcement (R82). -/
def announceBytes (v : U16) : List Byte := STX :: SOH :: versionBytes v

/-- The decoder: total on any bytes, rejecting by name. -/
def decode (cfg : Config) (pos : Pos) (bytes : List Byte) : Except Reject Instr :=
  match pos, bytes with
  | .commandType, [t] => .ok (decodeType cfg t)
  | .commandType, _ => .error .wrongLength
  | .control, [b] =>
    match decodeControl b with
    | some i => .ok i
    | none => .error (.notControl b)
  | .control, _ => .error .wrongLength
  | .announcement, [a, b, hi, lo] =>
    if a = STX ∧ b = SOH then .ok (.announce (joinLE lo hi)) else .error .notAnnouncement
  | .announcement, _ => .error .wrongLength

/-- The position at which an instruction's bytes have its meaning (R81, R82, R91). -/
def Instr.pos : Instr → Pos
  | .soh | .stx | .ack | .nak => .control
  | .announce _ => .announcement
  | _ => .commandType

/-- The bytes of an instruction of the opcode table at its position: the type byte of a command, a control byte, the
announcement. A command's operands are the frame's (`encodeFrame`). -/
def encode (cfg : Config) : Instr → List Byte
  | .soh => [SOH]
  | .stx => [STX]
  | .ack => [ACK]
  | .nak => [NAK]
  | .announce v => announceBytes v
  | .unassigned t => [t]
  | .writeRam => [cfg.cmdCode .writeRam]
  | .readRam => [cfg.cmdCode .readRam]
  | .copyToFlash => [cfg.cmdCode .copyToFlash]
  | .eraseFlash => [cfg.cmdCode .eraseFlash]
  | .chipEraseFlash => [cfg.cmdCode .chipEraseFlash]
  | .run => [cfg.cmdCode .run]
  | .writeOtp => [cfg.cmdCode .writeOtp]
  | .readOtp => [cfg.cmdCode .readOtp]
  | .readFlash => [cfg.cmdCode .readFlash]
  | .readPtable => [cfg.cmdCode .readPtable]
  | .readPartition => [cfg.cmdCode .readPartition]
  | .writePartition => [cfg.cmdCode .writePartition]
  | .getVersion => [cfg.cmdCode .getVersion]
  | .isEmptyFlash => [cfg.cmdCode .isEmptyFlash]
  | .getFlashState => [cfg.cmdCode .getFlashState]
  | .directWriteFlash => [cfg.cmdCode .directWriteFlash]
  | .changeBaud => [cfg.cmdCode .changeBaud]
  | .getProductInfo => [cfg.cmdCode .getProductInfo]
  | .gpioWd => [cfg.cmdCode .gpioWd]
  | .dummy => [cfg.cmdCode .dummy]

/-! ## Header fields (R95, R96) -/

/-- The field record of a command from the values of its fields in the listed order (R92). -/
def HdrFields.ofValues (n : Command) (v : List Nat) : HdrFields U32 :=
  let x (i w : Nat) : BitVec w := BitVec.ofNat w (v.getD i 0)
  match n with
  | .writeRam => .writeRam (x 0 32)
  | .readRam => .readRam (x 0 32) (x 1 16)
  | .copyToFlash => .copyToFlash (x 0 32) (x 1 32) (x 2 32)
  | .eraseFlash => .eraseFlash (x 0 32) (x 1 32)
  | .chipEraseFlash => .chipEraseFlash
  | .run => .run (x 0 32)
  | .writeOtp => .writeOtp (x 0 32)
  | .readOtp => .readOtp (x 0 32) (x 1 16)
  | .readFlash => .readFlash (x 0 32) (x 1 16)
  | .readPtable => .readPtable
  | .readPartition => .readPartition (x 0 8) (x 1 32) (x 2 16)
  | .writePartition => .writePartition (x 0 8) (x 1 32)
  | .getVersion => .getVersion
  | .isEmptyFlash => .isEmptyFlash (x 0 32) (x 1 32)
  | .getFlashState => .getFlashState
  | .directWriteFlash => .directWriteFlash (x 0 32) (x 1 8)
  | .changeBaud => .changeBaud (x 0 32)
  | .getProductInfo => .getProductInfo
  | .gpioWd => .gpioWd (x 0 8)
  | .dummy => .dummy

/-- The values of a field record in the listed order (R92). -/
def HdrFields.values : HdrFields U32 → List Nat
  | .writeRam dst => [dst.toNat]
  | .readRam src len => [src.toNat, len.toNat]
  | .copyToFlash src dst len => [src.toNat, dst.toNat, len.toNat]
  | .eraseFlash addr len => [addr.toNat, len.toNat]
  | .chipEraseFlash => []
  | .run target => [target.toNat]
  | .writeOtp cell => [cell.toNat]
  | .readOtp cell count => [cell.toNat, count.toNat]
  | .readFlash addr len => [addr.toNat, len.toNat]
  | .readPtable => []
  | .readPartition id off len => [id.toNat, off.toNat, len.toNat]
  | .writePartition id off => [id.toNat, off.toNat]
  | .getVersion => []
  | .isEmptyFlash addr len => [addr.toNat, len.toNat]
  | .getFlashState => []
  | .directWriteFlash addr verify => [addr.toNat, verify.toNat]
  | .changeBaud baud => [baud.toNat]
  | .getProductInfo => []
  | .gpioWd cfg => [cfg.toNat]
  | .dummy => []

/-- Position and width of each header field of a command (R95). -/
def Config.fieldPlaces (cfg : Config) (n : Command) : List (Nat × Nat) := (cfg.layout n).zip n.fieldWidths

/-- `HDR_LAYOUT(n)` as a decoder: every field read little-endian at its position; total, since a missing byte reads as
absent (R68, R95). -/
def decodeHdr (cfg : Config) (n : Command) (hdr : List Byte) : HdrFields U32 :=
  .ofValues n ((cfg.fieldPlaces n).map (fun pw => leNat (slice hdr pw.1 pw.2)))

/-- `HDR_LAYOUT⁻¹`: every field written little-endian at its position, for the headers R117
defines. A header byte that no field covers has no value in the spec; it is sent as 0 (the model's choice, log 32). -/
def encodeHdr (cfg : Config) (f : HdrFields U32) : List Byte :=
  ((cfg.fieldPlaces f.command).zip f.values).foldl (fun acc pwv => splice acc pwv.1.1 (leBytes pwv.1.2 pwv.2))
    (List.replicate (cfg.hdrSize f.command) 0)

/-! ## Whole frames (R84, R86, R117) -/

/-- The data phase of a frame: header bytes, then payload, with no separator (R86). -/
def Frame.data (cfg : Config) (fr : Frame) : List Byte := encodeHdr cfg fr.fields ++ fr.payload

/-- The frame header `SOH, TYPE, LEN_LO, LEN_HI` of a command with `len` data bytes (R84). -/
def frameHeader (cfg : Config) (n : Command) (len : Nat) : List Byte := SOH :: cfg.cmdCode n :: leBytes 2 len

/-- The host bytes of one command: frame header, data phase, CRC (R84, R86, R117, 40_crc.md R125, R127). -/
def encodeFrame (cfg : Config) (fr : Frame) : List Byte :=
  let data := fr.data cfg
  let hdr := frameHeader cfg fr.fields.command data.length
  hdr ++ data ++ LE16 (cfg.crcInbound hdr data)

/-- Why bytes are no frame the block would carry to `Exec`, in the order the block finds out (60_exceptions.md R303). -/
inductive FrameReject where
  | noSoh
  | truncated
  | unknownCmd (t : Byte)
  | lenShort
  | initFail
  | trailing
  | crcIn
  deriving DecidableEq, Repr

/-- A whole frame read back: the checks of the frame header, the data phase split by `HDR_SIZE` (R94) and the CRC. The
`Header` stage's range checks are the machine's, not the decoder's. -/
def decodeFrame (cfg : Config) (bytes : List Byte) : Except FrameReject Frame :=
  match bytes with
  | soh :: t :: lo :: hi :: rest =>
    let len := (joinLE lo hi).toNat
    if soh ≠ SOH then .error .noSoh
    else match cfg.dispatch t with
      | none => .error (.unknownCmd t)
      | some n =>
        if len < cfg.hdrSize n then .error .lenShort
        else if cfg.pldMax < len - cfg.hdrSize n then .error .initFail
        else if !cfg.payloadOk n (len - cfg.hdrSize n) then .error .initFail
        else if rest.length < len + 2 then .error .truncated
        else if len + 2 < rest.length then .error .trailing
        else if leNat (rest.drop len) ≠ (cfg.crcInbound [soh, t, lo, hi] (rest.take len)).toNat then .error .crcIn
        else .ok ⟨decodeHdr cfg n (rest.take (cfg.hdrSize n)), (rest.take len).drop (cfg.hdrSize n)⟩
  | _ => .error .truncated

/-! ## The opcode table's own numbering -/

/-- The instruction the decoder reads from an opcode-table word of `nbits` bits (log 15). An 8-bit word is a command-type
byte where TC0's dispatch table has it; the one control byte that is no command code, `NAK`, and any other byte after it.
The 16-bit word is the announcement's first two bytes as the table writes them, first wire byte in the high half, followed
by a version of zero bits. -/
def decodeTableWord (nbits w : Nat) : Option Instr :=
  if nbits = 8 then
    let b := BitVec.ofNat 8 w
    match Config.tc0.dispatch b with
    | some n => some n.toInstr
    | none => some ((decodeControl b).getD (.unassigned b))
  else if nbits = 16 then
    (decode Config.tc0 .announcement [BitVec.ofNat 8 (w / 256), BitVec.ofNat 8 w, 0, 0]).toOption
  else none

end Sys2Proof
end

