-- ==== Sys2Proof/Machine/State.lean ====
section
/-! DEFINITION. The state of the block as plain data (10_state.md), the reasons a step can stop, and the state after reset. -/

namespace Sys2Proof.Machine

/-- The engine's control state (R20, R21). -/
inductive Ctl where
  | announce   -- S_ANNOUNCE
  | waitSoh    -- S_WAIT_SOH
  | typ        -- S_TYPE
  | lenLo      -- S_LEN_LO
  | lenHi      -- S_LEN_HI
  | hdr        -- S_HDR
  | pld        -- S_PLD
  | crcLo      -- S_CRC_LO
  | crcHi      -- S_CRC_HI
  | exec       -- S_EXEC
  | rspAck     -- S_RSP_ACK
  | rspCrcLo   -- S_RSP_CRC_LO
  | rspCrcHi   -- S_RSP_CRC_HI
  | jumped     -- S_JUMPED
  deriving DecidableEq, Repr

/-- The four storage spaces (20_memory.md R50). -/
inductive Space where
  | ram | flash | otp | buf
  deriving DecidableEq, Repr

/-- A tagged address (20_memory.md R52). -/
inductive Tagged where
  | scratch (o : Nat)
  | concrete (a : Nat)
  deriving DecidableEq, Repr

/-- One entry of `cmd.xq` (R28): a storage primitive `Exec` still has to perform, or one of the pure computations that stand
between them (41_framing_fsm.md R154). -/
inductive ExecOp where
  /-- `MemWrite(RAM | BUF, ...)` at a resolved address (R61, R66). -/
  | write (t : Tagged) (v : List Byte)
  /-- `data <- MemRead(RAM | BUF, src, n)`, then the flash safety write of `data` at `dst` (42_commands.md R194). -/
  | copy (src : Tagged) (n dst : Nat)
  /-- The flash safety write from here on: read the chunk at `a`, then decide (43_flash_safety.md R242). -/
  | chunk (a : Nat) (data : List Byte)
  /-- The whole-sector read of a partial chunk that needs an erase, then the choice of R245 or R246. -/
  | sector (ca : Nat) (cd : List Byte)
  /-- `MemWrite(FLASH, a, ...)` (R64). -/
  | flashWrite (a : Nat) (v : List Byte)
  /-- `FlashErase(s)` (R63). -/
  | erase (s : Nat)
  /-- `ChipErase()` (R63). -/
  | chipErase
  /-- `OtpProgram(w, v)`, `v` as the cell's little-endian bytes (R65, R69). -/
  | program (w : Nat) (v : List Byte)
  /-- The verify read of DIRECT_WRITE_FLASH (R252). -/
  | verify (a : Nat) (data : List Byte)
  /-- Pure: `cmd.new_baud <- b` (R208). -/
  | setBaud (b : U32)
  /-- Pure: `emit GPIO_WD(v)` (R210). -/
  | gpio (v : Byte)
  /-- Pure: `if read ≠ data: return false`, on the bytes the verify read returned (R207, R252). An empty queue is
  `return true`. -/
  | check (read data : List Byte)
  deriving DecidableEq, Repr

/-- The in-flight command record (R22). A field that is `none` is undefined (R23), but for `newBaud`, whose `none` is the
spec's own value. -/
structure Cmd where
  typ : Option Byte := none
  name : Option Command := none
  length : Option U16 := none
  hs : Option Nat := none
  pl : Option Int := none
  hdr : Option (List Byte) := none
  pld : Option (List Byte) := none
  f : Option (HdrFields Tagged) := none
  crc : U16
  rcrcLo : Option Byte := none
  rspLen : Option U16 := none
  rsp : Option (List Byte) := none
  newBaud : Option U32 := none
  xq : Option (List ExecOp) := none
  /-- The MODEL's own: the draw `Q` of GET_FLASH_STATE between `SendLen` and `SendData` (42_commands.md R206; log 10). -/
  q : Option (List Byte) := none
  deriving DecidableEq, Repr

/-- An entry of `EVL` (R36). -/
inductive Event where
  | read (sp : Space) (addr n : Nat)
  | write (sp : Space) (addr n : Nat)
  | erase (sector : Nat)
  | chipErase
  | programOtp (w : Nat)
  | jump (target : U32)
  | gpioWd (cfg : Byte)
  deriving DecidableEq, Repr

/-- The abort codes (60_exceptions.md R300). They label a transition and are stored nowhere (R302). -/
inductive Abort where
  | unknownCmd | lenShort | initFail | headerFail | dataFail | crcIn | execFail | rspRefused | crcOut | timeout
  deriving DecidableEq, Repr

/-- An event of the environment (00_scope.md R6, R7, 41_framing_fsm.md R140; log 3). -/
inductive EnvEvent where
  /-- The engine takes its own event now. -/
  | go
  /-- The host sends `b` at `rate`; if `rate` is not `BAUD`, the receiver sees the bytes `seen` instead (R34, R341). -/
  | host (b : Byte) (rate : U32) (seen : List Byte)
  /-- A timeout, where one is enabled (R142). -/
  | timeout
  /-- An announcement, where one is enabled (R143). -/
  | announce
  /-- RESET between two steps; RAM and BUF come up with these contents (R330, R43). -/
  | reset (ram buf : List Host.Cell)
  /-- RESET during the primitive at the head of `cmd.xq`; `left` is what the primitive's range is left with (R332). -/
  | resetCut (ram buf : List Host.Cell) (left : List Byte)
  deriving DecidableEq, Repr

/-- A storage space's bytes: (address, byte) pairs in the canonical form of `Memory.wf`. -/
abbrev Memory := List Host.Cell

/-- What an address that no entry lists reads as (logs 5, 6): an erased byte in FLASH and OTP (R63, R65), 0x00 in RAM and
BUF, whose contents after RESET the spec leaves open. -/
def Space.blank : Space → Byte
  | .ram | .buf => 0x00
  | .flash | .otp => 0xFF

/-- The canonical form: addresses strictly rising, no entry equal to what an unlisted address reads as. -/
abbrev Memory.wf (blank : Byte) (m : Memory) : Prop :=
  m.Pairwise (fun x y => x.1 < y.1) ∧ ∀ c ∈ m, c.2 ≠ blank

/-- The state of the block (10_state.md R20-R37, R43). -/
structure State where
  /-- `CFG` (R40, R44): changed by no step (log 1). -/
  cfg : Config
  /-- `state` (R20). -/
  ctl : Ctl
  /-- `cmd` (R22, R23). -/
  cmd : Option Cmd
  /-- `RAM` (R33, R50). -/
  ram : Memory
  /-- `BUF` (R30). -/
  buf : Memory
  /-- `FLASH` (R33, R50). -/
  flash : Memory
  /-- `OTP`: cell `w` is the `W/8` bytes from `w · W/8`, least-significant first (R33, R50, R69; log 7). -/
  otp : Memory
  /-- `BAUD` (R31). -/
  baud : U32
  /-- `RXQ`, its head first (R34). -/
  rxq : List Byte
  /-- `TXL`, oldest first (R35). -/
  txl : List (Byte × U32)
  /-- `EVL`, oldest first (R36). -/
  evl : List Event
  /-- The MODEL's own: the environment's pending events, oldest first (log 3). -/
  env : List EnvEvent
  /-- The MODEL's own: the collaborators' draws the environment has fixed, oldest first (log 4). -/
  answers : List (List Byte)
  /-- The MODEL's own: how many free values were drawn (log 4). -/
  draws : Nat
  deriving DecidableEq, Repr

/-- Why the machine stops. No state that meets the invariant of Sys2Proof/Safety.lean reaches any of them. -/
inductive Fault where
  /-- A stage reads a field of `cmd` that no step has set: "a model fault, not a value" (R23, 93 I18). Raised by the stages of
  Machine/Stages.lean. Safe. -/
  | undefinedField
  /-- A storage primitive is called outside its precondition (20_memory.md R61-R66). Raised by `perform` and `SendData`.
  Safe. -/
  | outOfRange
  /-- `exec` is asked for an instruction in a control state where the spec enables no event of it (41_framing_fsm.md R140).
  Raised by the meanings; `step` never asks so. Safe. -/
  | notEnabled
  deriving DecidableEq, Repr

/-- Why the model gives an instruction no meaning. -/
inductive Refusal where
  /-- No meaning was written for the instruction. Raised by no arm of `exec`. Safe. -/
  | notModelled (mnemonic : String)
  deriving DecidableEq, Repr

/-- The outcome of a step. -/
abbrev Res := Host.Outcome State Fault Refusal

/-- The machine right after RESET (R43), with the configuration TC0 (log 1), RAM and BUF at the model's choice (log 5), FLASH
and OTP erased (log 6), both logs empty and nothing pending in the environment (log 3). -/
def State.reset : State where
  cfg := Config.tc0
  ctl := .announce
  cmd := none
  ram := []
  buf := []
  flash := []
  otp := []
  baud := Config.tc0.baudInit
  rxq := []
  txl := []
  evl := []
  env := []
  answers := []
  draws := 0

end Sys2Proof.Machine
end

