-- ==== Sys2Proof/Machine/Flags.lean ====
section
/-! DEFINITION. The transient outcomes (10_state.md R41): the block has no status flags; each of these is consumed in the
step that computes it. -/

namespace Sys2Proof.Machine

/-- The CRC match, inbound and of the response: exact 16-bit equality with the received bytes (40_crc.md R127-R129). -/
def crcMatches (c : Cmd) (lo hi : Byte) : Bool := joinLE lo hi == c.crc

/-- `update_possible(cur, new)`: no bit goes 0 → 1 (20_memory.md R67). -/
def updatePossible (cur new : List Byte) : Bool := (List.zipWith (fun c n => n &&& ~~~c == 0) cur new).all id

/-- Where two ranges differ, byte by byte. -/
def diffs (cur new : List Byte) : List Bool := List.zipWith (fun c n => c != n) cur new

/-- `f`, the first differing index (43_flash_safety.md R242). -/
def firstDiff (cur new : List Byte) : Nat := (diffs cur new).findIdx id

/-- `l + 1`, one past the last differing index (43_flash_safety.md R242). -/
def endDiff (cur new : List Byte) : Nat := (diffs cur new).length - (diffs cur new).reverse.findIdx id

/-- Every byte of a sector outside `[p, p+k)` is erased (43_flash_safety.md R242, R245). -/
def erasedOutside (sec : List Byte) (p k : Nat) : Bool := (sec.take p ++ sec.drop (p + k)).all (fun b => b == 0xFF)

/-- `r` of IS_EMPTY_FLASH: the offset of the first byte that is not 0xFF, or the length (30_encoding.md R101). -/
def firstProgrammed (s : List Byte) : Nat := s.findIdx (fun b => b != 0xFF)

/-- The baud rates CHANGE_BAUD accepts (42_commands.md R208). -/
def baudSupported (cfg : Config) (b : U32) : Bool := cfg.supportedBauds.contains b

end Sys2Proof.Machine
end

