-- ==== Sys2Proof/Machine/Operands.lean ====
section
/-! DEFINITION. The operand forms: address classification, range validation and resolution (20_memory.md R50-R59). -/

namespace Sys2Proof.Machine

/-- `classify(a)`: the sentinel first, then the virtual window, else a concrete RAM address (R52). -/
def classify (cfg : Config) (a : U32) : Tagged :=
  if a = cfg.addrBuf then .scratch 0
  else if a &&& cfg.vwMask = cfg.vwBase then .scratch (a &&& ~~~cfg.vwMask).toNat
  else .concrete a.toNat

/-- A range that does not end past 2^32: nothing wraps (R51). -/
def noWrap (a n : Nat) : Bool := decide (a + n ≤ 2 ^ 32)

/-- A concrete RAM range: inside one region (R53, R51). -/
def ramRangeOk (cfg : Config) (a n : Nat) : Bool :=
  noWrap a n && cfg.ramRegions.any (fun r => decide (r.lo ≤ a) && decide (a + n ≤ r.hi))

/-- A scratch-buffer range (R53, R66). -/
def bufRangeOk (cfg : Config) (o n : Nat) : Bool := decide (o + n ≤ cfg.bufSize)

/-- `valid(t, n)` (R53). -/
def valid (cfg : Config) (t : Tagged) (n : Nat) : Bool :=
  match t with
  | .scratch o => bufRangeOk cfg o n
  | .concrete a => ramRangeOk cfg a n

/-- `resolve(t)`: the space and the address in it (R57). -/
def resolve : Tagged → Space × Nat
  | .scratch o => (.buf, o)
  | .concrete a => (.ram, a)

/-- A flash range inside the flash: the precondition of the flash primitives (R62-R64). -/
def flashFits (cfg : Config) (a n : Nat) : Bool := decide (a + n ≤ cfg.flashSize)

/-- A flash range of a header field (R54, R51; log 20). -/
def flashRangeOk (cfg : Config) (a n : Nat) : Bool := noWrap a n && flashFits cfg a n

/-- `k` OTP cells inside the OTP: the precondition of the OTP primitives (R65). -/
def otpFits (cfg : Config) (w k : Nat) : Bool := decide (w + k ≤ cfg.otpWords)

/-- An OTP range of `k` cells of a header field (R55, R51; log 20). -/
def otpRangeOk (cfg : Config) (w k : Nat) : Bool := noWrap w k && otpFits cfg w k

/-- The partition-table entry with a given id (R56, 30_encoding.md R96). -/
def Config.partition (cfg : Config) (id : Byte) : Option PartEntry := cfg.ptable.find? (fun e => e.typ == id)

/-- The flash address a partition range resolves to, if the range is valid (R56). -/
def partitionAddr (cfg : Config) (id : Byte) (off n : Nat) : Option Nat :=
  match Config.partition cfg id with
  | none => none
  | some e =>
    let a := e.startAddress.toNat + off
    if off + n ≤ e.size.toNat ∧ flashRangeOk cfg a n = true then some a else none

/-- `sector_of(x)` (R59). -/
def sectorOf (cfg : Config) (x : Nat) : Nat := x - x % cfg.sectorSize

/-- The header fields of a command with their RAM-side addresses tagged: what `Header` puts into `cmd.f` (R25, R58,
42_commands.md R191). -/
def decodeFields (cfg : Config) (n : Command) (hdr : List Byte) : HdrFields Tagged :=
  (decodeHdr cfg n hdr).map (classify cfg)

end Sys2Proof.Machine
end

