-- ==== Sys2Proof/Machine/Ops.lean ====
section
/-! DEFINITION. The named operations: memory, the transport, the storage primitives (20_memory.md R60-R66), the abort and the
start of a command (60_exceptions.md R300-R302, 41_framing_fsm.md R145), RESET (70_reset_and_hazards.md R330-R332). -/

namespace Sys2Proof.Machine

/-! ## Memory in canonical form -/

/-- The byte at `a`. -/
def Memory.read (blank : Byte) (m : Memory) (a : Nat) : Byte :=
  match m.find? (fun c => c.1 == a) with
  | some c => c.2
  | none => blank

/-- `bytes(space, a, n)` (R59). -/
def Memory.readBytes (blank : Byte) (m : Memory) (a n : Nat) : List Byte :=
  (List.range n).map (fun i => Memory.read blank m (a + i))

/-- The entries of the bytes `v` from `a` on, those that read as an unlisted address left out. -/
def Memory.cellsFrom (blank : Byte) : Nat → List Byte → Memory
  | _, [] => []
  | a, b :: bs => if b = blank then Memory.cellsFrom blank (a + 1) bs else (a, b) :: Memory.cellsFrom blank (a + 1) bs

/-- The bytes `v` written from `a` on. -/
def Memory.writeBytes (blank : Byte) (m : Memory) (a : Nat) (v : List Byte) : Memory :=
  m.filter (fun c => decide (c.1 < a)) ++ Memory.cellsFrom blank a v
    ++ m.filter (fun c => decide (a + v.length ≤ c.1))

/-- The memory that holds the given cells, a later cell for one address winning. -/
def Memory.ofCells (blank : Byte) (cells : List Host.Cell) : Memory :=
  cells.foldl (fun m c => Memory.writeBytes blank m c.1 [c.2]) []

/-! ## State updates -/

/-- `state <- S` with the in-flight record `cmd`; no record is `none`. -/
def State.enter (s : State) (ctl : Ctl) (cmd : Option Cmd) : State := { s with ctl := ctl, cmd := cmd }

/-- `Tx(b1, ..., bk)`: each byte tagged with the current `BAUD` (R10, R35). -/
def State.tx (s : State) (bs : List Byte) : State := { s with txl := s.txl ++ bs.map (fun b => (b, s.baud)) }

/-- `emit E`: append to `EVL` (R10, R36). -/
def State.emit (s : State) (es : List Event) : State := { s with evl := s.evl ++ es }

/-- `Rx()` takes the oldest byte (R10, R34). -/
def State.popRx (s : State) : State := { s with rxq := s.rxq.tail }

/-- Bytes arrive in `RXQ` (R34). -/
def State.pushRx (s : State) (bs : List Byte) : State := { s with rxq := s.rxq ++ bs }

/-- `BAUD <- b` (R31). -/
def State.setBaud (s : State) (b : U32) : State := { s with baud := b }

/-- The new contents of RAM. -/
def State.setRam (s : State) (m : Memory) : State := { s with ram := m }

/-- The new contents of BUF. -/
def State.setBuf (s : State) (m : Memory) : State := { s with buf := m }

/-- The new contents of FLASH. -/
def State.setFlash (s : State) (m : Memory) : State := { s with flash := m }

/-- The new contents of OTP. -/
def State.setOtp (s : State) (m : Memory) : State := { s with otp := m }

/-- The environment's events that are still pending. -/
def State.setEnv (s : State) (es : List EnvEvent) : State := { s with env := es }

/-- A collaborator's draw: the environment's next answer, else the next free value (R60, R206; log 4). -/
def State.drawn (s : State) : List Byte :=
  match s.answers with
  | a :: _ => a
  | [] => Config.freeBytes s.draws

/-- The state after a draw. -/
def State.afterDraw (s : State) : State :=
  match s.answers with
  | _ :: as => { s with answers := as }
  | [] => { s with draws := s.draws + 1 }

/-! ## Reading storage -/

/-- `MemRead(FLASH, a, n)` (R62). -/
def State.readFlash (s : State) (a n : Nat) : List Byte := Memory.readBytes Space.flash.blank s.flash a n

/-- `MemRead(RAM, a, n)` (R61). -/
def State.readRam (s : State) (a n : Nat) : List Byte := Memory.readBytes Space.ram.blank s.ram a n

/-- `MemRead(BUF, o, n)` (R66). -/
def State.readBuf (s : State) (o n : Nat) : List Byte := Memory.readBytes Space.buf.blank s.buf o n

/-- The bytes of OTP cell `w`, least-significant first (R65, R69). -/
def State.readCell (s : State) (w : Nat) : List Byte :=
  Memory.readBytes Space.otp.blank s.otp (w * s.cfg.w8) s.cfg.w8

/-- `MemRead` at a resolved RAM-side address (R57). -/
def State.readTagged (s : State) (t : Tagged) (n : Nat) : List Byte :=
  match t with
  | .scratch o => s.readBuf o n
  | .concrete a => s.readRam a n

/-- The event of a RAM-side read: reads of `BUF` are not logged (R36, R66). -/
def readEvents (t : Tagged) (n : Nat) : List Event :=
  match t with
  | .scratch _ => []
  | .concrete a => [.read .ram a n]

/-! ## The storage primitives that write (R60-R66) -/

/-- What a program or erase leaves in its range: `normal`, unless `STORAGE_FAULTS` lets the draw leave any values (R60). -/
def State.disturbed (s : State) (normal : List Byte) : List Byte :=
  if s.cfg.storageFaults then overlay s.drawn normal else normal

/-- The state after the draw of `disturbed`. -/
def State.afterFault (s : State) : State := if s.cfg.storageFaults then s.afterDraw else s

/-- `MemWrite(RAM | BUF, t, |v|, v)` (R61, R66). -/
def State.writeTagged (s : State) (t : Tagged) (v : List Byte) : State :=
  match t with
  | .scratch o => s.setBuf (Memory.writeBytes Space.buf.blank s.buf o v)
  | .concrete a => (s.setRam (Memory.writeBytes Space.ram.blank s.ram a v)).emit [.write .ram a v.length]

/-- `MemWrite(FLASH, a, |v|, v)`: programming can only clear bits (R64). -/
def State.programFlash (s : State) (a : Nat) (v : List Byte) : State :=
  let left := s.disturbed (andBytes (s.readFlash a v.length) v)
  (s.afterFault.setFlash (Memory.writeBytes Space.flash.blank s.flash a left)).emit [.write .flash a v.length]

/-- `FlashErase(s0)`: every byte of the sector becomes 0xFF (R63). -/
def State.eraseSector (s : State) (s0 : Nat) : State :=
  let left := s.disturbed (List.replicate s.cfg.sectorSize 0xFF)
  (s.afterFault.setFlash (Memory.writeBytes Space.flash.blank s.flash s0 left)).emit [.erase s0]

/-- `ChipErase()`: every flash byte becomes 0xFF (R63). -/
def State.eraseChip (s : State) : State :=
  let left := if s.cfg.storageFaults then s.drawn.take s.cfg.flashSize else []
  (s.afterFault.setFlash (Memory.cellsFrom Space.flash.blank 0 left)).emit [.chipErase]

/-- `OtpProgram(w, v)`: the cell becomes `OTP[w] & v` (R65). -/
def State.programCell (s : State) (w : Nat) (v : List Byte) : State :=
  let left := s.disturbed (andBytes (s.readCell w) v)
  (s.afterFault.setOtp (Memory.writeBytes Space.otp.blank s.otp (w * s.cfg.w8) left)).emit [.programOtp w]

/-! ## The abort, and the start of the next command -/

/-- The numeric label of an abort code (R300). -/
def Abort.code : Abort → Nat
  | .unknownCmd => 1
  | .lenShort => 2
  | .initFail => 3
  | .headerFail => 4
  | .dataFail => 5
  | .crcIn => 6
  | .execFail => 7
  | .rspRefused => 8
  | .crcOut => 9
  | .timeout => 10

/-- The "byte sent" column of R300. -/
def Abort.sent : Abort → List Byte
  | .rspRefused | .timeout => []
  | .unknownCmd | .lenShort | .initFail | .headerFail | .dataFail | .crcIn | .execFail | .crcOut => [NAK]

/-- `raise Abort(code)`: THE exception of the block, taken in one place: send the code's byte, discard `cmd` with any pending
`new_baud`, and go to `S_WAIT_SOH`; `RXQ` and storage stay (R301). -/
def raiseAbort (code : Abort) (s : State) : Res := .next ((s.tx code.sent).enter .waitSoh none)

/-- A fresh record: every field undefined but `crc` and `new_baud = none` (R23, R145; log 9). -/
def freshCmd (cfg : Config) : Cmd :=
  { crc := if cfg.crcCoversFrameHdr then crcUpdate cfg.crcPoly cfg.crcSeed SOH else cfg.crcSeed }

/-- `start_command()`, which is also the "return" from an abort: the next command starts from a fresh record (R145, R302). -/
def startCommand (s : State) : Res := .next (s.enter .typ (some (freshCmd s.cfg)))

/-- `complete()`: a pending baud rate is applied after every byte of the command was sent (R160). -/
def complete (c : Cmd) (s : State) : Res :=
  match c.newBaud with
  | some b => .next ((s.setBaud b).enter .waitSoh none)
  | none => .next (s.enter .waitSoh none)

/-- The waits a timeout can end (R21). -/
def Ctl.bounded : Ctl → Bool
  | .announce | .exec | .jumped => false
  | .waitSoh | .typ | .lenLo | .lenHi | .hdr | .pld | .crcLo | .crcHi | .rspAck | .rspCrcLo | .rspCrcHi => true

/-- **timeout** (R142): only at a bounded wait with `RXQ` empty; anywhere else it does not occur. -/
def timeoutEvent (s : State) : Res :=
  if s.ctl.bounded && s.rxq.isEmpty then
    if s.ctl = .waitSoh then .next (s.enter .announce none) else raiseAbort .timeout s
  else .next s

/-! ## RESET -/

/-- The cells of a wake-up content that lie in RAM (R50). -/
def ramCells (cfg : Config) (cells : List Host.Cell) : List Host.Cell := cells.filter (fun c => ramRangeOk cfg c.1 1)

/-- The cells of a wake-up content that lie in BUF (R50). -/
def bufCells (cfg : Config) (cells : List Host.Cell) : List Host.Cell := cells.filter (fun c => bufRangeOk cfg c.1 1)

/-- RESET (R330, R43): `S_ANNOUNCE`, no record, `BAUD_INIT`, `RXQ` empty, RAM and BUF with any contents; FLASH, OTP and the
logs stay. -/
def resetState (ram buf : List Host.Cell) (s : State) : State :=
  { s with
    ctl := .announce, cmd := none, baud := s.cfg.baudInit, rxq := []
    ram := Memory.ofCells Space.ram.blank (ramCells s.cfg ram)
    buf := Memory.ofCells Space.buf.blank (bufCells s.cfg buf) }

/-- A cut primitive leaves each byte of its range any value; a byte `left` does not name keeps its own (R332). -/
def cutFlash (a n : Nat) (left : List Byte) (s : State) : State :=
  s.setFlash (Memory.writeBytes Space.flash.blank s.flash a (left.take n))

/-- The effect of RESET during the primitive at the head of `cmd.xq` (R332): any value in the range of a flash primitive; in
an OTP cell any value that sets no bit back to 1; reads and pure computations are never cut; RAM and BUF are unspecified
after RESET in any case. -/
def cutOp (op : ExecOp) (left : List Byte) (s : State) : State :=
  match op with
  | .flashWrite a v => cutFlash a v.length left s
  | .erase s0 => cutFlash s0 s.cfg.sectorSize left s
  | .chipErase => cutFlash 0 s.cfg.flashSize left s
  | .program w _ =>
    s.setOtp (Memory.writeBytes Space.otp.blank s.otp (w * s.cfg.w8)
      (andBytes (s.readCell w) (overlay left (s.readCell w))))
  | .write _ _ | .copy _ _ _ | .chunk _ _ | .sector _ _ | .verify _ _ | .setBaud _ | .gpio _ | .check _ _ => s

/-- The primitive a RESET can cut: the head of `cmd.xq` in `S_EXEC` (R330, R332). -/
def State.headOp (s : State) : Option ExecOp :=
  if s.ctl = .exec then s.cmd.bind (fun c => c.xq.bind List.head?) else none

/-- RESET during a primitive, or a plain RESET where none is under way (R330, R332). -/
def resetCutState (ram buf : List Host.Cell) (left : List Byte) (s : State) : State :=
  resetState ram buf (match s.headOp with | some op => cutOp op left s | none => s)

/-- A byte of the host: at `BAUD` it arrives as it is, at any other rate as any bytes (R34, R341). -/
def hostByte (b : Byte) (rate : U32) (seen : List Byte) (s : State) : State :=
  s.pushRx (if rate = s.baud then [b] else seen)

end Sys2Proof.Machine
end

