-- ==== Sys2Proof/Machine/Stages.lean ====
section
/-! DEFINITION. The command dispatch state machine from the header lookup on (41_framing_fsm.md R146-R160): the stages of a
command as a handler, one storage primitive a step in `S_EXEC`, and the byte rules of every waiting state of a command. -/

namespace Sys2Proof.Machine

/-- What `SendData` answers (R141, R158). -/
inductive DataReply where
  /-- `(bytes, true)`, with the storage reads it logged. -/
  | data (bytes : List Byte) (reads : List Event)
  /-- `ok = false`: no data to send (R162). -/
  | noData
  /-- A read outside the storage (never after a passed `Header`). -/
  | outOfRange
  deriving DecidableEq, Repr

/-- The stages of a command (R141). A stage a command's rule does not list takes the default of 42_commands.md R191. -/
structure Handler where
  name : Command
  /-- `Init(n, pl)` (42_commands.md R190). -/
  init : Config → Nat → Bool
  /-- The range checks of `Header`, on the decoded fields and the payload length. -/
  header : Config → HdrFields Tagged → Nat → Bool := fun _ _ _ => true
  /-- `Data(n, f, pld)`. -/
  data : Config → HdrFields Tagged → List Byte → Bool := fun _ _ _ => true
  /-- `ExecProgram(n, f, pld)` (R154). -/
  program : Config → HdrFields Tagged → List Byte → List ExecOp := fun _ _ _ => []
  /-- The jump a RUN program ends with (R154, R156). -/
  jump : HdrFields Tagged → Option U32 := fun _ => none
  /-- Whether `SendLen` draws the collaborator's state `Q` (42_commands.md R206). -/
  query : Bool := false
  /-- `SendLen(n, f)`: the length and `ok`; the last argument is `Q`. -/
  sendLen : Config → HdrFields Tagged → List Byte → Nat × Bool := fun _ _ _ => (0, false)
  /-- `SendData(n, f)`; the last argument is `Q`. -/
  sendData : State → HdrFields Tagged → List Byte → DataReply := fun _ _ _ => .noData

/-- Reading a field of `cmd`: an undefined one is a model fault (R23, 93 I18). -/
def need {α : Type} (o : Option α) (k : α → Res) : Res :=
  match o with
  | some a => k a
  | none => .fault .undefinedField

/-- Folding a frame-header byte into `cmd.crc` (R146, 40_crc.md R124). -/
def foldFrame (cfg : Config) (crc : U16) (b : Byte) : U16 :=
  if cfg.crcCoversFrameHdr then crcUpdate cfg.crcPoly crc b else crc

/-- Folding a byte of the message into `cmd.crc` (40_crc.md R123). -/
def foldData (cfg : Config) (crc : U16) (b : Byte) : U16 := crcUpdate cfg.crcPoly crc b

/-! ## Frame header, lookup and Init (R146-R148) -/

/-- `S_TYPE` and `S_LEN_LO` (R146). -/
def frameByte (b : Byte) (s : State) : Res :=
  need s.cmd fun c =>
    match s.ctl with
    | .typ => .next (s.popRx.enter .lenLo (some { c with typ := some b, crc := foldFrame s.cfg c.crc b }))
    | .lenLo =>
      .next (s.popRx.enter .lenHi (some { c with length := some (b.zeroExtend 16), crc := foldFrame s.cfg c.crc b }))
    | _ => .fault .notEnabled

/-- The record after the high length byte `b`, before the lookup (R146). -/
def Cmd.withLenHi (c : Cmd) (cfg : Config) (lo : U16) (b : Byte) : Cmd :=
  { c with length := some (lo ||| ((b.zeroExtend 16) <<< 8)), crc := foldFrame cfg c.crc b }

/-- `S_LEN_HI` with a type byte that has no dispatch entry (R102, R146). -/
def unknownByte (b : Byte) (s : State) : Res :=
  need s.cmd fun c => need c.length fun lo =>
    raiseAbort .unknownCmd (s.popRx.enter .lenHi (some (c.withLenHi s.cfg lo b)))

/-- The end of the payload: the `Data` stage (R150). -/
def afterPayload (h : Handler) (c : Cmd) (s : State) : Res :=
  need c.f fun f => need c.pld fun pld =>
    if h.data s.cfg f pld then .next ((s.tx [ACK]).enter .crcLo (some c)) else raiseAbort .dataFail s

/-- The end of the header: the `Header` stage, which writes `cmd.f` on success (R149). -/
def afterHeader (h : Handler) (c : Cmd) (s : State) : Res :=
  need c.hdr fun hdr => need c.pl fun pl =>
    let f := decodeFields s.cfg h.name hdr
    if h.header s.cfg f pl.toNat then
      if 0 < pl then .next (s.enter .pld (some { c with f := some f }))
      else afterPayload h { c with f := some f } s
    else raiseAbort .headerFail s

/-- The header acknowledgement and entry to the data phase (R148). -/
def headerAck (h : Handler) (hs : Nat) (c : Cmd) (s : State) : Res :=
  let c := { c with
    crc := if s.cfg.crcCoversFrameHdr then c.crc else s.cfg.crcSeed
    hdr := some [], pld := some [] }
  if 0 < hs then .next ((s.tx [ACK]).enter .hdr (some c)) else afterHeader h c (s.tx [ACK])

/-- The length check and `Init`, in the order of R147. -/
def checkLengthAndInit (h : Handler) (len : U16) (c : Cmd) (s : State) : Res :=
  let hs := s.cfg.hdrSize h.name
  let pl : Int := (len.toNat : Int) - (hs : Int)
  let c := { c with hs := some hs, pl := some pl }
  if pl < 0 then raiseAbort .lenShort s
  else if (s.cfg.pldMax : Int) < pl then raiseAbort .initFail s
  else if h.init s.cfg pl.toNat then headerAck h hs c s
  else raiseAbort .initFail s

/-- `S_LEN_HI` with a known command (R146, R147). -/
def lenHiByte (h : Handler) (b : Byte) (c : Cmd) (s : State) : Res :=
  need c.length fun lo =>
    let c := { c.withLenHi s.cfg lo b with name := some h.name }
    checkLengthAndInit h (lo ||| ((b.zeroExtend 16) <<< 8)) c s.popRx

/-! ## Data phase and CRC (R149-R153) -/

/-- `S_HDR` (R149). -/
def hdrByte (h : Handler) (b : Byte) (c : Cmd) (s : State) : Res :=
  need c.hdr fun hdr => need c.hs fun hs =>
    let c := { c with hdr := some (hdr ++ [b]), crc := foldData s.cfg c.crc b }
    if hdr.length + 1 = hs then afterHeader h c s.popRx else .next (s.popRx.enter .hdr (some c))

/-- `S_PLD` (R150). -/
def pldByte (h : Handler) (b : Byte) (c : Cmd) (s : State) : Res :=
  need c.pld fun pld => need c.pl fun pl =>
    let c := { c with pld := some (pld ++ [b]), crc := foldData s.cfg c.crc b }
    if ((pld.length + 1 : Nat) : Int) = pl then afterPayload h c s.popRx else .next (s.popRx.enter .pld (some c))

/-- `S_CRC_HI`: the inbound CRC check and the start of `Exec` (R153, 40_crc.md R128). -/
def crcHiByte (h : Handler) (b : Byte) (c : Cmd) (s : State) : Res :=
  need c.rcrcLo fun lo => need c.f fun f => need c.pld fun pld =>
    if crcMatches c lo b then
      .next ((s.popRx.tx [ACK]).enter .exec (some { c with xq := some (h.program s.cfg f pld) }))
    else raiseAbort .crcIn s.popRx

/-! ## Exec (R154-R156) -/

/-- `FlashSafeWrite(a, data)` as pending work: no data, no primitive (43_flash_safety.md R240). -/
def safeWrite (a : Nat) (data : List Byte) : List ExecOp := if data.isEmpty then [] else [.chunk a data]

/-- What a chunk read as `cur` needs next (43_flash_safety.md R242-R244). -/
def chunkPlan (cfg : Config) (ca : Nat) (cd cur : List Byte) : List ExecOp :=
  if updatePossible cur cd then
    if cur = cd then []
    else [.flashWrite (ca + firstDiff cur cd) (slice cd (firstDiff cur cd) (endDiff cur cd - firstDiff cur cd))]
  else if ca = sectorOf cfg ca ∧ cd.length = cfg.sectorSize then [.erase ca, .flashWrite ca cd]
  else [.sector ca cd]

/-- What a partial chunk needs once its sector is read as `sec`: the erased-rest path or the merge (R245, R246). -/
def sectorPlan (cfg : Config) (ca : Nat) (cd sec : List Byte) : List ExecOp :=
  let s0 := sectorOf cfg ca
  if erasedOutside sec (ca - s0) cd.length then [.erase s0, .flashWrite ca cd]
  else [.erase s0, .flashWrite s0 (splice sec (ca - s0) cd)]

/-- The length of the chunk at `a` of an `n`-byte request (R241). -/
def chunkLen (cfg : Config) (a n : Nat) : Nat := min n (sectorOf cfg a + cfg.sectorSize - a)

/-- One storage primitive: the state after it, with its event, and the work it puts in front of the rest of the queue (R28,
R155); none when it is called outside its precondition (20_memory.md R61-R66). The pure entries do nothing here. The bytes of
the verify read go to the comparison that follows it, whose result the step that makes it consumes (10_state.md R41; log 31). -/
def perform (op : ExecOp) (s : State) : Option (State × List ExecOp) :=
  match op with
  | .write t v => if valid s.cfg t v.length then some (s.writeTagged t v, []) else none
  | .copy src n dst =>
    if valid s.cfg src n then some (s.emit (readEvents src n), safeWrite dst (s.readTagged src n)) else none
  | .chunk a data =>
    if flashFits s.cfg a data.length then
      let k := chunkLen s.cfg a data.length
      some (s.emit [.read .flash a k],
        chunkPlan s.cfg a (data.take k) (s.readFlash a k) ++ safeWrite (a + k) (data.drop k))
    else none
  | .sector ca cd =>
    let s0 := sectorOf s.cfg ca
    if flashFits s.cfg s0 s.cfg.sectorSize then
      some (s.emit [.read .flash s0 s.cfg.sectorSize], sectorPlan s.cfg ca cd (s.readFlash s0 s.cfg.sectorSize))
    else none
  | .flashWrite a v => if flashFits s.cfg a v.length then some (s.programFlash a v, []) else none
  | .erase s0 =>
    if s0 % s.cfg.sectorSize = 0 ∧ flashFits s.cfg s0 s.cfg.sectorSize = true then some (s.eraseSector s0, []) else none
  | .chipErase => some (s.eraseChip, [])
  | .program w v => if otpFits s.cfg w 1 ∧ v.length = s.cfg.w8 then some (s.programCell w v, []) else none
  | .verify a data =>
    if flashFits s.cfg a data.length then
      some (s.emit [.read .flash a data.length], [.check (s.readFlash a data.length) data])
    else none
  | .setBaud _ | .gpio _ | .check _ _ => some (s, [])

/-- `SendLen` (R157): the length, 0 when it answers `ok = false`. -/
def startResponse (h : Handler) (f : HdrFields Tagged) (c : Cmd) (s : State) : Res :=
  let q := if h.query then s.drawn.take 65535 else []
  let s := if h.query then s.afterDraw else s
  let reply := h.sendLen s.cfg f q
  let len : U16 := BitVec.ofNat 16 (if reply.2 then reply.1 else 0)
  .next ((s.tx (LE16 len)).enter .rspAck (some { c with rspLen := some len, q := some q }))

/-- The end of `Exec` with `return true` (R156). A JUMP event names its target alone; the `RAM` it carries (20_memory.md R77) is
`State.ram` of this step, which stays until RESET (the model's choice, log 33). -/
def execDone (h : Handler) (f : HdrFields Tagged) (c : Cmd) (s : State) : Res :=
  match h.jump f with
  | some target => .next (((s.tx [ACK]).emit [.jump target]).enter .jumped none)
  | none => if h.name.hasResponse then startResponse h f c (s.tx [ACK]) else complete c (s.tx [ACK])

/-- **exec-step** on a queue: the pure computations up to the next storage primitive, then that primitive; at the end of the
program, R156 (R155). -/
def runExec (h : Handler) (f : HdrFields Tagged) (xq : List ExecOp) (c : Cmd) (s : State) : Res :=
  match xq with
  | [] => execDone h f c s
  | .check read data :: rest => if read = data then runExec h f rest c s else raiseAbort .execFail s
  | .setBaud b :: rest => runExec h f rest { c with newBaud := some b } s
  | .gpio v :: rest => runExec h f rest c (s.emit [.gpioWd v])
  | op :: rest =>
    match perform op s with
    | some (s', more) => .next (s'.enter .exec (some { c with xq := some (more ++ rest) }))
    | none => .fault .outOfRange

/-- **exec-step** (R155): `RXQ` is not read. -/
def execStep (h : Handler) (c : Cmd) (s : State) : Res :=
  need c.f fun f => need c.xq fun xq => runExec h f xq c s

/-! ## Response phase (R158, R159) -/

/-- `S_RSP_ACK`: the host's answer to the length, then `SendData` (R158). -/
def rspAckByte (h : Handler) (b : Byte) (c : Cmd) (s : State) : Res :=
  need c.rspLen fun len => need c.f fun f => need c.q fun q =>
    let s := s.popRx
    if b ≠ ACK then raiseAbort .rspRefused s
    else if len = 0 then complete c s
    else match h.sendData s f q with
      | .noData => complete c s
      | .outOfRange => .fault .outOfRange
      | .data bytes reads =>
        .next (((s.emit reads).tx bytes).enter .rspCrcLo
          (some { c with rsp := some bytes, crc := crc s.cfg.crcPoly s.cfg.crcSeed bytes }))

/-- `S_RSP_CRC_HI` (R159, 40_crc.md R129). -/
def rspCrcHiByte (b : Byte) (c : Cmd) (s : State) : Res :=
  need c.rcrcLo fun lo =>
    if crcMatches c lo b then complete c (s.popRx.tx [ACK]) else raiseAbort .crcOut s.popRx

/-! ## One step of an in-flight command -/

/-- The byte rule of a command's waiting states (R146-R153, R158, R159). -/
def commandByte (h : Handler) (b : Byte) (c : Cmd) (s : State) : Res :=
  match s.ctl with
  | .lenHi => lenHiByte h b c s
  | .hdr => hdrByte h b c s
  | .pld => pldByte h b c s
  | .crcLo => .next (s.popRx.enter .crcHi (some { c with rcrcLo := some b }))
  | .crcHi => crcHiByte h b c s
  | .rspAck => rspAckByte h b c s
  | .rspCrcLo => .next (s.popRx.enter .rspCrcHi (some { c with rcrcLo := some b }))
  | .rspCrcHi => rspCrcHiByte b c s
  | .announce | .waitSoh | .typ | .lenLo | .exec | .jumped => .fault .notEnabled

/-- Whether the in-flight record `c` is one of command `n` at control state `ctl`: in `S_LEN_HI` the type byte dispatches to
`n` (R146); from the lookup on the record names it. -/
def inFlight (cfg : Config) (ctl : Ctl) (n : Command) (c : Cmd) : Bool :=
  if ctl = .lenHi then c.typ.bind cfg.dispatch == some n else c.name == some n

/-- The meaning shared by the 20 commands: one step of the engine for the command in flight, under its handler. In `S_EXEC`
an **exec-step**; in a waiting state the byte at the head of `RXQ`, or no event where `RXQ` is empty (R140). -/
def commandStep (h : Handler) (s : State) : Res :=
  need s.cmd fun c =>
    if inFlight s.cfg s.ctl h.name c then
      if s.ctl = .exec then execStep h c s
      else match s.rxq with
        | b :: _ => commandByte h b c s
        | [] => .next s
    else .fault .notEnabled

end Sys2Proof.Machine
end

