-- ==== Sys2Proof/Machine/Flash.lean ====
section
/-! DEFINITION. The flash commands (42_commands.md R194-R196, R200, R205-R207), over the flash write-safety unit of
Machine/Stages.lean (43_flash_safety.md). -/

namespace Sys2Proof.Machine

/-- COPY_TO_FLASH (R194). -/
def copyToFlashHandler : Handler where
  name := .copyToFlash
  init _ pl := decide (pl = 0)
  header cfg f _ :=
    match f with
    | .copyToFlash src dst len => valid cfg src len.toNat && flashRangeOk cfg dst.toNat len.toNat
    | _ => false
  program _ f _ := match f with | .copyToFlash src dst len => [.copy src len.toNat dst.toNat] | _ => []

/-- COPY_TO_FLASH (R194). -/
def execCopyToFlash (s : State) : Res := commandStep copyToFlashHandler s

/-- `FlashEraseRange(a, len)`: one `FlashErase` per sector that overlaps the range, in increasing order (43_flash_safety.md
R250). -/
def eraseRange (cfg : Config) (a len : Nat) : List ExecOp :=
  if len = 0 then []
  else
    let first := sectorOf cfg a
    let last := sectorOf cfg (a + len - 1)
    (List.range ((last - first) / cfg.sectorSize + 1)).map (fun i => .erase (first + i * cfg.sectorSize))

/-- ERASE_FLASH (R195). -/
def eraseFlashHandler : Handler where
  name := .eraseFlash
  init _ pl := decide (pl = 0)
  header cfg f _ := match f with | .eraseFlash addr len => flashRangeOk cfg addr.toNat len.toNat | _ => false
  program cfg f _ := match f with | .eraseFlash addr len => eraseRange cfg addr.toNat len.toNat | _ => []

/-- ERASE_FLASH (R195). -/
def execEraseFlash (s : State) : Res := commandStep eraseFlashHandler s

/-- CHIP_ERASE_FLASH (R196). -/
def chipEraseFlashHandler : Handler where
  name := .chipEraseFlash
  init _ pl := decide (pl = 0)
  program _ _ _ := [.chipErase]

/-- CHIP_ERASE_FLASH (R196). -/
def execChipEraseFlash (s : State) : Res := commandStep chipEraseFlashHandler s

/-- READ_FLASH (R200). -/
def readFlashHandler : Handler where
  name := .readFlash
  init _ pl := decide (pl = 0)
  header cfg f _ := match f with | .readFlash addr len => flashRangeOk cfg addr.toNat len.toNat | _ => false
  sendLen _ f _ := match f with | .readFlash _ len => (len.toNat, true) | _ => (0, false)
  sendData s f _ :=
    match f with
    | .readFlash addr len =>
      if flashFits s.cfg addr.toNat len.toNat then
        .data (s.readFlash addr.toNat len.toNat) [.read .flash addr.toNat len.toNat]
      else .outOfRange
    | _ => .noData

/-- READ_FLASH (R200). -/
def execReadFlash (s : State) : Res := commandStep readFlashHandler s

/-- IS_EMPTY_FLASH (R205, 30_encoding.md R101). -/
def isEmptyFlashHandler : Handler where
  name := .isEmptyFlash
  init _ pl := decide (pl = 0)
  header cfg f _ := match f with | .isEmptyFlash addr len => flashRangeOk cfg addr.toNat len.toNat | _ => false
  sendLen _ f _ := match f with | .isEmptyFlash _ _ => (4, true) | _ => (0, false)
  sendData s f _ :=
    match f with
    | .isEmptyFlash addr len =>
      if flashFits s.cfg addr.toNat len.toNat then
        .data (leBytes 4 (firstProgrammed (s.readFlash addr.toNat len.toNat))) [.read .flash addr.toNat len.toNat]
      else .outOfRange
    | _ => .noData

/-- IS_EMPTY_FLASH (R205). -/
def execIsEmptyFlash (s : State) : Res := commandStep isEmptyFlashHandler s

/-- GET_FLASH_STATE (R206): the collaborator's answer `Q`, a draw that nothing constrains but its length. -/
def getFlashStateHandler : Handler where
  name := .getFlashState
  init _ pl := decide (pl = 0)
  query := true
  sendLen _ _ q := (q.length, true)
  sendData _ _ q := .data q []

/-- GET_FLASH_STATE (R206). -/
def execGetFlashState (s : State) : Res := commandStep getFlashStateHandler s

/-- DIRECT_WRITE_FLASH (R207): the safety write, then with `verify ≠ 0` the read-back (43_flash_safety.md R252). -/
def directWriteFlashHandler : Handler where
  name := .directWriteFlash
  init _ pl := decide (1 ≤ pl)
  header cfg f pl := match f with | .directWriteFlash addr _ => flashRangeOk cfg addr.toNat pl | _ => false
  program _ f pld :=
    match f with
    | .directWriteFlash addr verify =>
      safeWrite addr.toNat pld ++ (if verify = 0 then [] else [.verify addr.toNat pld])
    | _ => []

/-- DIRECT_WRITE_FLASH (R207). -/
def execDirectWriteFlash (s : State) : Res := commandStep directWriteFlashHandler s

end Sys2Proof.Machine
end

