-- ==== Sys2Proof/Machine/Info.lean ====
section
/-! DEFINITION. The commands without operands or storage effect (42_commands.md R204, R209, R211). -/

namespace Sys2Proof.Machine

/-- GET_VERSION (R204). -/
def getVersionHandler : Handler where
  name := .getVersion
  init _ pl := decide (pl = 0)
  sendLen cfg _ _ := (cfg.versionString.length, true)
  sendData s _ _ := .data s.cfg.versionString []

/-- GET_VERSION (R204). -/
def execGetVersion (s : State) : Res := commandStep getVersionHandler s

/-- GET_PRODUCT_INFO (R209). -/
def getProductInfoHandler : Handler where
  name := .getProductInfo
  init _ pl := decide (pl = 0)
  sendLen cfg _ _ := (cfg.productInfo.length, true)
  sendData s _ _ := .data s.cfg.productInfo []

/-- GET_PRODUCT_INFO (R209). -/
def execGetProductInfo (s : State) : Res := commandStep getProductInfoHandler s

/-- DUMMY (R211): no stage does anything; the full exchange is still run. -/
def dummyHandler : Handler where
  name := .dummy
  init _ pl := decide (pl = 0)

/-- DUMMY (R211). -/
def execDummy (s : State) : Res := commandStep dummyHandler s

end Sys2Proof.Machine
end

