-- ==== Sys2Proof/Machine/Otp.lean ====
section
/-! DEFINITION. The OTP commands (42_commands.md R198, R199). The device's WRITE_OTP is unguarded (44_otp_safety.md R280). -/

namespace Sys2Proof.Machine

/-- `OtpProgram` of each cell of the payload, in increasing order (R198, 20_memory.md R69). -/
def programCells (cfg : Config) (cell : Nat) (pld : List Byte) : List ExecOp :=
  (List.range (pld.length / cfg.w8)).map (fun j => .program (cell + j) (slice pld (j * cfg.w8) cfg.w8))

/-- WRITE_OTP (R198). -/
def writeOtpHandler : Handler where
  name := .writeOtp
  init cfg pl := decide (1 ≤ pl) && decide (pl % cfg.w8 = 0)
  header cfg f pl := match f with | .writeOtp cell => otpRangeOk cfg cell.toNat (pl / cfg.w8) | _ => false
  program cfg f pld := match f with | .writeOtp cell => programCells cfg cell.toNat pld | _ => []

/-- WRITE_OTP (R198). -/
def execWriteOtp (s : State) : Res := commandStep writeOtpHandler s

/-- The bytes of `count` cells, each least-significant byte first (R199, 20_memory.md R69). -/
def readCells (s : State) (cell count : Nat) : List Byte :=
  (List.range count).flatMap (fun j => s.readCell (cell + j))

/-- READ_OTP (R199): one logged read per cell. -/
def readOtpHandler : Handler where
  name := .readOtp
  init _ pl := decide (pl = 0)
  header cfg f _ :=
    match f with
    | .readOtp cell count => otpRangeOk cfg cell.toNat count.toNat && decide (count.toNat * cfg.w8 ≤ 65535)
    | _ => false
  sendLen cfg f _ := match f with | .readOtp _ count => (count.toNat * cfg.w8, true) | _ => (0, false)
  sendData s f _ :=
    match f with
    | .readOtp cell count =>
      if otpFits s.cfg cell.toNat count.toNat then
        .data (readCells s cell.toNat count.toNat)
          ((List.range count.toNat).map (fun j => .read .otp (cell.toNat + j) 1))
      else .outOfRange
    | _ => .noData

/-- READ_OTP (R199). -/
def execReadOtp (s : State) : Res := commandStep readOtpHandler s

end Sys2Proof.Machine
end

