-- ==== Sys2Proof/Machine/PTable.lean ====
section
/-! DEFINITION. The partition-table response and its reader (30_encoding.md R98, R99). -/

namespace Sys2Proof

/-- Bytes of an entry after its own 2-byte prefix: `start_address`, `size`, `sector_size`, `type`, name length with the
terminator, name, terminator (R98). -/
def PartEntry.body (e : PartEntry) : List Byte :=
  LE32 e.startAddress ++ LE32 e.size ++ LE16 e.sectorSize ++ [e.typ, BitVec.ofNat 8 (e.name.length + 1)] ++ e.name ++ [0]

/-- `entry(e)`: the entry behind its length prefix `L` (R98). -/
def PartEntry.encode (e : PartEntry) : List Byte := leBytes 2 e.body.length ++ e.body

/-- `table(PTABLE)`: the entries behind the prefix `T`, which counts the entries and not itself (R98). -/
def encodeTable (pt : List PartEntry) : List Byte :=
  let entries := pt.flatMap PartEntry.encode
  leBytes 2 entries.length ++ entries

/-- One entry body read back; bytes after the terminator are extension bytes, which a reader ignores (R99). -/
def PartEntry.ofBody (b : List Byte) : PartEntry where
  startAddress := BitVec.ofNat 32 (leNat (slice b 0 4))
  size := BitVec.ofNat 32 (leNat (slice b 4 4))
  sectorSize := BitVec.ofNat 16 (leNat (slice b 8 2))
  typ := b.getD 10 0
  name := slice b 12 ((b.getD 11 0).toNat - 1)

/-- The entries of `b`, each skipped by its own length prefix (R99); at most `fuel` of them. -/
def readEntries : Nat → List Byte → List PartEntry
  | 0, _ => []
  | fuel + 1, b =>
    if b.length < 2 then []
    else
      let l := leNat (b.take 2)
      PartEntry.ofBody (slice b 2 l) :: readEntries fuel (b.drop (2 + l))

/-- A host's reading of a READ_PTABLE response (R99). -/
def readTable (b : List Byte) : List PartEntry :=
  let t := leNat (b.take 2)
  readEntries b.length (slice b 2 t)

end Sys2Proof
end

