-- ==== Sys2Proof/Machine/Partition.lean ====
section
/-! DEFINITION. The partition commands (42_commands.md R201-R203). -/

namespace Sys2Proof.Machine

/-- READ_PTABLE (R201, 30_encoding.md R98). -/
def readPtableHandler : Handler where
  name := .readPtable
  init _ pl := decide (pl = 0)
  sendLen cfg _ _ := ((encodeTable cfg.ptable).length, true)
  sendData s _ _ := .data (encodeTable s.cfg.ptable) []

/-- READ_PTABLE (R201). -/
def execReadPtable (s : State) : Res := commandStep readPtableHandler s

/-- READ_PARTITION (R202, 20_memory.md R56). -/
def readPartitionHandler : Handler where
  name := .readPartition
  init _ pl := decide (pl = 0)
  header cfg f _ := match f with | .readPartition id off len => (partitionAddr cfg id off.toNat len.toNat).isSome | _ => false
  sendLen _ f _ := match f with | .readPartition _ _ len => (len.toNat, true) | _ => (0, false)
  sendData s f _ :=
    match f with
    | .readPartition id off len =>
      match partitionAddr s.cfg id off.toNat len.toNat with
      | some a => .data (s.readFlash a len.toNat) [.read .flash a len.toNat]
      | none => .outOfRange
    | _ => .noData

/-- READ_PARTITION (R202). -/
def execReadPartition (s : State) : Res := commandStep readPartitionHandler s

/-- WRITE_PARTITION (R203). -/
def writePartitionHandler : Handler where
  name := .writePartition
  init _ pl := decide (1 ≤ pl)
  header cfg f pl := match f with | .writePartition id off => (partitionAddr cfg id off.toNat pl).isSome | _ => false
  program cfg f pld :=
    match f with
    | .writePartition id off =>
      match partitionAddr cfg id off.toNat pld.length with
      | some a => safeWrite a pld
      | none => []
    | _ => []

/-- WRITE_PARTITION (R203). -/
def execWritePartition (s : State) : Res := commandStep writePartitionHandler s

end Sys2Proof.Machine
end

