-- ==== Sys2Proof/Machine/Ram.lean ====
section
/-! DEFINITION. The RAM commands (42_commands.md R192, R193). -/

namespace Sys2Proof.Machine

/-- WRITE_RAM (R192). -/
def writeRamHandler : Handler where
  name := .writeRam
  init _ pl := decide (1 ≤ pl)
  header cfg f pl := match f with | .writeRam dst => valid cfg dst pl | _ => false
  program _ f pld := match f with | .writeRam dst => [.write dst pld] | _ => []

/-- WRITE_RAM (R192). -/
def execWriteRam (s : State) : Res := commandStep writeRamHandler s

/-- READ_RAM (R193). -/
def readRamHandler : Handler where
  name := .readRam
  init _ pl := decide (pl = 0)
  header cfg f _ := match f with | .readRam src len => valid cfg src len.toNat | _ => false
  sendLen _ f _ := match f with | .readRam _ len => (len.toNat, true) | _ => (0, false)
  sendData s f _ :=
    match f with
    | .readRam src len =>
      if valid s.cfg src len.toNat then .data (s.readTagged src len.toNat) (readEvents src len.toNat) else .outOfRange
    | _ => .noData

/-- READ_RAM (R193). -/
def execReadRam (s : State) : Res := commandStep readRamHandler s

end Sys2Proof.Machine
end

