-- ==== Sys2Proof/Machine/System.lean ====
section
/-! DEFINITION. Control transfer and the system commands (42_commands.md R197, R208, R210). -/

namespace Sys2Proof.Machine

/-- RUN (R197): the target is neither classified nor validated; its program is empty and ends in the jump (R154, R156). -/
def runHandler : Handler where
  name := .run
  init _ pl := decide (pl = 0)
  jump f := match f with | .run target => some target | _ => none

/-- RUN (R197). -/
def execRun (s : State) : Res := commandStep runHandler s

/-- CHANGE_BAUD (R208): the new rate waits in `cmd.new_baud` until the command completes. -/
def changeBaudHandler : Handler where
  name := .changeBaud
  init _ pl := decide (pl = 0)
  header cfg f _ := match f with | .changeBaud baud => baudSupported cfg baud | _ => false
  program _ f _ := match f with | .changeBaud baud => [.setBaud baud] | _ => []

/-- CHANGE_BAUD (R208). -/
def execChangeBaud (s : State) : Res := commandStep changeBaudHandler s

/-- GPIO_WD (R210): an opaque event, with no effect on the block. -/
def gpioWdHandler : Handler where
  name := .gpioWd
  init _ pl := decide (pl = 0)
  program _ f _ := match f with | .gpioWd cfg => [.gpio cfg] | _ => []

/-- GPIO_WD (R210). -/
def execGpioWd (s : State) : Res := commandStep gpioWdHandler s

end Sys2Proof.Machine
end

