-- ==== Sys2Proof/Machine/Handlers.lean ====
section
/-! DEFINITION. The handler half of the dispatch table: "a command byte to {header_size, handler}" (30_encoding.md R91). -/

namespace Sys2Proof.Machine

/-- The handler of each command. -/
def handlerOf : Command → Handler
  | .writeRam => writeRamHandler
  | .readRam => readRamHandler
  | .copyToFlash => copyToFlashHandler
  | .eraseFlash => eraseFlashHandler
  | .chipEraseFlash => chipEraseFlashHandler
  | .run => runHandler
  | .writeOtp => writeOtpHandler
  | .readOtp => readOtpHandler
  | .readFlash => readFlashHandler
  | .readPtable => readPtableHandler
  | .readPartition => readPartitionHandler
  | .writePartition => writePartitionHandler
  | .getVersion => getVersionHandler
  | .isEmptyFlash => isEmptyFlashHandler
  | .getFlashState => getFlashStateHandler
  | .directWriteFlash => directWriteFlashHandler
  | .changeBaud => changeBaudHandler
  | .getProductInfo => getProductInfoHandler
  | .gpioWd => gpioWdHandler
  | .dummy => dummyHandler

end Sys2Proof.Machine
end

