-- ==== Sys2Proof/Machine/Control.lean ====
section
/-! DEFINITION. The byte event at every waiting state (41_framing_fsm.md R143-R159, 60_exceptions.md R305), the control bytes
(30_encoding.md R80, R81), the announcement (R82, R143) and unassigned command codes (R102, R146). -/

namespace Sys2Proof.Machine

/-- `S_ANNOUNCE` and `S_WAIT_SOH`: `SOH` starts a command, any other byte is discarded (R143, R144). -/
def idleByte (b : Byte) (s : State) : Res := if b = SOH then startCommand s.popRx else .next s.popRx

/-- `S_LEN_HI`: the lookup decides who takes the byte (R146). -/
def lookupByte (b : Byte) (s : State) : Res :=
  need s.cmd fun c => need c.typ fun t =>
    match s.cfg.dispatch t with
    | some n => commandByte (handlerOf n) b c s
    | none => unknownByte b s

/-- A byte for the command the record names. -/
def namedByte (b : Byte) (s : State) : Res :=
  need s.cmd fun c => need c.name fun n => commandByte (handlerOf n) b c s

/-- **byte**: exactly one transition for every waiting state and every byte (R140, R305). `S_EXEC` and `S_JUMPED` take no
byte (R155, R161). -/
def onByte (b : Byte) (s : State) : Res :=
  match s.ctl with
  | .announce | .waitSoh => idleByte b s
  | .typ | .lenLo => frameByte b s
  | .lenHi => lookupByte b s
  | .hdr | .pld | .crcLo | .crcHi | .rspAck | .rspCrcLo | .rspCrcHi => namedByte b s
  | .exec | .jumped => .fault .notEnabled

/-- The meaning shared by the control bytes: the byte at the head of `RXQ` taken at the engine's position; at a position that
expects no control byte it is ordinary data (R81). -/
def controlStep (b : Byte) (s : State) : Res :=
  match s.rxq with
  | [] => .next s
  | b' :: _ => if b' = b then onByte b s else .fault .notEnabled

/-- SOH (R80): starts a command in the idle states (R143-R145). -/
def execSoh (s : State) : Res := controlStep SOH s

/-- STX (R80): only the device sends it as a control byte; received in an idle state it is discarded (R143, R144). -/
def execStx (s : State) : Res := controlStep STX s

/-- ACK (R80): accepts the response length in `S_RSP_ACK` (R158). -/
def execAck (s : State) : Res := controlStep ACK s

/-- NAK (R80): refuses the response length in `S_RSP_ACK` (R158). -/
def execNak (s : State) : Res := controlStep NAK s

/-- ANNOUNCE (R82, R143): the 4 bytes of the announcement, in `S_ANNOUNCE` only. -/
def execAnnounce (version : U16) (s : State) : Res :=
  if s.ctl = .announce then .next (s.tx (announceBytes version)) else .fault .notEnabled

/-- A type byte with no dispatch entry (R102): `NAK` once the frame header is complete, abort `UNKNOWN_CMD` (R146). -/
def execUnassigned (t : Byte) (s : State) : Res :=
  need s.cmd fun c =>
    if s.ctl = .lenHi ∧ c.typ = some t ∧ s.cfg.dispatch t = none then
      match s.rxq with
      | b :: _ => unknownByte b s
      | [] => .next s
    else .fault .notEnabled

end Sys2Proof.Machine
end

