-- ==== Sys2Proof/Machine/Dispatch.lean ====
section
/-! DEFINITION. One arm per row of spec/opcode_table.json. -/

namespace Sys2Proof.Machine

def exec (i : Instr) (s : State) : Host.Outcome State Fault Refusal :=
  match i with
  | .writeRam => Sys2Proof.Machine.execWriteRam s
  | .readRam => Sys2Proof.Machine.execReadRam s
  | .copyToFlash => Sys2Proof.Machine.execCopyToFlash s
  | .eraseFlash => Sys2Proof.Machine.execEraseFlash s
  | .chipEraseFlash => Sys2Proof.Machine.execChipEraseFlash s
  | .run => Sys2Proof.Machine.execRun s
  | .writeOtp => Sys2Proof.Machine.execWriteOtp s
  | .readOtp => Sys2Proof.Machine.execReadOtp s
  | .readFlash => Sys2Proof.Machine.execReadFlash s
  | .readPtable => Sys2Proof.Machine.execReadPtable s
  | .readPartition => Sys2Proof.Machine.execReadPartition s
  | .writePartition => Sys2Proof.Machine.execWritePartition s
  | .getVersion => Sys2Proof.Machine.execGetVersion s
  | .isEmptyFlash => Sys2Proof.Machine.execIsEmptyFlash s
  | .getFlashState => Sys2Proof.Machine.execGetFlashState s
  | .directWriteFlash => Sys2Proof.Machine.execDirectWriteFlash s
  | .changeBaud => Sys2Proof.Machine.execChangeBaud s
  | .getProductInfo => Sys2Proof.Machine.execGetProductInfo s
  | .gpioWd => Sys2Proof.Machine.execGpioWd s
  | .dummy => Sys2Proof.Machine.execDummy s
  | .soh => Sys2Proof.Machine.execSoh s
  | .stx => Sys2Proof.Machine.execStx s
  | .ack => Sys2Proof.Machine.execAck s
  | .nak => Sys2Proof.Machine.execNak s
  | .announce version => Sys2Proof.Machine.execAnnounce version s
  | .unassigned t => Sys2Proof.Machine.execUnassigned t s

end Sys2Proof.Machine
end

