-- ==== Sys2Proof/Machine/Engine.lean ====
section
/-! DEFINITION. Which instruction the engine runs next, the engine's own event, the environment's events, and the placing of an
instruction where the engine fetches it (41_framing_fsm.md R140; logs 3, 14, 16). -/

namespace Sys2Proof.Machine

/-- The bytes from which the next instruction is decoded, with their position (R81, R140): in an idle state or `S_RSP_ACK` the
byte at the head of `RXQ` as a control byte; in `S_LEN_HI`, with the last frame-header byte there, the type byte received. -/
def fetchBytes (s : State) : Option (Pos × List Byte) :=
  match s.ctl, s.rxq with
  | .announce, [] => some (.announcement, announceBytes s.cfg.version)
  | .announce, b :: _ | .waitSoh, b :: _ | .rspAck, b :: _ => some (.control, [b])
  | .lenHi, _ :: _ => (s.cmd.bind Cmd.typ).map (fun t => (.commandType, [t]))
  | _, _ => none

/-- The command the record names, in the states where it has an event of its own (R146-R159). -/
def currentCommand (s : State) : Option Instr :=
  match s.ctl, s.rxq with
  | .exec, _ => (s.cmd.bind Cmd.name).map Command.toInstr
  | .hdr, _ :: _ | .pld, _ :: _ | .crcLo, _ :: _ | .crcHi, _ :: _ | .rspCrcLo, _ :: _ | .rspCrcHi, _ :: _ =>
    (s.cmd.bind Cmd.name).map Command.toInstr
  | _, _ => none

/-- The instruction the engine runs next, if its next event is one of an instruction. -/
def fetch (s : State) : Option Instr :=
  match fetchBytes s with
  | some (pos, bytes) => (decode s.cfg pos bytes).toOption
  | none => currentCommand s

/-- The events of no instruction: the two frame-header bytes before the lookup, a byte that is no control byte in an idle
state or in `S_RSP_ACK`; and no event at all, in which the engine waits (R140, R161; log 14). -/
def plainStep (s : State) : Res :=
  match s.ctl, s.rxq with
  | .exec, _ => .fault .undefinedField
  | .jumped, _ => .next s
  | _, [] => .next s
  | _, b :: _ => onByte b s

/-- The engine's own event (R140). -/
def engineStep (s : State) : Res :=
  match fetch s with
  | some i => exec i s
  | none => plainStep s

/-- An event of the environment, already taken off the queue (R140, R142, R143, R330, R332). -/
def envStep (e : EnvEvent) (s : State) : Res :=
  match e with
  | .go => engineStep s
  | .host b rate seen => .next (hostByte b rate seen s)
  | .timeout => timeoutEvent s
  | .announce => if s.ctl = .announce then exec (.announce s.cfg.version) s else .next s
  | .reset ram buf => .next (resetState ram buf s)
  | .resetCut ram buf left => .next (resetCutState ram buf left s)

/-- One step: the environment's next event if one is pending, else the engine's own event (log 3). -/
def nextStep (s : State) : Res :=
  match s.env with
  | [] => engineStep s
  | e :: es => envStep e (s.setEnv es)

/-- A command frame of zero operand bytes, with the shortest payload its kind admits (log 16). -/
def zeroFrame (cfg : Config) (n : Command) : Frame :=
  ⟨.ofValues n [], List.replicate (match n.payloadRule with | .nonEmpty => 1 | .empty => 0 | .cells => cfg.w8) 0⟩

/-- The state with a command-type byte fetched and the rest of the frame still to come (log 16): `S_LEN_HI`, the type and the
low length byte received. -/
def placeType (s : State) (t : Byte) (rest : List Byte) (len : Nat) : State :=
  let c := freshCmd s.cfg
  { s with
    ctl := .lenHi
    cmd := some { c with
      typ := some t, length := some (BitVec.ofNat 16 (len % 256))
      crc := foldFrame s.cfg (foldFrame s.cfg c.crc t) (BitVec.ofNat 8 len) }
    rxq := BitVec.ofNat 8 (len / 256) :: rest
    env := [] }

/-- The state whose next step runs the instruction of an opcode-table word (log 16). -/
def placeWord (s : State) (nbits w : Nat) : State :=
  if nbits = 8 then
    let t := BitVec.ofNat 8 w
    match s.cfg.dispatch t with
    | some n =>
      let data := (zeroFrame s.cfg n).data s.cfg
      placeType s t (data ++ LE16 (s.cfg.crcInbound (frameHeader s.cfg n data.length) data)) data.length
    | none =>
      match decodeControl t with
      | some _ => { s with ctl := .waitSoh, cmd := none, rxq := [t], env := [] }
      | none => placeType s t [] 0
  else { s with cfg := { s.cfg with version := 0 }, ctl := .announce, cmd := none, rxq := [], env := [] }

end Sys2Proof.Machine
end

