-- ==== Sys2Proof/Machine/HostProc.lean ====
section
/-! DEFINITION. The host-side procedures the spec gives over the block's commands (30_encoding.md R118): one exchange `CMD`, the
handshake `HELLO`, the guarded OTP write (44_otp_safety.md R270-R281) and the chunked write (70_reset_and_hazards.md R351). They
are no operation of the block and no part of `step`: each says what the host sends next, and runs it against `step` (logs 23,
29). -/

namespace Sys2Proof.Machine

/-! ## The host beside the block -/

/-- The run of a host procedure: an answer, or the reason why a step stopped. -/
abbrev HostRun (α : Type) := Host.Outcome α Fault Refusal

/-- A run that goes on with the answer of another. -/
def andThen {α β : Type} (r : HostRun α) (k : α → HostRun β) : HostRun β :=
  match r with
  | .next a => k a
  | .fault e => .fault e
  | .refused e => .refused e

/-- How long the host waits, one entry a step, and what else occurs in the environment at each (log 29). -/
abbrev Schedule := List (List EnvEvent)

/-- The host's bytes, sent at the rate of the block (R350), then the other events `es`. -/
def State.deliver (s : State) (bytes : List Byte) (es : List EnvEvent) : State :=
  s.setEnv (s.env ++ bytes.map (fun b => .host b s.baud []) ++ es)

/-- The bytes the block has sent from the `k`-th on. -/
def State.received (s : State) (k : Nat) : List Byte := (s.txl.drop k).map Prod.fst

/-! ## The handshake -/

/-- The host's reading of an announcement: an agent is running when its version is not zero (R82, R334). -/
def agentDetected (cfg : Config) (bytes : List Byte) : Bool :=
  match decode cfg .announcement bytes with
  | .ok (.announce v) => v != 0
  | _ => false

/-- `HELLO`: await an announcement among the bytes from the `k`-th on, and send `SOH` (R83, R118). It is also the re-handshake of
R340: the host sends nothing until the engine announces. The answer is false where the host stops waiting before. -/
def hello (sched : Schedule) (k : Nat) (s : State) : HostRun (Bool × State) :=
  let new := s.received k
  if agentDetected s.cfg (new.drop (new.length - 4)) then .next (true, s.deliver [SOH] [])
  else match sched with
    | [] => .next (false, s)
    | es :: sched => andThen (step (s.deliver [] es)) (hello sched k)

/-! ## One exchange -/

/-- How an exchange ended: with response data, or aborted (R118). -/
inductive Reply where
  | data (bytes : List Byte)
  | aborted (reason : Abort)
  deriving DecidableEq, Repr

/-- The row of R89 whose bytes the host awaits. -/
inductive HostWait where
  | headerAck                     -- row 3
  | dataAck                       -- row 5
  | crcAck                        -- row 7
  | execAck                       -- row 8
  | rspLen                        -- row 9
  | rspData (len : Nat)           -- row 11
  | rspCrcAck (bytes : List Byte) -- row 13
  | noData                        -- the end, after row 10 with RLEN = 0
  deriving DecidableEq, Repr

/-- What the host does with the bytes it has received: read on; read `taken` of them, send `bytes` and await `next`; or take the
exchange as ended. -/
inductive HostMove where
  | wait
  | send (bytes : List Byte) (taken : Nat) (next : HostWait)
  | done (r : Reply)
  deriving DecidableEq, Repr

/-- Why the block answers a frame's header with `NAK` (R85, 41_framing_fsm.md R146-R148). -/
def headerReason (cfg : Config) (fr : Frame) : Abort :=
  match cfg.dispatch (cfg.cmdCode fr.fields.command) with
  | none => .unknownCmd
  | some n => if (fr.data cfg).length % 2 ^ 16 < cfg.hdrSize n then .lenShort else .initFail

/-- Why the block answers a frame's data phase with `NAK` (41_framing_fsm.md R149, R150). -/
def dataReason (cfg : Config) (fr : Frame) : Abort :=
  if (handlerOf fr.fields.command).header cfg (fr.fields.map (classify cfg)) fr.payload.length then .dataFail else .headerFail

/-- A row that the block answers with `ACK` or `NAK`: the move on `ACK`; on `NAK` the abort of the row; any other byte is one of
an announcement, so the engine has left the command (R350; log 29). -/
def onAnswer (new : List Byte) (ack : HostMove) (reason : Abort) : HostMove :=
  match new with
  | [] => .wait
  | b :: _ => if b = ACK then ack else .done (.aborted (if b = NAK then reason else .timeout))

/-- The host's move on `new`, the bytes received and not read yet: rows 3-13 of R89, with `ACK` at row 10 and the correct CRCs
(R118). -/
def hostMove (cfg : Config) (fr : Frame) (w : HostWait) (new : List Byte) : HostMove :=
  let data := fr.data cfg
  match w with
  | .headerAck => onAnswer new (.send data 1 .dataAck) (headerReason cfg fr)
  | .dataAck =>
    let crc := cfg.crcInbound (frameHeader cfg fr.fields.command data.length) data
    onAnswer new (.send (LE16 crc) 1 .crcAck) (dataReason cfg fr)
  | .crcAck => onAnswer new (.send [] 1 .execAck) .crcIn
  | .execAck => onAnswer new (if fr.fields.command.hasResponse then .send [] 1 .rspLen else .done (.data [])) .execFail
  | .rspLen =>
    match new with
    | lo :: hi :: _ => .send [ACK] 2 (if joinLE lo hi = 0 then .noData else .rspData (joinLE lo hi).toNat)
    | _ => .wait
  | .rspData len =>
    if len ≤ new.length then .send (LE16 (crc cfg.crcPoly cfg.crcSeed (new.take len))) len (.rspCrcAck (new.take len))
    else .wait
  | .rspCrcAck bytes => onAnswer new (.done (.data bytes)) .crcOut
  | .noData => .done (.data [])

/-- The exchange from a row on, with the bytes from the `k`-th on not read yet. An aborted one ends at once, a successful one when
the block has ended the command (R350); a host that stops waiting takes the exchange as timed out (R340; log 29). -/
def exchange (fr : Frame) : Schedule → HostWait → Nat → State → HostRun (Reply × State)
  | [], w, k, s => .next (match hostMove s.cfg fr w (s.received k) with | .done r => r | _ => .aborted .timeout, s)
  | es :: sched, w, k, s =>
    match hostMove s.cfg fr w (s.received k), s.cmd with
    | .done (.aborted r), _ => .next (.aborted r, s)
    | .done (.data bytes), none => .next (.data bytes, s)
    | .done (.data _), some _ | .wait, _ => andThen (step (s.deliver [] es)) (exchange fr sched w k)
    | .send bytes taken next, _ => andThen (step (s.deliver bytes es)) (exchange fr sched next (k + taken))

/-- `CMD` (R118): the full exchange of one frame, rows 1-13 of R89; after a `HELLO` its `SOH` has been sent already. -/
def runCmd (greeted : Bool) (fr : Frame) (sched : Schedule) (s : State) : HostRun (Reply × State) :=
  let hdr := frameHeader s.cfg fr.fields.command (fr.data s.cfg).length
  exchange fr sched .headerAck s.txl.length (s.deliver (if greeted then hdr.tail else hdr) [])

/-! ## The guarded OTP write -/

/-- `E`, the erased value of a cell (R270). -/
def erasedCell (cfg : Config) : Nat := 2 ^ (8 * cfg.w8) - 1

/-- A sequence of cells as wire bytes, each least-significant byte first (20_memory.md R69). -/
def cellBytes (cfg : Config) (cells : List Nat) : List Byte := cells.flatMap (leBytes cfg.w8)

/-- `k` cells read back from wire bytes (R276). -/
def cellsOf (cfg : Config) (k : Nat) (bytes : List Byte) : List Nat :=
  (List.range k).map (fun i => leNat (slice bytes (i * cfg.w8) cfg.w8))

/-- The OTP pre-write classes (R271). -/
inductive OtpClass where
  | same | notEmpty | empty
  deriving DecidableEq, Repr

/-- `otp_classify(cur, tgt)`, per cell (R271). -/
def otpClassify (cfg : Config) (cur tgt : List Nat) : OtpClass :=
  if cur = tgt then .same
  else if (List.zipWith (fun c t => c != t && c != erasedCell cfg) cur tgt).any id then .notEmpty
  else .empty

/-- `otp_verify(r, tgt, wildcard)` (R273). -/
def otpVerify (cfg : Config) (r tgt : List Nat) (wildcard : Bool) : Bool :=
  (List.zipWith (fun x t => (wildcard && (t == 0 || t == erasedCell cfg)) || x == t) r tgt).all id

/-- The outcomes of `OTP_SAFE_WRITE` (R274). -/
inductive OtpOutcome where
  | same | notEmpty | ok | verifyMismatch | argError
  | protoError (cmd : Command) (reason : Abort)
  deriving DecidableEq, Repr

/-- Which exchange of the procedure is under way (R276). -/
inductive OtpStage where
  | readFirst | write | readBack
  deriving DecidableEq, Repr

/-- What the host does next: one more exchange, or the end. -/
inductive OtpMove where
  | send (fr : Frame) (next : OtpStage)
  | done (o : OtpOutcome)
  deriving DecidableEq, Repr

/-- The arguments `OTP_SAFE_WRITE` rejects before any transport activity (R275). -/
def otpArgError (cfg : Config) (w k : Nat) : Bool :=
  decide (k = 0) || decide (cfg.otpWords < w + k) || decide (cfg.pldMax < k * cfg.w8)
    || decide (65535 < k * cfg.w8 + cfg.hdrSize .writeOtp)

/-- `CMD READ_OTP(cell=w, count=k)`. The cell field is a u32: where `OTP_WORDS` lets R275 accept a cell past 2^32, the field holds
`w` modulo 2^32 (the model's choice, log 28). -/
def otpReadFrame (w k : Nat) : Frame := ⟨.readOtp (BitVec.ofNat 32 w) (BitVec.ofNat 16 k), []⟩

/-- `CMD WRITE_OTP(cell=w, payload=...)`; a cell past 2^32 as in `otpReadFrame` (the model's choice, log 28). -/
def otpWriteFrame (cfg : Config) (w : Nat) (tgt : List Nat) : Frame :=
  ⟨.writeOtp (BitVec.ofNat 32 w), cellBytes cfg tgt⟩

/-- The first move of `OTP_SAFE_WRITE` (R275, R276). -/
def otpStart (cfg : Config) (w : Nat) (tgt : List Nat) : OtpMove :=
  if otpArgError cfg w tgt.length then .done .argError else .send (otpReadFrame w tgt.length) .readFirst

/-- The move after an exchange (R276); no retry. -/
def otpNext (cfg : Config) (w : Nat) (tgt : List Nat) (wildcard : Bool) (stage : OtpStage) (reply : Reply) : OtpMove :=
  match stage, reply with
  | .readFirst, .aborted r => .done (.protoError .readOtp r)
  | .readFirst, .data bytes =>
    match otpClassify cfg (cellsOf cfg tgt.length bytes) tgt with
    | .same => .done .same
    | .notEmpty => .done .notEmpty
    | .empty => .send (otpWriteFrame cfg w tgt) .write
  | .write, .aborted r => .done (.protoError .writeOtp r)
  | .write, .data _ => .send (otpReadFrame w tgt.length) .readBack
  | .readBack, .aborted r => .done (.protoError .readOtp r)
  | .readBack, .data bytes =>
    if otpVerify cfg (cellsOf cfg tgt.length bytes) tgt wildcard then .done .ok else .done .verifyMismatch

/-- `OTP_SAFE_WRITE` run against the block from a move on, one schedule an exchange; `greeted` where the `SOH` of the next frame
has been sent (R118). Where the schedules end first, the answer is the move still to make (R276; log 29). -/
def otpRun (w : Nat) (tgt : List Nat) (wildcard : Bool) :
    List Schedule → Bool → OtpMove → State → HostRun (OtpMove × State)
  | _, _, .done o, s => .next (.done o, s)
  | [], _, .send fr stage, s => .next (.send fr stage, s)
  | sched :: scheds, greeted, .send fr stage, s =>
    andThen (runCmd greeted fr sched s) fun (reply, t) =>
      otpRun w tgt wildcard scheds false (otpNext s.cfg w tgt wildcard stage reply) t

/-- `OTP_SAFE_WRITE` (R276): argument check, then at most three exchanges; right after a `HELLO` the first of them omits its `SOH`
(R118). -/
def otpSafeWrite (greeted : Bool) (w : Nat) (tgt : List Nat) (wildcard : Bool) (scheds : List Schedule) (s : State) :
    HostRun (OtpMove × State) :=
  otpRun w tgt wildcard scheds greeted (otpStart s.cfg w tgt) s

/-! ## The chunked write -/

/-- The destinations of `CHUNKED_WRITE` (R351; log 30). -/
inductive ChunkKind where
  | ram
  | flash (verify : Byte)
  deriving DecidableEq, Repr

/-- The write command for a kind: WRITE_RAM for RAM, DIRECT_WRITE_FLASH for flash (log 30). An address past 2^32 enters its u32
field modulo 2^32 (the model's choice, log 28). -/
def ChunkKind.frame (kind : ChunkKind) (a : Nat) (bytes : List Byte) : Frame :=
  match kind with
  | .ram => ⟨.writeRam (BitVec.ofNat 32 a), bytes⟩
  | .flash verify => ⟨.directWriteFlash (BitVec.ofNat 32 a) verify, bytes⟩

/-- Whether a kind is flash. -/
def ChunkKind.isFlash : ChunkKind → Bool
  | .ram => false
  | .flash _ => true

/-- The arguments of `CHUNKED_WRITE`: destination, data, the chunk size `C` and the retry count `R` (R351). -/
structure ChunkedWrite where
  kind : ChunkKind
  addr : Nat
  data : List Byte
  size : Nat
  retries : Nat
  deriving DecidableEq, Repr

/-- `1 ≤ C ≤ PLD_MAX` (R351). -/
def ChunkedWrite.wf (cfg : Config) (p : ChunkedWrite) : Bool := decide (1 ≤ p.size) && decide (p.size ≤ cfg.pldMax)

/-- `k` at offset `off`: at most the chunk size, and for flash never across a sector boundary (R351). -/
def chunkedLen (cfg : Config) (p : ChunkedWrite) (off : Nat) : Nat :=
  let k := min p.size (p.data.length - off)
  if p.kind.isFlash then min k (sectorOf cfg (p.addr + off) + cfg.sectorSize - (p.addr + off)) else k

/-- Where the chunked write stands: the offset reached and the failures of the current chunk (R351). -/
structure ChunkState where
  off : Nat
  tries : Nat
  deriving DecidableEq, Repr

/-- What the host does next (R351). -/
inductive ChunkMove where
  | send (fr : Frame)
  | reHandshake
  | done
  | failed (off address : Nat)
  deriving DecidableEq, Repr

/-- What came of the last move (R351). -/
inductive ChunkReply where
  | success
  | failure
  | greeted
  deriving DecidableEq, Repr

/-- The write of the chunk at the offset reached, or the end (R351). -/
def chunkedMove (cfg : Config) (p : ChunkedWrite) (st : ChunkState) : ChunkMove :=
  if st.off < p.data.length then
    .send (p.kind.frame (p.addr + st.off) (slice p.data st.off (chunkedLen cfg p st.off)))
  else .done

/-- The start of the chunked write; none for a chunk size R351 does not admit. -/
def chunkedStart (cfg : Config) (p : ChunkedWrite) : Option (ChunkState × ChunkMove) :=
  if p.wf cfg then some (⟨0, 0⟩, chunkedMove cfg p ⟨0, 0⟩) else none

/-- The next move (R351): after a success the next chunk; after a failure a re-handshake, or the end once the chunk has failed
more than `R` times; after the re-handshake the same chunk again. -/
def chunkedNext (cfg : Config) (p : ChunkedWrite) (reply : ChunkReply) (st : ChunkState) : ChunkState × ChunkMove :=
  match reply with
  | .success =>
    let st' : ChunkState := ⟨st.off + chunkedLen cfg p st.off, 0⟩
    (st', chunkedMove cfg p st')
  | .failure =>
    let st' : ChunkState := ⟨st.off, st.tries + 1⟩
    (st', if p.retries < st'.tries then .failed st.off (p.addr + st.off) else .reHandshake)
  | .greeted => (st, chunkedMove cfg p st)

/-- `CHUNKED_WRITE` run against the block from a move on, one schedule an exchange or re-handshake (R340); `greeted` where the
`SOH` of the next frame has been sent. A re-handshake that gets no announcement goes on waiting. Where the schedules end first,
the answer is the move still to make (R351; log 29). -/
def chunkedRun (p : ChunkedWrite) : List Schedule → Bool → ChunkState × ChunkMove → State → HostRun (ChunkMove × State)
  | [], _, (_, m), s => .next (m, s)
  | sched :: scheds, greeted, (st, m), s =>
    match m with
    | .send fr =>
      andThen (runCmd greeted fr sched s) fun (reply, t) =>
        let came : ChunkReply := match reply with | .data _ => .success | .aborted _ => .failure
        chunkedRun p scheds false (chunkedNext s.cfg p came st) t
    | .reHandshake =>
      andThen (hello sched s.txl.length s) fun (heard, t) =>
        chunkedRun p scheds heard (if heard then chunkedNext s.cfg p .greeted st else (st, m)) t
    | .done | .failed _ _ => .next (m, s)

/-- `CHUNKED_WRITE` (R351), right after a `HELLO` or not (R118); none for a chunk size R351 does not admit. -/
def chunkedWrite (greeted : Bool) (p : ChunkedWrite) (scheds : List Schedule) (s : State) :
    Option (HostRun (ChunkMove × State)) :=
  (chunkedStart s.cfg p).map (fun start => chunkedRun p scheds greeted start s)

end Sys2Proof.Machine
end

