-- ==== Sys2Proof/WellFormed.lean ====
section
/-! DEFINITION. Well-formed configurations (00_scope.md R8), instructions and frames (30_encoding.md R92, R102, R103). -/

namespace Sys2Proof

/-- Two header fields at (position, width) share no byte. -/
def placesApart (x y : Nat × Nat) : Bool := decide (x.1 + x.2 ≤ y.1) || decide (y.1 + y.2 ≤ x.1)

/-- A row of the dispatch table: `HDR_SIZE` in 0..65535, a position for every field of R92, each field inside the header and
no two sharing a byte (R92, R95). -/
def CmdRow.wf (r : CmdRow) : Bool :=
  decide (r.hdrSize ≤ 65535) && decide (r.layout.length = r.name.fieldWidths.length)
    && (r.layout.zip r.name.fieldWidths).all (fun pw => decide (pw.1 + pw.2 ≤ r.hdrSize))
    && decide ((r.layout.zip r.name.fieldWidths).Pairwise (fun x y => placesApart x y = true))

/-- A partition-table entry: a name of at most 254 bytes, none of them 0x00 (R98). -/
def PartEntry.wf (e : PartEntry) : Bool := decide (e.name.length ≤ 254) && e.name.all (fun b => b != 0)

/-- A RAM region `[lo, hi)` with `0 ≤ lo < hi ≤ 2^32` (20_memory.md R50). -/
def Region.wf (r : Region) : Bool := decide (r.lo < r.hi) && decide (r.hi ≤ 2 ^ 32)

/-- Two regions share no address (R8). -/
def Region.apart (x y : Region) : Bool := decide (x.hi ≤ y.lo) || decide (y.hi ≤ x.lo)

/-- The constraints R8, R50, R91, R92 and R98 put on `CFG`. -/
structure Config.WF (cfg : Config) : Prop where
  /-- Every command has one row (R90, R91). -/
  names : (cfg.table.map CmdRow.name).Nodup
  complete : ∀ n ∈ Command.all, n ∈ cfg.table.map CmdRow.name
  /-- `CMD_CODE` is injective (R8, R91). -/
  codes : (cfg.table.map CmdRow.code).Nodup
  rows : ∀ r ∈ cfg.table, r.wf = true
  /-- The one code and the one header size the source gives (R91, R92). -/
  getVersionCode : cfg.cmdCode .getVersion = 0x0B
  getVersionSize : cfg.hdrSize .getVersion = 0
  versionNonzero : cfg.version ≠ 0
  versionString : 1 ≤ cfg.versionString.length ∧ cfg.versionString.length ≤ 65535
  versionAscii : ∀ b ∈ cfg.versionString, b.toNat < 128
  window : cfg.vwBase &&& ~~~cfg.vwMask = 0
  bufSize : 1 ≤ cfg.bufSize ∧ cfg.bufSize ≤ 2 ^ 32
  pldMax : cfg.pldMax ≤ 65535
  regions : ∀ r ∈ cfg.ramRegions, r.wf = true
  regionsApart : cfg.ramRegions.Pairwise (fun x y => x.apart y = true)
  sectorSize : 1 ≤ cfg.sectorSize
  flashSize : cfg.flashSize % cfg.sectorSize = 0
  otpWords : 1 ≤ cfg.otpWords
  ptable : ∀ e ∈ cfg.ptable, e.wf = true
  ptableIds : (cfg.ptable.map PartEntry.typ).Nodup
  ptableSize : (encodeTable cfg.ptable).length ≤ 65535
  productInfo : cfg.productInfo.length ≤ 65535
  baudInit : cfg.baudInit ∈ cfg.supportedBauds

/-- An instruction of the opcode table is well formed: a command has a row in the dispatch table; an announcement carries a
nonzero version, as every agent's does (R82, R8); an unassigned code has no dispatch entry (R102). -/
def Instr.wf (cfg : Config) (i : Instr) : Bool :=
  match i with
  | .announce v => v != 0
  | .unassigned t => (cfg.dispatch t).isNone
  | i => match i.command? with
    | some n => (cfg.row n).isSome
    | none => true

/-- A frame the block carries past `Init`: a payload of the command's kind (R92), of at most `PLD_MAX` bytes, and a data
phase the 16-bit length field can count (R103). -/
def Frame.wf (cfg : Config) (fr : Frame) : Bool :=
  (cfg.row fr.fields.command).isSome && cfg.payloadOk fr.fields.command fr.payload.length
    && decide (fr.payload.length ≤ cfg.pldMax)
    && decide (cfg.hdrSize fr.fields.command + fr.payload.length ≤ 65535)

end Sys2Proof
end

