-- ==== Sys2Proof/Safety.lean ====
section
/-! DEFINITION. What a good state and a safe step are: the terms the statements use. -/

namespace Sys2Proof.Machine

/-- The run has ended (70_reset_and_hazards.md R345). -/
def State.ended (s : State) : Bool :=
  (s.ctl == .jumped) || (s.rxq.isEmpty && s.cmd.isNone && (s.ctl == .waitSoh || s.ctl == .announce))

/-- The states in which the block holds an in-flight record (10_state.md R22). -/
def Ctl.inCommand : Ctl → Bool
  | .announce | .waitSoh | .jumped => false
  | .typ | .lenLo | .lenHi | .hdr | .pld | .crcLo | .crcHi | .exec | .rspAck | .rspCrcLo | .rspCrcHi => true

/-- A step that completes. -/
def Res.isNext (r : Res) : Prop := ∃ t, r = .next t

/-- All four storage spaces are in canonical form. -/
structure State.MemWF (s : State) : Prop where
  ram : Memory.wf Space.ram.blank s.ram
  buf : Memory.wf Space.buf.blank s.buf
  flash : Memory.wf Space.flash.blank s.flash
  otp : Memory.wf Space.otp.blank s.otp

/-- No entry lies outside its space (20_memory.md R50). -/
structure State.InSpace (s : State) : Prop where
  ram : ∀ c ∈ s.ram, ramRangeOk s.cfg c.1 1 = true
  buf : ∀ c ∈ s.buf, c.1 < s.cfg.bufSize
  flash : ∀ c ∈ s.flash, c.1 < s.cfg.flashSize
  otp : ∀ c ∈ s.otp, c.1 < s.cfg.otpWords * s.cfg.w8

/-- The preconditions under which the primitive at the head of `cmd.xq`, and all it puts in front of the queue, stay inside
the storage (20_memory.md R61-R66, 43_flash_safety.md R240, R247). -/
def ExecOp.ok (cfg : Config) : ExecOp → Bool
  | .write t v => valid cfg t v.length
  | .copy src n dst => valid cfg src n && flashFits cfg dst n
  | .chunk a data => flashFits cfg a data.length
  | .sector ca cd => flashFits cfg ca cd.length && decide (0 < cd.length)
      && decide (ca - sectorOf cfg ca + cd.length ≤ cfg.sectorSize)
  | .flashWrite a v => flashFits cfg a v.length
  | .erase s0 => decide (s0 % cfg.sectorSize = 0) && flashFits cfg s0 cfg.sectorSize
  | .chipErase => true
  | .program w v => otpFits cfg w 1 && decide (v.length = cfg.w8)
  | .verify a data => flashFits cfg a data.length
  | .setBaud b => baudSupported cfg b
  | .gpio _ => true
  | .check _ _ => true

/-- The record of a command whose frame header passed the lookup, the length check and `Init` (R146-R148). -/
def Cmd.Accepted (cfg : Config) (c : Cmd) (n : Command) (pl : Nat) : Prop :=
  c.name = some n ∧ c.hs = some (cfg.hdrSize n) ∧ c.pl = some (pl : Int) ∧ pl ≤ cfg.pldMax ∧ (handlerOf n).init cfg pl = true

/-- The record of a command whose `Header` passed: `cmd.f` holds its decoded and validated fields (R25, R149). -/
def Cmd.Validated (cfg : Config) (c : Cmd) (n : Command) (pl : Nat) : Prop :=
  c.Accepted cfg n pl ∧ ∃ f, c.f = some f ∧ f.command = n ∧ (handlerOf n).header cfg f pl = true

/-- Which fields of the record are defined, and what they hold, in each control state (R22, R23). -/
def Cmd.Shape (cfg : Config) (ctl : Ctl) (c : Cmd) : Prop :=
  match ctl with
  | .announce | .waitSoh | .jumped => False
  | .typ => True
  | .lenLo => c.typ.isSome = true
  | .lenHi => c.typ.isSome = true ∧ c.length.isSome = true
  | .hdr => ∃ n pl hdr, c.Accepted cfg n pl ∧ c.hdr = some hdr ∧ hdr.length < cfg.hdrSize n ∧ c.pld = some []
  | .pld => ∃ n pl pld, c.Validated cfg n pl ∧ c.pld = some pld ∧ pld.length < pl
  | .crcLo => ∃ n pl pld, c.Validated cfg n pl ∧ c.pld = some pld ∧ pld.length = pl
  | .crcHi => ∃ n pl pld, c.Validated cfg n pl ∧ c.pld = some pld ∧ pld.length = pl ∧ c.rcrcLo.isSome = true
  | .exec => ∃ n pl xq, c.Validated cfg n pl ∧ c.xq = some xq ∧ ∀ op ∈ xq, op.ok cfg = true
  | .rspAck => ∃ n pl, c.Validated cfg n pl ∧ c.rspLen.isSome = true ∧ c.q.isSome = true
  | .rspCrcLo => ∃ n pl, c.Validated cfg n pl ∧ c.rsp.isSome = true
  | .rspCrcHi => ∃ n pl, c.Validated cfg n pl ∧ c.rsp.isSome = true ∧ c.rcrcLo.isSome = true

/-- The record and the control state fit: a record exactly in the states of R22, with the fields its state needs, and a
pending baud rate that CHANGE_BAUD's `Header` accepted. -/
def State.CmdWF (s : State) : Prop :=
  match s.cmd with
  | none => s.ctl.inCommand = false
  | some c => c.Shape s.cfg s.ctl ∧ ∀ b, c.newBaud = some b → b ∈ s.cfg.supportedBauds

/-- The invariant of the block. -/
structure State.Inv (s : State) : Prop where
  cfg : s.cfg.WF
  mem : s.MemWF
  space : s.InSpace
  cmd : s.CmdWF
  baud : s.baud ∈ s.cfg.supportedBauds

/-! ## Terms of the statements -/

/-- One byte of RAM. -/
def State.ramByte (s : State) (a : Nat) : Byte := Memory.read Space.ram.blank s.ram a

/-- One byte of BUF. -/
def State.bufByte (s : State) (o : Nat) : Byte := Memory.read Space.buf.blank s.buf o

/-- One byte of FLASH. -/
def State.flashByte (s : State) (a : Nat) : Byte := Memory.read Space.flash.blank s.flash a

/-- One byte of OTP: byte `x` is byte `x % (W/8)` of cell `x / (W/8)`, least-significant first (20_memory.md R69; log 7). -/
def State.otpByte (s : State) (x : Nat) : Byte := Memory.read Space.otp.blank s.otp x

/-- The block is in `S_EXEC` on command `n`, with record `c`, decoded fields `f` and the pending work `xq` (10_state.md R22,
R28). -/
structure State.Executing (s : State) (c : Cmd) (n : Command) (f : HdrFields Tagged) (xq : List ExecOp) : Prop where
  ctl : s.ctl = .exec
  cmd : s.cmd = some c
  name : c.name = some n
  fields : c.f = some f
  queue : c.xq = some xq

/-- The block waits for a byte of command `n` at control state `ctl`, with record `c` and `b` the byte at the head of `RXQ`
(10_state.md R21, R22). -/
structure State.Waiting (s : State) (ctl : Ctl) (c : Cmd) (n : Command) (b : Byte) (r : List Byte) : Prop where
  ctl : s.ctl = ctl
  cmd : s.cmd = some c
  name : c.name = some n
  rx : s.rxq = b :: r

/-- The bytes `bs` sent at the current rate (10_state.md R35). -/
def State.sent (s : State) (bs : List Byte) : List (Byte × U32) := bs.map (fun b => (b, s.baud))

/-- What a command that answers `bs` after logging `reads` leaves (41_framing_fsm.md R158). -/
def State.answered (s : State) (c : Cmd) (r : List Byte) (reads : List Event) (bs : List Byte) : State :=
  { s with
    rxq := r, evl := s.evl ++ reads, txl := s.txl ++ s.sent bs, ctl := .rspCrcLo
    cmd := some { c with rsp := some bs, crc := crc s.cfg.crcPoly s.cfg.crcSeed bs } }

/-- The state in which an abort that sends `NAK` leaves the block, the bytes `r` still waiting (60_exceptions.md R301). -/
def State.nakked (s : State) (r : List Byte) : State :=
  { s with rxq := r, ctl := .waitSoh, cmd := none, txl := s.txl ++ s.sent [NAK] }

/-- `k` runs of the meaning of `i`. -/
def execTimes (i : Instr) : Nat → State → Res
  | 0, s => .next s
  | k + 1, s => match exec i s with
    | .next t => execTimes i k t
    | .fault r => .fault r
    | .refused r => .refused r

/-- `k` steps. -/
def stepTimes : Nat → State → Res
  | 0, s => .next s
  | k + 1, s => match step s with
    | .next t => stepTimes k t
    | .fault r => .fault r
    | .refused r => .refused r

/-- The sector base an erase event names. -/
def Event.erased : Event → Option Nat
  | .erase s0 => some s0
  | .read _ _ _ | .write _ _ _ | .chipErase | .programOtp _ | .jump _ | .gpioWd _ => none

/-- Whether an event is a read. -/
def Event.isRead : Event → Bool
  | .read _ _ _ => true
  | .write _ _ _ | .erase _ | .chipErase | .programOtp _ | .jump _ | .gpioWd _ => false

/-- Whether an event of the environment is a RESET. -/
def EnvEvent.isReset : EnvEvent → Bool
  | .reset _ _ | .resetCut _ _ _ => true
  | .go | .host _ _ _ | .timeout | .announce => false

/-- Whether the next step is a RESET. -/
def State.resetNext (s : State) : Bool := s.env.head?.any EnvEvent.isReset

end Sys2Proof.Machine
end

