-- ==== Sys2Proof/Certificates/Slice0/Obligations.lean ====
section
/-! DEFINITION. The statements for the provers. Each docstring names the rules of spec/ it comes from. -/

open Sys2Proof Sys2Proof.Machine

/-! ## Encoding -/

/-- Every frame a configuration admits is read back from its own bytes, with every header field at every value and every
payload (30_encoding.md R84, R86, R94, R95, R117). That a header byte no field covers is sent as 0 is the model's choice (log 32);
no field reads it back. -/
def Obligations.FrameRoundTrip : Prop :=
  ∀ (cfg : Config) (fr : Frame), cfg.WF → fr.wf cfg = true → decodeFrame cfg (encodeFrame cfg fr) = .ok fr

/-- The decoder drops no bit: whatever bytes it reads as an instruction are that instruction's own bytes, at its own
position (30_encoding.md R80, R81, R82, R91, R102). -/
def Obligations.DecodedBytesReencode : Prop :=
  ∀ (cfg : Config) (pos : Pos) (bytes : List Byte) (i : Instr), cfg.WF → decode cfg pos bytes = .ok i →
    i.pos = pos ∧ encode cfg i = bytes

/-- Words written out from the spec decode to the instructions they stand for, under TC0 (30_encoding.md R80-R82, R91, R92,
R102). -/
def Obligations.WordsDecodeAsWritten : Prop :=
  decode Config.tc0 .commandType [0x0B] = .ok .getVersion ∧ decode Config.tc0 .commandType [0x01] = .ok .writeRam ∧
    decode Config.tc0 .commandType [0x7F] = .ok (.unassigned 0x7F) ∧ decode Config.tc0 .control [0x01] = .ok .soh ∧
    decode Config.tc0 .control [0x15] = .ok .nak ∧
    decode Config.tc0 .announcement [0x02, 0x01, 0x00, 0x04] = .ok (.announce 4)

/-- ANNOUNCE: in `S_ANNOUNCE` it sends `STX, SOH, VER_HI, VER_LO`, the version's high byte first, and changes nothing else; a
host reads the same version back from these four bytes (30_encoding.md R82, 41_framing_fsm.md R143). -/
def Obligations.AnnouncementHighByteFirst : Prop :=
  ∀ (s : State) (v : U16), s.ctl = .announce →
    exec (.announce v) s = .next { s with txl := s.txl ++
      [(0x02, s.baud), (0x01, s.baud), (BitVec.ofNat 8 (v.toNat / 256), s.baud), (BitVec.ofNat 8 v.toNat, s.baud)] } ∧
    decode s.cfg .announcement [0x02, 0x01, BitVec.ofNat 8 (v.toNat / 256), BitVec.ofNat 8 v.toNat] = .ok (.announce v)

/-! ## CRC -/

/-- The table-driven form of the CRC step equals the bitwise form, for every generator, value and byte; the first and last
entries of the table for 0x1021 are those the spec lists (40_crc.md R122). -/
def Obligations.CrcTableForm : Prop :=
  (∀ (poly c : U16) (b : Byte), crcUpdateByTable poly c b = crcUpdate poly c b) ∧
    (List.range 32).map (fun i => crcTable 0x1021 (BitVec.ofNat 8 i)) =
      [0x0000, 0x1021, 0x2042, 0x3063, 0x4084, 0x50A5, 0x60C6, 0x70E7, 0x8108, 0x9129, 0xA14A, 0xB16B, 0xC18C, 0xD1AD, 0xE1CE,
       0xF1EF, 0x1231, 0x0210, 0x3273, 0x2252, 0x52B5, 0x4294, 0x72F7, 0x62D6, 0x9339, 0x8318, 0xB37B, 0xA35A, 0xD3BD, 0xC39C,
       0xF3FF, 0xE3DE] ∧
    (List.range 16).map (fun i => crcTable 0x1021 (BitVec.ofNat 8 (0xF0 + i))) =
      [0xEF1F, 0xFF3E, 0xCF5D, 0xDF7C, 0xAF9B, 0xBFBA, 0x8FD9, 0x9FF8, 0x6E17, 0x7E36, 0x4E55, 0x5E74, 0x2E93, 0x3EB2, 0x0ED1,
       0x1EF0]

/-- The spec's check values (40_crc.md R132): "123456789" and "0.0.0.4", from both seeds. -/
def Obligations.CrcCheckValues : Prop :=
  crc 0x1021 0xFFFF [0x31, 0x32, 0x33, 0x34, 0x35, 0x36, 0x37, 0x38, 0x39] = 0x29B1 ∧
    crc 0x1021 0x0000 [0x31, 0x32, 0x33, 0x34, 0x35, 0x36, 0x37, 0x38, 0x39] = 0x31C3 ∧
    crc 0x1021 0xFFFF [0x30, 0x2E, 0x30, 0x2E, 0x30, 0x2E, 0x34] = 0x1289 ∧
    crc 0x1021 0x0000 [0x30, 0x2E, 0x30, 0x2E, 0x30, 0x2E, 0x34] = 0xE347

/-- Two messages that differ in one byte have different CRCs, from every seed and for every generator with its constant term
(40_crc.md R120, R121; 95_test_vectors.md V-CRC, "a single bit flipped anywhere in a message changes its CRC"). -/
def Obligations.CrcDetectsOneByteChange : Prop :=
  ∀ (poly seed : U16) (m₁ m₂ : List Byte) (b b' : Byte), poly.getLsbD 0 = true → b ≠ b' →
    crc poly seed (m₁ ++ b :: m₂) ≠ crc poly seed (m₁ ++ b' :: m₂)

/-! ## Addresses and the in-place predicate -/

/-- A RAM-side address: the sentinel first, then the window, else a concrete address (20_memory.md R52). -/
def Obligations.ClassifyRamSideAddress : Prop :=
  ∀ (cfg : Config) (a : U32),
    (a = cfg.addrBuf → classify cfg a = .scratch 0) ∧
    (a ≠ cfg.addrBuf → a &&& cfg.vwMask = cfg.vwBase → classify cfg a = .scratch (a &&& ~~~cfg.vwMask).toNat) ∧
    (a ≠ cfg.addrBuf → a &&& cfg.vwMask ≠ cfg.vwBase → classify cfg a = .concrete a.toNat)

/-- What the `Header` stage of each command with a range or a rate to check accepts: RAM-side ranges, flash ranges, OTP
cells, partition ranges, supported rates (20_memory.md R51, R53-R56; 42_commands.md R192-R208). That a flash, OTP or partition
range also ends at most at 2^32 is the model's reading of R51 beside R54-R56 (log 20). -/
def Obligations.HeaderRangeChecks : Prop :=
  ∀ (cfg : Config) (pl : Nat), cfg.WF →
    (∀ o, (handlerOf .writeRam).header cfg (.writeRam (.scratch o)) pl = true ↔ o + pl ≤ cfg.bufSize) ∧
    (∀ a, (handlerOf .writeRam).header cfg (.writeRam (.concrete a)) pl = true ↔
      ∃ r ∈ cfg.ramRegions, r.lo ≤ a ∧ a + pl ≤ r.hi) ∧
    (∀ o (len : U16), (handlerOf .readRam).header cfg (.readRam (.scratch o) len) pl = true ↔ o + len.toNat ≤ cfg.bufSize) ∧
    (∀ a (len : U16), (handlerOf .readRam).header cfg (.readRam (.concrete a) len) pl = true ↔
      ∃ r ∈ cfg.ramRegions, r.lo ≤ a ∧ a + len.toNat ≤ r.hi) ∧
    (∀ o (dst len : U32), (handlerOf .copyToFlash).header cfg (.copyToFlash (.scratch o) dst len) pl = true ↔
      o + len.toNat ≤ cfg.bufSize ∧ dst.toNat + len.toNat ≤ cfg.flashSize ∧ dst.toNat + len.toNat ≤ 2 ^ 32) ∧
    (∀ a (dst len : U32), (handlerOf .copyToFlash).header cfg (.copyToFlash (.concrete a) dst len) pl = true ↔
      (∃ r ∈ cfg.ramRegions, r.lo ≤ a ∧ a + len.toNat ≤ r.hi) ∧ dst.toNat + len.toNat ≤ cfg.flashSize ∧
        dst.toNat + len.toNat ≤ 2 ^ 32) ∧
    (∀ (a len : U32), (handlerOf .eraseFlash).header cfg (.eraseFlash a len) pl = true ↔
      a.toNat + len.toNat ≤ cfg.flashSize ∧ a.toNat + len.toNat ≤ 2 ^ 32) ∧
    (∀ (a : U32) (len : U16), (handlerOf .readFlash).header cfg (.readFlash a len) pl = true ↔
      a.toNat + len.toNat ≤ cfg.flashSize ∧ a.toNat + len.toNat ≤ 2 ^ 32) ∧
    (∀ (a len : U32), (handlerOf .isEmptyFlash).header cfg (.isEmptyFlash a len) pl = true ↔
      a.toNat + len.toNat ≤ cfg.flashSize ∧ a.toNat + len.toNat ≤ 2 ^ 32) ∧
    (∀ (a : U32) (v : Byte), (handlerOf .directWriteFlash).header cfg (.directWriteFlash a v) pl = true ↔
      a.toNat + pl ≤ cfg.flashSize ∧ a.toNat + pl ≤ 2 ^ 32) ∧
    (∀ (w : U32), (handlerOf .writeOtp).header cfg (.writeOtp w) pl = true ↔
      w.toNat + pl / cfg.w8 ≤ cfg.otpWords ∧ w.toNat + pl / cfg.w8 ≤ 2 ^ 32) ∧
    (∀ (w : U32) (k : U16), (handlerOf .readOtp).header cfg (.readOtp w k) pl = true ↔
      w.toNat + k.toNat ≤ cfg.otpWords ∧ w.toNat + k.toNat ≤ 2 ^ 32 ∧ k.toNat * cfg.w8 ≤ 65535) ∧
    (∀ (id : Byte) (off : U32) (len : U16), (handlerOf .readPartition).header cfg (.readPartition id off len) pl = true ↔
      ∃ e ∈ cfg.ptable, e.typ = id ∧ off.toNat + len.toNat ≤ e.size.toNat ∧
        e.startAddress.toNat + off.toNat + len.toNat ≤ cfg.flashSize ∧
        e.startAddress.toNat + off.toNat + len.toNat ≤ 2 ^ 32) ∧
    (∀ (id : Byte) (off : U32), (handlerOf .writePartition).header cfg (.writePartition id off) pl = true ↔
      ∃ e ∈ cfg.ptable, e.typ = id ∧ off.toNat + pl ≤ e.size.toNat ∧
        e.startAddress.toNat + off.toNat + pl ≤ cfg.flashSize ∧ e.startAddress.toNat + off.toNat + pl ≤ 2 ^ 32) ∧
    (∀ (b : U32), (handlerOf .changeBaud).header cfg (.changeBaud b) pl = true ↔ b ∈ cfg.supportedBauds)

/-- The in-place predicate holds exactly when no bit of any byte would go from 0 to 1, and then programming the new bytes over
the old ones leaves the new bytes (20_memory.md R67; 43_flash_safety.md R254, in place). -/
def Obligations.UpdatePossibleClearsBitsOnly : Prop :=
  ∀ (cur new : List Byte), cur.length = new.length →
    (updatePossible cur new = true ↔ ∀ i < new.length, new.getD i 0 &&& ~~~(cur.getD i 0) = 0) ∧
    (updatePossible cur new = true → andBytes cur new = new)

/-! ## The step -/

/-- A step runs the decoded instruction: where the bytes the engine fetches decode to `i`, the step is `exec i` (with the
environment's `go`, if one is pending, taken off); so it is where the command in flight has the next event
(41_framing_fsm.md R140; 30_encoding.md R81, R91). -/
def Obligations.StepRunsDecodedInstruction : Prop :=
  ∀ (s : State) (i : Instr),
    (∀ pos bytes, fetchBytes s = some (pos, bytes) → decode s.cfg pos bytes = .ok i →
      (s.env = [] → step s = exec i s) ∧ (∀ es, s.env = .go :: es → step s = exec i (s.setEnv es))) ∧
    (fetchBytes s = none → currentCommand s = some i →
      (s.env = [] → step s = exec i s) ∧ (∀ es, s.env = .go :: es → step s = exec i (s.setEnv es)))

/-- Which instruction each control state runs: the announcement in an idle `S_ANNOUNCE`, a control byte where one is expected,
the command a type byte selects once its frame header is complete, and the command in flight from then on (41_framing_fsm.md
R140, R143, R144, R146-R159; 30_encoding.md R81, R91, R102). -/
def Obligations.StepFetchPoints : Prop :=
  ∀ (s : State), s.env = [] →
    (s.ctl = .announce → s.rxq = [] → step s = exec (.announce s.cfg.version) s) ∧
    (∀ b r i, s.ctl = .announce ∨ s.ctl = .waitSoh ∨ s.ctl = .rspAck → s.rxq = b :: r → decodeControl b = some i →
      step s = exec i s) ∧
    (∀ b r c t, s.ctl = .lenHi → s.rxq = b :: r → s.cmd = some c → c.typ = some t →
      step s = exec (match s.cfg.dispatch t with | some n => n.toInstr | none => .unassigned t) s) ∧
    (∀ c n, s.ctl = .exec → s.cmd = some c → c.name = some n → step s = exec n.toInstr s) ∧
    (∀ k c n b r, k ∈ [Ctl.hdr, .pld, .crcLo, .crcHi, .rspCrcLo, .rspCrcHi] → s.Waiting k c n b r →
      step s = exec n.toInstr s)

/-- TOTAL INPUT HANDLING: in every state that meets the invariant a step, of the engine or of the environment, gives a next
state: no fault and no refusal, whatever bytes arrive (60_exceptions.md R305; 41_framing_fsm.md R165). -/
def Obligations.StepCompletesUnderInvariant : Prop :=
  ∀ (s : State), s.Inv → ∃ t, step s = .next t

/-- Every step keeps the invariant: the configuration, the four memories in canonical form and inside their spaces, the record
exactly where R22 has one and with the fields its state needs, the rate a supported one. -/
def Obligations.StepKeepsInvariant : Prop :=
  ∀ (s t : State), s.Inv → step s = .next t → t.Inv

/-- The state after reset meets the invariant. -/
def Obligations.ResetMeetsInvariant : Prop := State.reset.Inv

/-- The four memories stay in canonical form under every step, from every state in which they are, reachable or not. -/
def Obligations.StepKeepsMemoryCanonical : Prop :=
  ∀ (s t : State), s.MemWF → step s = .next t → t.MemWF

/-- The configuration is fixed for a run: no step and no RESET changes it (10_state.md R40). -/
def Obligations.StepKeepsConfiguration : Prop :=
  ∀ (s t : State), step s = .next t → t.cfg = s.cfg

/-- Both logs are append-only, under every step and RESET, and every byte sent carries the rate in force before the step
(10_state.md R35, R36, R43). -/
def Obligations.LogsOnlyGrow : Prop :=
  ∀ (s t : State), step s = .next t →
    (∃ bs, t.txl = s.txl ++ s.sent bs) ∧ (∃ es, t.evl = s.evl ++ es)

/-- The waits at which a step sends nothing and logs nothing: both `TXL` and `EVL` stay, so no storage primitive or platform event
occurs (41_framing_fsm.md R166, R161). -/
def Obligations.SilentWaits : Prop :=
  ∀ (s t : State), s.ctl ∈ [Ctl.waitSoh, .typ, .lenLo, .crcLo, .rspCrcLo, .jumped] → step s = .next t →
    t.txl = s.txl ∧ t.evl = s.evl

/-- Outside `S_EXEC` no step but RESET changes any storage space, and every event it logs is a read: `Exec` is the only stage
that mutates storage (41_framing_fsm.md R141, R164). -/
def Obligations.StorageChangesOnlyInExec : Prop :=
  ∀ (s t : State), s.ctl ≠ .exec → s.resetNext = false → step s = .next t →
    t.ram = s.ram ∧ t.buf = s.buf ∧ t.flash = s.flash ∧ t.otp = s.otp ∧
      ∃ es, t.evl = s.evl ++ es ∧ ∀ e ∈ es, e.isRead = true

/-- GATING: the engine enters `S_EXEC` only from `S_CRC_HI`, on the byte that completes a CRC equal to its own, with the fields
`Header` left (41_framing_fsm.md R153, R164). -/
def Obligations.ExecStartsAfterCrcMatch : Prop :=
  ∀ (s t : State), step s = .next t → t.ctl = .exec → s.ctl ≠ .exec →
    s.ctl = .crcHi ∧ ∃ c n f lo b r, s.Waiting .crcHi c n b r ∧ c.f = some f ∧ c.rcrcLo = some lo ∧ joinLE lo b = c.crc

/-- No OTP bit returns from 0 to 1, under any step, RESET during a primitive included, where the storage does not fail
(20_memory.md R65; 70_reset_and_hazards.md R332). -/
def Obligations.OtpBitsNeverReturn : Prop :=
  ∀ (s t : State) (x : Nat), s.cfg.storageFaults = false → step s = .next t → t.otpByte x &&& ~~~(s.otpByte x) = 0

/-- The serial rate changes only in the step that completes a command, to a rate that was pending or that this step's CHANGE_BAUD
set, or in a RESET, to `BAUD_INIT` (10_state.md R27, R31, R43; 41_framing_fsm.md R160). -/
def Obligations.BaudChangesOnlyAtCompletion : Prop :=
  ∀ (s t : State), step s = .next t → t.baud ≠ s.baud →
    (s.resetNext = true ∧ t.baud = s.cfg.baudInit) ∨
    (t.ctl = .waitSoh ∧ t.cmd = none ∧ ∃ c, s.cmd = some c ∧
      (c.newBaud = some t.baud ∨ ∃ xq, c.xq = some xq ∧ s.ctl = .exec ∧ ExecOp.setBaud t.baud ∈ xq))

/-- The environment's events that run no command: in every state a byte the host sends only joins `RXQ`, itself at the rate in
force, any bytes at another (10_state.md R34; 70_reset_and_hazards.md R341); a timeout with a byte waiting, or in `S_ANNOUNCE`,
`S_EXEC` or `S_JUMPED`, does not occur, and an announcement occurs in `S_ANNOUNCE` only, with the configured version
(41_framing_fsm.md R140, R142, R143); and `S_JUMPED` is terminal: whatever event occurs but RESET, the engine sends nothing,
consumes nothing and changes nothing, and the bytes of the host only join `RXQ` (R161). That the events are taken one a step from
the queue `env`, that one which is not enabled is a step that changes nothing, and that an event names the bytes a receiver sees
at another rate, is the model's choice (logs 3, 14, 21). -/
def Obligations.JumpedUntilReset : Prop :=
  ∀ (s : State),
    (∀ b rate seen es, s.env = .host b rate seen :: es →
      step s = .next { s with rxq := s.rxq ++ (if rate = s.baud then [b] else seen), env := es }) ∧
    (∀ es, s.env = .timeout :: es → s.rxq ≠ [] ∨ s.ctl ∈ [Ctl.announce, .exec, .jumped] →
      step s = .next { s with env := es }) ∧
    (∀ es, s.env = .announce :: es →
      step s = if s.ctl = .announce then exec (.announce s.cfg.version) (s.setEnv es) else .next { s with env := es }) ∧
    (s.ctl = .jumped → s.resetNext = false → step s = .next { s with
      rxq := s.rxq ++ (match s.env with
        | .host b rate seen :: _ => if rate = s.baud then [b] else seen
        | _ => [])
      env := s.env.tail })

/-- A WHOLE FRAME: from an idle state, the bytes of any frame whose `Header` stage passes take the block to `S_EXEC`, with the
decoded fields, the payload and the command's program in the record and three `ACK`s sent, every other piece of state as it was
(30_encoding.md R84, R86, R89; 41_framing_fsm.md R143-R153; 40_crc.md R128, R131). A header byte that no field covers is 0 in
these bytes (the model's choice, log 32). -/
def Obligations.FrameReachesExec : Prop :=
  ∀ (s : State) (fr : Frame) (r : List Byte), s.cfg.WF → fr.wf s.cfg = true → s.env = [] →
    s.ctl = .announce ∨ s.ctl = .waitSoh → s.rxq = encodeFrame s.cfg fr ++ r →
    (handlerOf fr.fields.command).header s.cfg (fr.fields.map (classify s.cfg)) fr.payload.length = true →
    ∃ t c, stepTimes (encodeFrame s.cfg fr).length s = .next t ∧
      t.Executing c fr.fields.command (fr.fields.map (classify s.cfg))
        ((handlerOf fr.fields.command).program s.cfg (fr.fields.map (classify s.cfg)) fr.payload) ∧
      c.pld = some fr.payload ∧ c.newBaud = none ∧
      t = { s with ctl := .exec, cmd := some c, rxq := r, txl := s.txl ++ s.sent [ACK, ACK, ACK] }

/-! ## RESET -/

/-- What RESET leaves in the engine's own state, as the spec gives it (10_state.md R43). -/
def Obligations.ResetValues : Prop :=
  State.reset.ctl = .announce ∧ State.reset.cmd = none ∧ State.reset.baud = State.reset.cfg.baudInit ∧ State.reset.rxq = []

/-- RESET between two steps, in every state: the engine's state at its reset values, the bytes waiting lost, flash, OTP, the
configuration and the logs as they were; RAM and BUF hold whatever canonical contents the environment names
(70_reset_and_hazards.md R330, R331; 10_state.md R43). R43 leaves RAM and BUF unspecified; that they take the contents the event
names is the model's choice (log 5). -/
def Obligations.ResetEvent : Prop :=
  ∀ (s : State) (ram buf : Memory) (es : List EnvEvent), s.env = .reset ram buf :: es →
    Memory.wf Space.ram.blank ram → Memory.wf Space.buf.blank buf →
    (∀ c ∈ ram, ramRangeOk s.cfg c.1 1 = true) → (∀ c ∈ buf, c.1 < s.cfg.bufSize) →
    step s = .next { s with
      ctl := .announce, cmd := none, baud := s.cfg.baudInit, rxq := [], ram := ram, buf := buf, env := es }

/-- RESET during the primitive at the head of `cmd.xq`: each byte of a flash primitive's range is left at any value, an OTP cell
at any value that sets no bit, every byte outside the range as it was, and a read cuts nothing (70_reset_and_hazards.md R332).
That the cut primitive logs no event is the model's choice (log 12). -/
def Obligations.ResetCutsPrimitive : Prop :=
  ∀ (s : State) (ram buf : List Host.Cell) (left : List Byte) (es : List EnvEvent) (c : Cmd) (op : ExecOp)
    (rest : List ExecOp), s.env = .resetCut ram buf left :: es → s.ctl = .exec → s.cmd = some c → c.xq = some (op :: rest) →
    ∃ t, step s = .next t ∧
      t = { s with
        ctl := .announce, cmd := none, baud := s.cfg.baudInit, rxq := [], ram := t.ram, buf := t.buf, flash := t.flash
        otp := t.otp, env := es } ∧
      (∀ a v, op = .flashWrite a v → left.length = v.length → t.otp = s.otp ∧
        ∀ x, t.flashByte x = if a ≤ x ∧ x < a + v.length then left.getD (x - a) 0 else s.flashByte x) ∧
      (∀ a, op = .erase a → left.length = s.cfg.sectorSize → t.otp = s.otp ∧
        ∀ x, t.flashByte x = if a ≤ x ∧ x < a + s.cfg.sectorSize then left.getD (x - a) 0 else s.flashByte x) ∧
      (op = .chipErase → left.length = s.cfg.flashSize → t.otp = s.otp ∧
        ∀ x, t.flashByte x = if x < s.cfg.flashSize then left.getD x 0 else s.flashByte x) ∧
      (∀ w v, op = .program w v → left.length = s.cfg.w8 → t.flash = s.flash ∧
        ∀ x, t.otpByte x = if w * s.cfg.w8 ≤ x ∧ x < w * s.cfg.w8 + s.cfg.w8
          then s.otpByte x &&& left.getD (x - w * s.cfg.w8) 0 else s.otpByte x) ∧
      ((∀ a v, op ≠ .flashWrite a v) → (∀ a, op ≠ .erase a) → op ≠ .chipErase → (∀ w v, op ≠ .program w v) →
        t.flash = s.flash ∧ t.otp = s.otp)

/-! ## The control bytes, the frame header and unassigned codes -/

/-- SOH in an idle state starts a command: a fresh record, every field undefined but `crc` and no pending rate, the CRC begun
with `SOH` where it covers the frame header (41_framing_fsm.md R145). -/
def Obligations.SohStartsCommand : Prop :=
  ∀ (s : State) (r : List Byte), s.ctl = .announce ∨ s.ctl = .waitSoh → s.rxq = SOH :: r →
    ∃ crc₀, exec .soh s = .next { s with rxq := r, ctl := .typ, cmd := some { crc := crc₀ } } ∧
      (s.cfg.crcCoversFrameHdr = true → crc₀ = crcUpdate s.cfg.crcPoly s.cfg.crcSeed SOH)

/-- Every other byte is discarded in an idle state and changes nothing else, STX, ACK and NAK included (41_framing_fsm.md R143,
R144). -/
def Obligations.IdleBytesDiscarded : Prop :=
  ∀ (s : State) (b : Byte) (r : List Byte), s.ctl = .announce ∨ s.ctl = .waitSoh → s.rxq = b :: r →
    (b = STX → exec .stx s = .next { s with rxq := r }) ∧ (b = ACK → exec .ack s = .next { s with rxq := r }) ∧
    (b = NAK → exec .nak s = .next { s with rxq := r }) ∧
    (b ≠ SOH → s.env = [] → step s = .next { s with rxq := r })

/-- The type byte and the low length byte (41_framing_fsm.md R146). -/
def Obligations.TypeAndLengthBytes : Prop :=
  ∀ (s : State) (c : Cmd) (b : Byte) (r : List Byte), s.env = [] → s.cmd = some c → s.rxq = b :: r →
    (s.ctl = .typ → step s = .next { s with
      rxq := r, ctl := .lenLo
      cmd := some { c with
        typ := some b, crc := if s.cfg.crcCoversFrameHdr then crcUpdate s.cfg.crcPoly c.crc b else c.crc } }) ∧
    (s.ctl = .lenLo → step s = .next { s with
      rxq := r, ctl := .lenHi
      cmd := some { c with
        length := some (b.zeroExtend 16)
        crc := if s.cfg.crcCoversFrameHdr then crcUpdate s.cfg.crcPoly c.crc b else c.crc } })

/-- A type byte with no dispatch entry: `NAK` once the frame header is complete, the record discarded, no data phase
(30_encoding.md R102; 41_framing_fsm.md R146). -/
def Obligations.UnassignedCodeNaks : Prop :=
  ∀ (s : State) (c : Cmd) (t b : Byte) (lo : U16) (r : List Byte), s.ctl = .lenHi → s.cmd = some c → c.typ = some t →
    c.length = some lo → s.cfg.dispatch t = none → s.rxq = b :: r →
    exec (.unassigned t) s = .next (s.nakked r)

/-- The frame header of every command: too short a length, a payload above `PLD_MAX`, and a payload of the wrong kind are
answered with `NAK` in this order; else the header is acknowledged and the data phase entered (41_framing_fsm.md R146-R149;
42_commands.md R190; 60_exceptions.md R303). -/
def Obligations.LengthCheckAndInit : Prop :=
  ∀ (s : State) (c : Cmd) (n : Command) (lo : U16) (b : Byte) (r : List Byte), s.ctl = .lenHi → s.cmd = some c →
    c.typ.bind s.cfg.dispatch = some n → c.length = some lo → s.rxq = b :: r →
    let len : U16 := lo ||| ((b.zeroExtend 16) <<< 8)
    let hs := s.cfg.hdrSize n
    let pl := len.toNat - hs
    let crc₁ := if s.cfg.crcCoversFrameHdr then crcUpdate s.cfg.crcPoly c.crc b else s.cfg.crcSeed
    let c₁ : Cmd := { c with
      length := some len, name := some n, hs := some hs, pl := some (pl : Int), hdr := some [], pld := some [], crc := crc₁ }
    (len.toNat < hs → exec n.toInstr s = .next (s.nakked r)) ∧
    (hs ≤ len.toNat → s.cfg.pldMax < pl ∨ s.cfg.payloadOk n pl = false → exec n.toInstr s = .next (s.nakked r)) ∧
    (hs ≤ len.toNat → pl ≤ s.cfg.pldMax → s.cfg.payloadOk n pl = true →
      (0 < hs → exec n.toInstr s = .next { s with
        rxq := r, ctl := .hdr, cmd := some c₁, txl := s.txl ++ s.sent [ACK] }) ∧
      (hs = 0 → (handlerOf n).header s.cfg (decodeFields s.cfg n []) pl = false →
        exec n.toInstr s = .next { s.nakked r with txl := s.txl ++ s.sent [ACK, NAK] }) ∧
      (hs = 0 → (handlerOf n).header s.cfg (decodeFields s.cfg n []) pl = true → 0 < pl →
        exec n.toInstr s = .next { s with
          rxq := r, ctl := .pld, cmd := some { c₁ with f := some (decodeFields s.cfg n []) }
          txl := s.txl ++ s.sent [ACK] }) ∧
      (hs = 0 → (handlerOf n).header s.cfg (decodeFields s.cfg n []) pl = true → pl = 0 →
        exec n.toInstr s = .next { s with
          rxq := r, ctl := .crcLo, cmd := some { c₁ with f := some (decodeFields s.cfg n []) }
          txl := s.txl ++ s.sent [ACK, ACK] }))

/-- A header byte of every command: it is kept and folded into the CRC; on the last one `Header` decides, `NAK` at once where
it refuses (41_framing_fsm.md R149, R151; 60_exceptions.md R301). -/
def Obligations.HeaderBytes : Prop :=
  ∀ (s : State) (c : Cmd) (n : Command) (hdr pld : List Byte) (hs pl : Nat) (b : Byte) (r : List Byte),
    s.Waiting .hdr c n b r → c.hdr = some hdr → c.pld = some pld → c.hs = some hs → c.pl = some (pl : Int) →
    let c₁ : Cmd := { c with hdr := some (hdr ++ [b]), crc := crcUpdate s.cfg.crcPoly c.crc b }
    let f := decodeFields s.cfg n (hdr ++ [b])
    (hdr.length + 1 ≠ hs → exec n.toInstr s = .next { s with rxq := r, cmd := some c₁ }) ∧
    (hdr.length + 1 = hs → (handlerOf n).header s.cfg f pl = false → exec n.toInstr s = .next (s.nakked r)) ∧
    (hdr.length + 1 = hs → (handlerOf n).header s.cfg f pl = true → 0 < pl →
      exec n.toInstr s = .next { s with rxq := r, ctl := .pld, cmd := some { c₁ with f := some f } }) ∧
    (hdr.length + 1 = hs → (handlerOf n).header s.cfg f pl = true → pl = 0 →
      exec n.toInstr s = .next { s with
        rxq := r, ctl := .crcLo, cmd := some { c₁ with f := some f }, txl := s.txl ++ s.sent [ACK] })

/-- A payload byte of every command: it is kept and folded into the CRC; the last one is acknowledged (41_framing_fsm.md R150;
42_commands.md R191). -/
def Obligations.PayloadBytes : Prop :=
  ∀ (s : State) (c : Cmd) (n : Command) (f : HdrFields Tagged) (pld : List Byte) (pl : Nat) (b : Byte) (r : List Byte),
    s.Waiting .pld c n b r → c.f = some f → c.pld = some pld → c.pl = some (pl : Int) →
    let c₁ : Cmd := { c with pld := some (pld ++ [b]), crc := crcUpdate s.cfg.crcPoly c.crc b }
    (pld.length + 1 ≠ pl → exec n.toInstr s = .next { s with rxq := r, cmd := some c₁ }) ∧
    (pld.length + 1 = pl → exec n.toInstr s = .next { s with
      rxq := r, ctl := .crcLo, cmd := some c₁, txl := s.txl ++ s.sent [ACK] })

/-- The two bytes of the inbound CRC, of every command: the low byte is kept; on the high byte an equal CRC is acknowledged and
`Exec` starts, an unequal one is answered with `NAK` and `Exec` does not start (41_framing_fsm.md R152, R153; 40_crc.md R127,
R128). -/
def Obligations.CrcConfirmation : Prop :=
  ∀ (s : State) (c : Cmd) (n : Command) (b : Byte) (r : List Byte),
    (s.Waiting .crcLo c n b r → exec n.toInstr s = .next { s with
      rxq := r, ctl := .crcHi, cmd := some { c with rcrcLo := some b } }) ∧
    (∀ f pld (lo : Byte), s.Waiting .crcHi c n b r → c.f = some f → c.pld = some pld → c.rcrcLo = some lo →
      (lo.toNat + 256 * b.toNat = c.crc.toNat → exec n.toInstr s = .next { s with
        rxq := r, ctl := .exec, cmd := some { c with xq := some ((handlerOf n).program s.cfg f pld) }
        txl := s.txl ++ s.sent [ACK] }) ∧
      (lo.toNat + 256 * b.toNat ≠ c.crc.toNat → exec n.toInstr s = .next (s.nakked r)))

/-- The `Exec` program of each command: which storage primitives and effects its `Exec` stage queues (42_commands.md R191-R211;
43_flash_safety.md R240, R250, R252). -/
def Obligations.ExecPrograms : Prop :=
  ∀ (cfg : Config) (pld : List Byte),
    (∀ t, (handlerOf .writeRam).program cfg (.writeRam t) pld = [.write t pld]) ∧
    (∀ t (dst len : U32), (handlerOf .copyToFlash).program cfg (.copyToFlash t dst len) pld =
      [.copy t len.toNat dst.toNat]) ∧
    (∀ (a len : U32), (handlerOf .eraseFlash).program cfg (.eraseFlash a len) pld = eraseRange cfg a.toNat len.toNat) ∧
    (handlerOf .chipEraseFlash).program cfg .chipEraseFlash pld = [.chipErase] ∧
    (∀ (w : U32), (handlerOf .writeOtp).program cfg (.writeOtp w) pld = programCells cfg w.toNat pld) ∧
    (∀ (id : Byte) (off : U32) (a : Nat), partitionAddr cfg id off.toNat pld.length = some a →
      (handlerOf .writePartition).program cfg (.writePartition id off) pld = safeWrite a pld) ∧
    (∀ (a : U32), (handlerOf .directWriteFlash).program cfg (.directWriteFlash a 0) pld = safeWrite a.toNat pld) ∧
    (∀ (a : U32) (v : Byte), v ≠ 0 → (handlerOf .directWriteFlash).program cfg (.directWriteFlash a v) pld =
      safeWrite a.toNat pld ++ [.verify a.toNat pld]) ∧
    (∀ (b : U32), (handlerOf .changeBaud).program cfg (.changeBaud b) pld = [.setBaud b]) ∧
    (∀ (v : Byte), (handlerOf .gpioWd).program cfg (.gpioWd v) pld = [.gpio v]) ∧
    (∀ (n : Command) (f : HdrFields Tagged), n.hasResponse = true ∨ n = .run ∨ n = .dummy →
      (handlerOf n).program cfg f pld = [])

/-! ## Timeout and abort -/

/-- A timeout at a bounded wait with `RXQ` empty: no byte sent, the record and any pending rate discarded; to `S_ANNOUNCE` from
`S_WAIT_SOH`, else to `S_WAIT_SOH` (41_framing_fsm.md R142; 10_state.md R21). -/
def Obligations.TimeoutAtBoundedWait : Prop :=
  ∀ (s : State) (es : List EnvEvent), s.env = .timeout :: es → s.rxq = [] →
    (s.ctl = .waitSoh → step s = .next { s with env := es, ctl := .announce, cmd := none }) ∧
    (s.ctl ∈ [Ctl.typ, .lenLo, .lenHi, .hdr, .pld, .crcLo, .crcHi, .rspAck, .rspCrcLo, .rspCrcHi] →
      step s = .next { s with env := es, ctl := .waitSoh, cmd := none })

/-- The abort: the byte of the code's row, the record discarded, `S_WAIT_SOH`; `RXQ`, the rate, storage and the event log stay
(60_exceptions.md R300, R301). -/
def Obligations.AbortReturnsToIdle : Prop :=
  ∀ (code : Abort) (s : State),
    raiseAbort code s = .next { s with
      ctl := .waitSoh, cmd := none
      txl := s.txl ++ (match code with
        | .rspRefused | .timeout => []
        | .unknownCmd | .lenShort | .initFail | .headerFail | .dataFail | .crcIn | .execFail | .crcOut => [(0x15, s.baud)]) }

/-! ## The response phase -/

/-- The host's answer to the response length: ACK runs the command's `SendData`; with a zero length the command completes, a
pending rate applied; GET_VERSION answers its string. NAK, and any other byte, refuses: no byte is sent and the record is
discarded (41_framing_fsm.md R158, R160; 30_encoding.md R88; 60_exceptions.md R300). -/
def Obligations.ResponseLengthAnswer : Prop :=
  ∀ (s : State) (c : Cmd) (n : Command) (b : Byte) (r : List Byte) (len : U16) (f : HdrFields Tagged) (q : List Byte),
    s.Waiting .rspAck c n b r → c.rspLen = some len → c.f = some f → c.q = some q →
    (b = ACK → exec .ack s = exec n.toInstr s) ∧
    (b = ACK → len = 0 → exec .ack s = .next { s with
      rxq := r, ctl := .waitSoh, cmd := none, baud := c.newBaud.getD s.baud }) ∧
    (b = ACK → len ≠ 0 → n = .getVersion → exec .ack s = .next (s.answered c r [] s.cfg.versionString)) ∧
    (b = NAK → exec .nak s = .next { s with rxq := r, ctl := .waitSoh, cmd := none }) ∧
    (b ≠ ACK → exec n.toInstr s = .next { s with rxq := r, ctl := .waitSoh, cmd := none }) ∧
    (b ≠ ACK → s.env = [] → step s = .next { s with rxq := r, ctl := .waitSoh, cmd := none })

/-- The host's CRC of a response, for every command: an equal one is acknowledged and completes the command, an unequal one is
answered with `NAK`; in both cases storage stays (41_framing_fsm.md R159; 40_crc.md R129). -/
def Obligations.ResponseCrc : Prop :=
  ∀ (s : State) (c : Cmd) (n : Command) (b : Byte) (r : List Byte),
    (s.Waiting .rspCrcLo c n b r → exec n.toInstr s = .next { s with
      rxq := r, ctl := .rspCrcHi, cmd := some { c with rcrcLo := some b } }) ∧
    (∀ lo : Byte, s.Waiting .rspCrcHi c n b r → c.rcrcLo = some lo →
      (lo.toNat + 256 * b.toNat = c.crc.toNat → exec n.toInstr s = .next { s with
        rxq := r, ctl := .waitSoh, cmd := none, txl := s.txl ++ s.sent [ACK], baud := c.newBaud.getD s.baud }) ∧
      (lo.toNat + 256 * b.toNat ≠ c.crc.toNat → exec n.toInstr s = .next (s.nakked r)))

/-- The end of `Exec` of every command with a response: `ACK`, then the response length, low byte first; storage and the event
log stay. GET_FLASH_STATE's length is that of its collaborator's draw, whatever that is (41_framing_fsm.md R156, R157;
30_encoding.md R87, R88; 42_commands.md R193-R209). That the draw is the environment's next answer, else a free value, is the
model's choice (log 4). -/
def Obligations.ResponseLengths : Prop :=
  ∀ (s : State) (c : Cmd) (f : HdrFields Tagged),
    let tells (n : Command) (len : Nat) : Prop := exec n.toInstr s = .next { s with
      ctl := .rspAck, txl := s.txl ++ s.sent [ACK, BitVec.ofNat 8 len, BitVec.ofNat 8 (len / 256)]
      cmd := some { c with rspLen := some (BitVec.ofNat 16 len), q := some [] } }
    (∀ t len, f = .readRam t len → s.Executing c .readRam f [] → tells .readRam len.toNat) ∧
    (∀ w k, f = .readOtp w k → k.toNat * s.cfg.w8 ≤ 65535 → s.Executing c .readOtp f [] →
      tells .readOtp (k.toNat * s.cfg.w8)) ∧
    (∀ a len, f = .readFlash a len → s.Executing c .readFlash f [] → tells .readFlash len.toNat) ∧
    (s.cfg.WF → s.Executing c .readPtable f [] → tells .readPtable (encodeTable s.cfg.ptable).length) ∧
    (∀ id off len, f = .readPartition id off len → s.Executing c .readPartition f [] → tells .readPartition len.toNat) ∧
    (s.cfg.WF → s.Executing c .getVersion f [] → tells .getVersion s.cfg.versionString.length) ∧
    (∀ a len, f = .isEmptyFlash a len → s.Executing c .isEmptyFlash f [] → tells .isEmptyFlash 4) ∧
    (s.cfg.WF → s.Executing c .getProductInfo f [] → tells .getProductInfo s.cfg.productInfo.length) ∧
    (s.Executing c .getFlashState f [] → ∃ q : List Byte, q.length ≤ 65535 ∧
      (∀ a as, s.answers = a :: as → a.length ≤ 65535 → q = a) ∧
      exec .getFlashState s = .next { s with
        answers := s.answers.tail, draws := if s.answers = [] then s.draws + 1 else s.draws
        ctl := .rspAck, txl := s.txl ++ s.sent [ACK, BitVec.ofNat 8 q.length, BitVec.ofNat 8 (q.length / 256)]
        cmd := some { c with rspLen := some (BitVec.ofNat 16 q.length), q := some q } })

/-- The response of the reads: after the host accepts the length, the command sends exactly the bytes of its range and logs the
read; nothing else changes but the phase (42_commands.md R193, R199, R200, R202, R205; 20_memory.md R61, R62, R65, R66, R69;
30_encoding.md R97, R101). -/
def Obligations.ReadResponses : Prop :=
  ∀ (s : State) (c : Cmd) (r : List Byte) (rlen : U16) (q : List Byte), c.rspLen = some rlen → rlen ≠ 0 → c.q = some q →
    (∀ o (len : U16), s.Waiting .rspAck c .readRam ACK r → c.f = some (.readRam (.scratch o) len) →
      o + len.toNat ≤ s.cfg.bufSize → ∃ bs : List Byte, bs.length = len.toNat ∧
        (∀ i < len.toNat, bs.getD i 0 = s.bufByte (o + i)) ∧ exec .readRam s = .next (s.answered c r [] bs)) ∧
    (∀ a (len : U16), s.Waiting .rspAck c .readRam ACK r → c.f = some (.readRam (.concrete a) len) →
      ramRangeOk s.cfg a len.toNat = true → ∃ bs : List Byte, bs.length = len.toNat ∧
        (∀ i < len.toNat, bs.getD i 0 = s.ramByte (a + i)) ∧
        exec .readRam s = .next (s.answered c r [.read .ram a len.toNat] bs)) ∧
    (∀ (a : U32) (len : U16), s.Waiting .rspAck c .readFlash ACK r → c.f = some (.readFlash a len) →
      a.toNat + len.toNat ≤ s.cfg.flashSize → ∃ bs : List Byte, bs.length = len.toNat ∧
        (∀ i < len.toNat, bs.getD i 0 = s.flashByte (a.toNat + i)) ∧
        exec .readFlash s = .next (s.answered c r [.read .flash a.toNat len.toNat] bs)) ∧
    (∀ (w : U32) (k : U16), s.Waiting .rspAck c .readOtp ACK r → c.f = some (.readOtp w k) →
      w.toNat + k.toNat ≤ s.cfg.otpWords → ∃ bs : List Byte, bs.length = k.toNat * s.cfg.w8 ∧
        (∀ i < k.toNat * s.cfg.w8, bs.getD i 0 = s.otpByte (w.toNat * s.cfg.w8 + i)) ∧
        exec .readOtp s = .next (s.answered c r
          ((List.range k.toNat).map (fun j => Event.read .otp (w.toNat + j) 1)) bs)) ∧
    (∀ (id : Byte) (off : U32) (len : U16) (a : Nat), s.Waiting .rspAck c .readPartition ACK r →
      c.f = some (.readPartition id off len) → partitionAddr s.cfg id off.toNat len.toNat = some a →
      ∃ bs : List Byte, bs.length = len.toNat ∧ (∀ i < len.toNat, bs.getD i 0 = s.flashByte (a + i)) ∧
        exec .readPartition s = .next (s.answered c r [.read .flash a len.toNat] bs)) ∧
    (∀ (a len : U32), s.Waiting .rspAck c .isEmptyFlash ACK r → c.f = some (.isEmptyFlash a len) →
      a.toNat + len.toNat ≤ s.cfg.flashSize → ∃ k ≤ len.toNat,
        (∀ i < k, s.flashByte (a.toNat + i) = 0xFF) ∧ (k < len.toNat → s.flashByte (a.toNat + k) ≠ 0xFF) ∧
        exec .isEmptyFlash s = .next (s.answered c r [.read .flash a.toNat len.toNat] (leBytes 4 k)))

/-- The responses that read no storage: the partition table, the version string, the product info, and the collaborator's draw
that GET_FLASH_STATE's length announced (42_commands.md R201, R204, R206, R209; 30_encoding.md R97, R98). -/
def Obligations.ConstantResponses : Prop :=
  ∀ (s : State) (c : Cmd) (r : List Byte) (rlen : U16) (f : HdrFields Tagged) (q : List Byte), c.rspLen = some rlen →
    rlen ≠ 0 → c.f = some f → c.q = some q →
    (s.Waiting .rspAck c .readPtable ACK r →
      exec .readPtable s = .next (s.answered c r [] (encodeTable s.cfg.ptable))) ∧
    (s.Waiting .rspAck c .getVersion ACK r → exec .getVersion s = .next (s.answered c r [] s.cfg.versionString)) ∧
    (s.Waiting .rspAck c .getProductInfo ACK r → exec .getProductInfo s = .next (s.answered c r [] s.cfg.productInfo)) ∧
    (s.Waiting .rspAck c .getFlashState ACK r → exec .getFlashState s = .next (s.answered c r [] q))

/-- For every command with a response and every accepted field record, `SendData` answers as many bytes as `SendLen` announced,
in the same storage (41_framing_fsm.md R163). -/
def Obligations.LengthMatchesData : Prop :=
  ∀ (s : State) (n : Command) (f : HdrFields Tagged) (q : List Byte) (pl : Nat), s.cfg.WF → n.hasResponse = true →
    f.command = n → (handlerOf n).header s.cfg f pl = true → q.length ≤ 65535 →
    ∃ bytes reads, (handlerOf n).sendData s f q = .data bytes reads ∧
      (handlerOf n).sendLen s.cfg f q = (bytes.length, true) ∧ bytes.length ≤ 65535

/-! ## Exec: the commands that change storage, the rate or the platform -/

/-- WRITE_RAM: one primitive sets exactly the bytes of the range, in RAM with a WRITE event or in BUF without one
(42_commands.md R192; 20_memory.md R57, R61, R66; 41_framing_fsm.md R154, R155). That a write to BUF takes an exec-step of its own
is the model's reading of R154 and R155 (log 13). -/
def Obligations.WriteRamResult : Prop :=
  ∀ (s : State) (c : Cmd) (f : HdrFields Tagged) (v : List Byte) (rest : List ExecOp),
    (∀ o, s.Executing c .writeRam f (.write (.scratch o) v :: rest) → o + v.length ≤ s.cfg.bufSize →
      ∃ t, exec .writeRam s = .next t ∧ t = { s with buf := t.buf, cmd := some { c with xq := some rest } } ∧
        ∀ x, t.bufByte x = if o ≤ x ∧ x < o + v.length then v.getD (x - o) 0 else s.bufByte x) ∧
    (∀ a, s.Executing c .writeRam f (.write (.concrete a) v :: rest) → ramRangeOk s.cfg a v.length = true →
      ∃ t, exec .writeRam s = .next t ∧
        t = { s with
          ram := t.ram, evl := s.evl ++ [.write .ram a v.length], cmd := some { c with xq := some rest } } ∧
        ∀ x, t.ramByte x = if a ≤ x ∧ x < a + v.length then v.getD (x - a) 0 else s.ramByte x)

/-- COPY_TO_FLASH: its first primitive reads the source range, from RAM with a READ event or from BUF without one, and leaves
the safety write of exactly these bytes to do; storage stays (42_commands.md R194; 43_flash_safety.md R240; 20_memory.md R60, R61,
R66; 41_framing_fsm.md R154, R155). That a read of BUF takes an exec-step of its own, and that a read of RAM of length 0 is made
and logged before the safety write does nothing, is the model's reading (log 13). -/
def Obligations.CopyToFlashReadsSource : Prop :=
  ∀ (s : State) (c : Cmd) (f : HdrFields Tagged) (n dst : Nat) (rest : List ExecOp),
    (∀ o, s.Executing c .copyToFlash f (.copy (.scratch o) n dst :: rest) → o + n ≤ s.cfg.bufSize →
      ∃ data : List Byte, data.length = n ∧ (∀ i < n, data.getD i 0 = s.bufByte (o + i)) ∧
        exec .copyToFlash s = .next { s with cmd := some { c with xq := some (safeWrite dst data ++ rest) } }) ∧
    (∀ a, s.Executing c .copyToFlash f (.copy (.concrete a) n dst :: rest) → ramRangeOk s.cfg a n = true →
      ∃ data : List Byte, data.length = n ∧ (∀ i < n, data.getD i 0 = s.ramByte (a + i)) ∧
        exec .copyToFlash s = .next { s with
          evl := s.evl ++ [.read .ram a n], cmd := some { c with xq := some (safeWrite dst data ++ rest) } })

/-- One flash primitive of the commands that write flash: programming can only clear bits of its range, an erase sets its sector
to 0xFF, each logs its event, and no other byte or field changes, where the storage does not fail (20_memory.md R60, R63,
R64; 41_framing_fsm.md R155). -/
def Obligations.FlashPrimitiveSteps : Prop :=
  ∀ (s : State) (c : Cmd) (n : Command) (f : HdrFields Tagged) (rest : List ExecOp), s.cfg.storageFaults = false →
    n ∈ [Command.copyToFlash, .eraseFlash, .writePartition, .directWriteFlash] →
    (∀ a v, s.Executing c n f (.flashWrite a v :: rest) → a + v.length ≤ s.cfg.flashSize →
      ∃ t, exec n.toInstr s = .next t ∧
        t = { s with
          flash := t.flash, evl := s.evl ++ [.write .flash a v.length], cmd := some { c with xq := some rest } } ∧
        ∀ x, t.flashByte x = if a ≤ x ∧ x < a + v.length then s.flashByte x &&& v.getD (x - a) 0 else s.flashByte x) ∧
    (∀ s₀, s.Executing c n f (.erase s₀ :: rest) → s₀ % s.cfg.sectorSize = 0 → s₀ + s.cfg.sectorSize ≤ s.cfg.flashSize →
      ∃ t, exec n.toInstr s = .next t ∧
        t = { s with flash := t.flash, evl := s.evl ++ [.erase s₀], cmd := some { c with xq := some rest } } ∧
        ∀ x, t.flashByte x = if s₀ ≤ x ∧ x < s₀ + s.cfg.sectorSize then 0xFF else s.flashByte x)

/-- THE FLASH SAFETY WRITE IS CORRECT: run to its end, it leaves the data in its range and every other flash byte as it was, and
changes nothing else but the event log (43_flash_safety.md R254). -/
def Obligations.SafeWriteLeavesTheData : Prop :=
  ∀ (s : State) (c : Cmd) (n : Command) (f : HdrFields Tagged) (a : Nat) (data : List Byte) (rest : List ExecOp), s.cfg.WF →
    s.cfg.storageFaults = false → n ∈ [Command.copyToFlash, .writePartition, .directWriteFlash] →
    a + data.length ≤ s.cfg.flashSize → s.Executing c n f (safeWrite a data ++ rest) →
    ∃ k t, execTimes n.toInstr k s = .next t ∧
      t = { s with flash := t.flash, evl := t.evl, cmd := some { c with xq := some rest } } ∧
      ∀ x, t.flashByte x = if a ≤ x ∧ x < a + data.length then data.getD (x - a) 0 else s.flashByte x

/-- THE FLASH SAFETY WRITE ERASES LITTLE: run to its end, whatever the flash holds, it erases only sectors that hold a byte of
its range, each at most once, so at most one more than the sector boundaries it crosses; it never erases the chip; and every
write it issues stays inside one sector (43_flash_safety.md R247, R248). -/
def Obligations.SafeWriteErasesLittle : Prop :=
  ∀ (s : State) (c : Cmd) (n : Command) (f : HdrFields Tagged) (a : Nat) (data : List Byte) (rest : List ExecOp), s.cfg.WF →
    n ∈ [Command.copyToFlash, .writePartition, .directWriteFlash] → a + data.length ≤ s.cfg.flashSize →
    s.Executing c n f (safeWrite a data ++ rest) →
    ∃ k t es, execTimes n.toInstr k s = .next t ∧ t.cmd = some { c with xq := some rest } ∧ t.evl = s.evl ++ es ∧
      (∀ e ∈ es, (∃ x m, e = .read .flash x m) ∨
        (∃ x m, e = .write .flash x m ∧ 0 < m ∧ sectorOf s.cfg x = sectorOf s.cfg (x + m - 1)) ∨
        (∃ x, e = .erase (sectorOf s.cfg x) ∧ a ≤ x ∧ x < a + data.length)) ∧
      (es.filterMap Event.erased).Nodup ∧
      (0 < data.length → (es.filterMap Event.erased).length ≤
        (sectorOf s.cfg (a + data.length - 1) - sectorOf s.cfg a) / s.cfg.sectorSize + 1)

/-- THE FLASH SAFETY WRITE IS IDEMPOTENT: where the flash already holds the data, it only reads: no erase, no write, and the flash
stays as it is (43_flash_safety.md R243, R251). -/
def Obligations.SafeWriteTwiceOnlyReads : Prop :=
  ∀ (s : State) (c : Cmd) (n : Command) (f : HdrFields Tagged) (a : Nat) (data : List Byte) (rest : List ExecOp), s.cfg.WF →
    n ∈ [Command.copyToFlash, .writePartition, .directWriteFlash] → a + data.length ≤ s.cfg.flashSize →
    s.Executing c n f (safeWrite a data ++ rest) → (∀ i < data.length, s.flashByte (a + i) = data.getD i 0) →
    ∃ k es, execTimes n.toInstr k s = .next { s with evl := s.evl ++ es, cmd := some { c with xq := some rest } } ∧
      ∀ e ∈ es, e.isRead = true

/-- The read-back of DIRECT_WRITE_FLASH: it logs its read and leaves the bytes read to compare; where they are the data the program
goes on, else the next exec-step answers `NAK` and aborts, the flash as the failed write left it (42_commands.md R207;
43_flash_safety.md R252; 60_exceptions.md R304; 10_state.md R41). That the comparison is made in the exec-step after the read is
the model's reading of R155 (log 31). -/
def Obligations.VerifyMismatchFails : Prop :=
  ∀ (s : State) (c : Cmd) (f : HdrFields Tagged) (a : Nat) (data : List Byte) (rest : List ExecOp),
    s.Executing c .directWriteFlash f (.verify a data :: rest) → a + data.length ≤ s.cfg.flashSize →
    ∃ read : List Byte, read.length = data.length ∧ (∀ i < data.length, read.getD i 0 = s.flashByte (a + i)) ∧
      let after (xq : List ExecOp) : State := { s with
        evl := s.evl ++ [.read .flash a data.length], cmd := some { c with xq := some xq } }
      exec .directWriteFlash s = .next (after (.check read data :: rest)) ∧
      ((∀ i < data.length, s.flashByte (a + i) = data.getD i 0) →
        exec .directWriteFlash (after (.check read data :: rest)) = exec .directWriteFlash (after rest)) ∧
      ((∃ i < data.length, s.flashByte (a + i) ≠ data.getD i 0) →
        exec .directWriteFlash (after (.check read data :: rest)) =
          .next { s.nakked s.rxq with evl := s.evl ++ [.read .flash a data.length] })

/-- ERASE_FLASH, run to its end: every sector that overlaps the range is erased whole, in increasing order, one event each, and
every other flash byte stays; a zero length erases nothing (42_commands.md R195; 43_flash_safety.md R250). -/
def Obligations.EraseFlashResult : Prop :=
  ∀ (s : State) (c : Cmd) (f : HdrFields Tagged) (a len : Nat), s.cfg.WF → s.cfg.storageFaults = false →
    a + len ≤ s.cfg.flashSize → s.Executing c .eraseFlash f (eraseRange s.cfg a len) →
    ∃ k t es, execTimes .eraseFlash k s = .next t ∧
      t = { s with flash := t.flash, evl := s.evl ++ es, cmd := some { c with xq := some [] } } ∧
      (∀ x, t.flashByte x =
        if 0 < len ∧ sectorOf s.cfg a ≤ x ∧ x < sectorOf s.cfg (a + len - 1) + s.cfg.sectorSize then 0xFF
        else s.flashByte x) ∧
      es = (if len = 0 then [] else
        (List.range ((sectorOf s.cfg (a + len - 1) - sectorOf s.cfg a) / s.cfg.sectorSize + 1)).map
          (fun i => Event.erase (sectorOf s.cfg a + i * s.cfg.sectorSize)))

/-- CHIP_ERASE_FLASH: every flash byte becomes 0xFF, one event, nothing else changes (42_commands.md R196; 20_memory.md R63). -/
def Obligations.ChipEraseResult : Prop :=
  ∀ (s : State) (c : Cmd) (f : HdrFields Tagged) (rest : List ExecOp), s.cfg.storageFaults = false →
    s.Executing c .chipEraseFlash f (.chipErase :: rest) →
    ∃ t, exec .chipEraseFlash s = .next t ∧
      t = { s with flash := t.flash, evl := s.evl ++ [.chipErase], cmd := some { c with xq := some rest } } ∧
      ∀ x, t.flashByte x = 0xFF

/-- WRITE_OTP: one exec-step ANDs one cell with its new value and logs one event; run to its end, each cell of the range is, in
increasing order. No other OTP byte and no other field changes, whatever the cells held (42_commands.md R198; 20_memory.md R65,
R69; 44_otp_safety.md R280). -/
def Obligations.WriteOtpResult : Prop :=
  ∀ (s : State) (c : Cmd) (f : HdrFields Tagged), s.cfg.storageFaults = false →
    (∀ w v rest, s.Executing c .writeOtp f (.program w v :: rest) → w < s.cfg.otpWords → v.length = s.cfg.w8 →
      ∃ t, exec .writeOtp s = .next t ∧
        t = { s with otp := t.otp, evl := s.evl ++ [.programOtp w], cmd := some { c with xq := some rest } } ∧
        ∀ x, t.otpByte x = if w * s.cfg.w8 ≤ x ∧ x < w * s.cfg.w8 + s.cfg.w8
          then s.otpByte x &&& v.getD (x - w * s.cfg.w8) 0 else s.otpByte x) ∧
    (∀ (cell : Nat) (pld : List Byte), pld.length % s.cfg.w8 = 0 → cell + pld.length / s.cfg.w8 ≤ s.cfg.otpWords →
      s.Executing c .writeOtp f (programCells s.cfg cell pld) →
      ∃ k t, execTimes .writeOtp k s = .next t ∧
        t = { s with
          otp := t.otp
          evl := s.evl ++ (List.range (pld.length / s.cfg.w8)).map (fun j => Event.programOtp (cell + j))
          cmd := some { c with xq := some [] } } ∧
        ∀ x, t.otpByte x = if cell * s.cfg.w8 ≤ x ∧ x < cell * s.cfg.w8 + pld.length
          then s.otpByte x &&& pld.getD (x - cell * s.cfg.w8) 0 else s.otpByte x)

/-- Where the storage may fail, a program or erase may leave any bytes in its range, and still touches no byte outside it
(20_memory.md R60). That the bytes come from the environment's next answer is the model's choice (log 4); that an OTP cell too may be
left with any bytes, bits back at 1 included, is its reading of R60 beside R65 (log 11). -/
def Obligations.FaultsLeaveAnyBytes : Prop :=
  ∀ (s : State) (c : Cmd) (n : Command) (f : HdrFields Tagged) (rest : List ExecOp) (left : List Byte)
    (as : List (List Byte)), s.cfg.storageFaults = true → s.answers = left :: as →
    (∀ a v, s.Executing c n f (.flashWrite a v :: rest) → a + v.length ≤ s.cfg.flashSize → left.length = v.length →
      ∃ t, exec n.toInstr s = .next t ∧
        ∀ x, t.flashByte x = if a ≤ x ∧ x < a + v.length then left.getD (x - a) 0 else s.flashByte x) ∧
    (∀ s₀, s.Executing c n f (.erase s₀ :: rest) → s₀ % s.cfg.sectorSize = 0 → s₀ + s.cfg.sectorSize ≤ s.cfg.flashSize →
      left.length = s.cfg.sectorSize → ∃ t, exec n.toInstr s = .next t ∧
        ∀ x, t.flashByte x = if s₀ ≤ x ∧ x < s₀ + s.cfg.sectorSize then left.getD (x - s₀) 0 else s.flashByte x) ∧
    (s.Executing c n f (.chipErase :: rest) → left.length = s.cfg.flashSize → ∃ t, exec n.toInstr s = .next t ∧
      ∀ x < s.cfg.flashSize, t.flashByte x = left.getD x 0) ∧
    (∀ w v, s.Executing c n f (.program w v :: rest) → w < s.cfg.otpWords → v.length = s.cfg.w8 → left.length = s.cfg.w8 →
      ∃ t, exec n.toInstr s = .next t ∧
        ∀ x, t.otpByte x = if w * s.cfg.w8 ≤ x ∧ x < w * s.cfg.w8 + s.cfg.w8 then left.getD (x - w * s.cfg.w8) 0
          else s.otpByte x)

/-- RUN at the end of its empty program: `ACK` first, then the JUMP event with the target, and `S_JUMPED`; nothing else changes
(42_commands.md R197; 41_framing_fsm.md R156). -/
def Obligations.RunAcknowledgesThenJumps : Prop :=
  ∀ (s : State) (c : Cmd) (target : U32), s.Executing c .run (.run target) [] →
    exec .run s = .next { s with
      txl := s.txl ++ s.sent [ACK], evl := s.evl ++ [.jump target], ctl := .jumped, cmd := none }

/-- The end of `Exec` of the commands without a response: `ACK` at the rate still in force, then completion, a pending rate
applied. CHANGE_BAUD sets its rate in that very step, GPIO_WD raises its event in it, and DUMMY has no other effect
(41_framing_fsm.md R155, R156, R160; 42_commands.md R208, R210, R211). That the pure computations run in the step that ends the
program is the model's reading of R155 (log 13). -/
def Obligations.NoResponseCommandsComplete : Prop :=
  ∀ (s : State) (c : Cmd) (f : HdrFields Tagged),
    let done : State := { s with ctl := .waitSoh, cmd := none, txl := s.txl ++ s.sent [ACK] }
    (∀ n, n ∈ [Command.writeRam, .copyToFlash, .eraseFlash, .chipEraseFlash, .writeOtp, .writePartition, .directWriteFlash,
      .changeBaud, .gpioWd, .dummy] → s.Executing c n f [] →
      exec n.toInstr s = .next { done with baud := c.newBaud.getD s.baud }) ∧
    (∀ b, s.Executing c .changeBaud f [.setBaud b] → exec .changeBaud s = .next { done with baud := b }) ∧
    (∀ v, s.Executing c .gpioWd f [.gpio v] → c.newBaud = none →
      exec .gpioWd s = .next { done with evl := s.evl ++ [.gpioWd v] })

/-! ## The partition table and the host-side procedures -/

/-- The partition-table response is read back entry by entry, each entry's length prefix and name length as the spec counts them,
and a reader ignores extension bytes after an entry's terminator (30_encoding.md R98, R99). -/
def Obligations.PartitionTableRoundTrip : Prop :=
  ∀ (pt : List PartEntry), (∀ e ∈ pt, e.wf = true) →
    ((encodeTable pt).length ≤ 65535 → readTable (encodeTable pt) = pt) ∧
    (∀ e ∈ pt, e.encode.length = 2 + (12 + (e.name.length + 1)) ∧
      ∀ ext : List Byte, PartEntry.ofBody (e.body ++ ext) = e)

/-- The guarded OTP write answers ARG_ERROR without sending a byte, starts with READ_OTP, and sends WRITE_OTP only in answer to
that first read, and only for cells classified EMPTY: not at the start, not after a write or a read-back, not after an aborted
exchange. The cells it reads back from the wire are those it wrote; and programming cells of that class gives exactly the target,
so the exact verification passes (44_otp_safety.md R271, R273, R275-R278). That the procedure is moves of a host beside the
machine is the model's choice (log 23). -/
def Obligations.OtpGuard : Prop :=
  ∀ (cfg : Config) (w : Nat) (cur tgt : List Nat) (wildcard : Bool),
    (∀ s greeted scheds, s.cfg = cfg → otpArgError cfg w tgt.length = true →
      otpSafeWrite greeted w tgt wildcard scheds s = .next (.done .argError, s)) ∧
    (∀ fr st, otpStart cfg w tgt = .send fr st → fr.fields.command = .readOtp ∧ st = .readFirst) ∧
    (∀ stage reply fr st, otpNext cfg w tgt wildcard stage reply = .send fr st → fr.fields.command = .writeOtp →
      stage = .readFirst ∧ ∃ bytes, reply = .data bytes ∧ otpClassify cfg (cellsOf cfg tgt.length bytes) tgt = .empty) ∧
    (cur.length = tgt.length → (∀ v ∈ cur, v < 2 ^ (8 * cfg.w8)) → (∀ v ∈ tgt, v < 2 ^ (8 * cfg.w8)) →
      cellsOf cfg tgt.length (cellBytes cfg cur) = cur ∧
      (∀ fr st, otpNext cfg w tgt wildcard .readFirst (.data (cellBytes cfg cur)) = .send fr st ↔
        otpClassify cfg cur tgt = .empty ∧ fr = otpWriteFrame cfg w tgt ∧ st = .write) ∧
      (otpClassify cfg cur tgt = .empty → List.zipWith (fun c t => c &&& t) cur tgt = tgt ∧
        otpVerify cfg (List.zipWith (fun c t => c &&& t) cur tgt) tgt false = true))
end

