-- ==== Sys2Proof/Laws/State.lean ====
section
/-! SUPPORT. One lemma per field per state update of Machine/Ops.lean, so that no proof unfolds a record update. -/

namespace Sys2Proof.Machine

/-! ## `State.enter` -/

@[simp] theorem State.enter_cfg (s : State) (k : Ctl) (c : Option Cmd) : (s.enter k c).cfg = s.cfg := rfl
@[simp] theorem State.enter_ctl (s : State) (k : Ctl) (c : Option Cmd) : (s.enter k c).ctl = k := rfl
@[simp] theorem State.enter_cmd (s : State) (k : Ctl) (c : Option Cmd) : (s.enter k c).cmd = c := rfl
@[simp] theorem State.enter_ram (s : State) (k : Ctl) (c : Option Cmd) : (s.enter k c).ram = s.ram := rfl
@[simp] theorem State.enter_buf (s : State) (k : Ctl) (c : Option Cmd) : (s.enter k c).buf = s.buf := rfl
@[simp] theorem State.enter_flash (s : State) (k : Ctl) (c : Option Cmd) : (s.enter k c).flash = s.flash := rfl
@[simp] theorem State.enter_otp (s : State) (k : Ctl) (c : Option Cmd) : (s.enter k c).otp = s.otp := rfl
@[simp] theorem State.enter_baud (s : State) (k : Ctl) (c : Option Cmd) : (s.enter k c).baud = s.baud := rfl
@[simp] theorem State.enter_rxq (s : State) (k : Ctl) (c : Option Cmd) : (s.enter k c).rxq = s.rxq := rfl
@[simp] theorem State.enter_txl (s : State) (k : Ctl) (c : Option Cmd) : (s.enter k c).txl = s.txl := rfl
@[simp] theorem State.enter_evl (s : State) (k : Ctl) (c : Option Cmd) : (s.enter k c).evl = s.evl := rfl
@[simp] theorem State.enter_env (s : State) (k : Ctl) (c : Option Cmd) : (s.enter k c).env = s.env := rfl
@[simp] theorem State.enter_answers (s : State) (k : Ctl) (c : Option Cmd) : (s.enter k c).answers = s.answers := rfl
@[simp] theorem State.enter_draws (s : State) (k : Ctl) (c : Option Cmd) : (s.enter k c).draws = s.draws := rfl

/-! ## `State.tx` -/

@[simp] theorem State.tx_cfg (s : State) (bs : List Byte) : (s.tx bs).cfg = s.cfg := rfl
@[simp] theorem State.tx_ctl (s : State) (bs : List Byte) : (s.tx bs).ctl = s.ctl := rfl
@[simp] theorem State.tx_cmd (s : State) (bs : List Byte) : (s.tx bs).cmd = s.cmd := rfl
@[simp] theorem State.tx_ram (s : State) (bs : List Byte) : (s.tx bs).ram = s.ram := rfl
@[simp] theorem State.tx_buf (s : State) (bs : List Byte) : (s.tx bs).buf = s.buf := rfl
@[simp] theorem State.tx_flash (s : State) (bs : List Byte) : (s.tx bs).flash = s.flash := rfl
@[simp] theorem State.tx_otp (s : State) (bs : List Byte) : (s.tx bs).otp = s.otp := rfl
@[simp] theorem State.tx_baud (s : State) (bs : List Byte) : (s.tx bs).baud = s.baud := rfl
@[simp] theorem State.tx_rxq (s : State) (bs : List Byte) : (s.tx bs).rxq = s.rxq := rfl
@[simp] theorem State.tx_txl (s : State) (bs : List Byte) : (s.tx bs).txl = s.txl ++ bs.map (fun b => (b, s.baud)) := rfl
@[simp] theorem State.tx_evl (s : State) (bs : List Byte) : (s.tx bs).evl = s.evl := rfl
@[simp] theorem State.tx_env (s : State) (bs : List Byte) : (s.tx bs).env = s.env := rfl
@[simp] theorem State.tx_answers (s : State) (bs : List Byte) : (s.tx bs).answers = s.answers := rfl
@[simp] theorem State.tx_draws (s : State) (bs : List Byte) : (s.tx bs).draws = s.draws := rfl

/-! ## `State.emit` -/

@[simp] theorem State.emit_cfg (s : State) (es : List Event) : (s.emit es).cfg = s.cfg := rfl
@[simp] theorem State.emit_ctl (s : State) (es : List Event) : (s.emit es).ctl = s.ctl := rfl
@[simp] theorem State.emit_cmd (s : State) (es : List Event) : (s.emit es).cmd = s.cmd := rfl
@[simp] theorem State.emit_ram (s : State) (es : List Event) : (s.emit es).ram = s.ram := rfl
@[simp] theorem State.emit_buf (s : State) (es : List Event) : (s.emit es).buf = s.buf := rfl
@[simp] theorem State.emit_flash (s : State) (es : List Event) : (s.emit es).flash = s.flash := rfl
@[simp] theorem State.emit_otp (s : State) (es : List Event) : (s.emit es).otp = s.otp := rfl
@[simp] theorem State.emit_baud (s : State) (es : List Event) : (s.emit es).baud = s.baud := rfl
@[simp] theorem State.emit_rxq (s : State) (es : List Event) : (s.emit es).rxq = s.rxq := rfl
@[simp] theorem State.emit_txl (s : State) (es : List Event) : (s.emit es).txl = s.txl := rfl
@[simp] theorem State.emit_evl (s : State) (es : List Event) : (s.emit es).evl = s.evl ++ es := rfl
@[simp] theorem State.emit_env (s : State) (es : List Event) : (s.emit es).env = s.env := rfl
@[simp] theorem State.emit_answers (s : State) (es : List Event) : (s.emit es).answers = s.answers := rfl
@[simp] theorem State.emit_draws (s : State) (es : List Event) : (s.emit es).draws = s.draws := rfl

/-! ## `State.popRx` -/

@[simp] theorem State.popRx_cfg (s : State) : (s.popRx).cfg = s.cfg := rfl
@[simp] theorem State.popRx_ctl (s : State) : (s.popRx).ctl = s.ctl := rfl
@[simp] theorem State.popRx_cmd (s : State) : (s.popRx).cmd = s.cmd := rfl
@[simp] theorem State.popRx_ram (s : State) : (s.popRx).ram = s.ram := rfl
@[simp] theorem State.popRx_buf (s : State) : (s.popRx).buf = s.buf := rfl
@[simp] theorem State.popRx_flash (s : State) : (s.popRx).flash = s.flash := rfl
@[simp] theorem State.popRx_otp (s : State) : (s.popRx).otp = s.otp := rfl
@[simp] theorem State.popRx_baud (s : State) : (s.popRx).baud = s.baud := rfl
@[simp] theorem State.popRx_rxq (s : State) : (s.popRx).rxq = s.rxq.tail := rfl
@[simp] theorem State.popRx_txl (s : State) : (s.popRx).txl = s.txl := rfl
@[simp] theorem State.popRx_evl (s : State) : (s.popRx).evl = s.evl := rfl
@[simp] theorem State.popRx_env (s : State) : (s.popRx).env = s.env := rfl
@[simp] theorem State.popRx_answers (s : State) : (s.popRx).answers = s.answers := rfl
@[simp] theorem State.popRx_draws (s : State) : (s.popRx).draws = s.draws := rfl

/-! ## `State.pushRx` -/

@[simp] theorem State.pushRx_cfg (s : State) (bs : List Byte) : (s.pushRx bs).cfg = s.cfg := rfl
@[simp] theorem State.pushRx_ctl (s : State) (bs : List Byte) : (s.pushRx bs).ctl = s.ctl := rfl
@[simp] theorem State.pushRx_cmd (s : State) (bs : List Byte) : (s.pushRx bs).cmd = s.cmd := rfl
@[simp] theorem State.pushRx_ram (s : State) (bs : List Byte) : (s.pushRx bs).ram = s.ram := rfl
@[simp] theorem State.pushRx_buf (s : State) (bs : List Byte) : (s.pushRx bs).buf = s.buf := rfl
@[simp] theorem State.pushRx_flash (s : State) (bs : List Byte) : (s.pushRx bs).flash = s.flash := rfl
@[simp] theorem State.pushRx_otp (s : State) (bs : List Byte) : (s.pushRx bs).otp = s.otp := rfl
@[simp] theorem State.pushRx_baud (s : State) (bs : List Byte) : (s.pushRx bs).baud = s.baud := rfl
@[simp] theorem State.pushRx_rxq (s : State) (bs : List Byte) : (s.pushRx bs).rxq = s.rxq ++ bs := rfl
@[simp] theorem State.pushRx_txl (s : State) (bs : List Byte) : (s.pushRx bs).txl = s.txl := rfl
@[simp] theorem State.pushRx_evl (s : State) (bs : List Byte) : (s.pushRx bs).evl = s.evl := rfl
@[simp] theorem State.pushRx_env (s : State) (bs : List Byte) : (s.pushRx bs).env = s.env := rfl
@[simp] theorem State.pushRx_answers (s : State) (bs : List Byte) : (s.pushRx bs).answers = s.answers := rfl
@[simp] theorem State.pushRx_draws (s : State) (bs : List Byte) : (s.pushRx bs).draws = s.draws := rfl

/-! ## `State.setBaud` -/

@[simp] theorem State.setBaud_cfg (s : State) (b : U32) : (s.setBaud b).cfg = s.cfg := rfl
@[simp] theorem State.setBaud_ctl (s : State) (b : U32) : (s.setBaud b).ctl = s.ctl := rfl
@[simp] theorem State.setBaud_cmd (s : State) (b : U32) : (s.setBaud b).cmd = s.cmd := rfl
@[simp] theorem State.setBaud_ram (s : State) (b : U32) : (s.setBaud b).ram = s.ram := rfl
@[simp] theorem State.setBaud_buf (s : State) (b : U32) : (s.setBaud b).buf = s.buf := rfl
@[simp] theorem State.setBaud_flash (s : State) (b : U32) : (s.setBaud b).flash = s.flash := rfl
@[simp] theorem State.setBaud_otp (s : State) (b : U32) : (s.setBaud b).otp = s.otp := rfl
@[simp] theorem State.setBaud_baud (s : State) (b : U32) : (s.setBaud b).baud = b := rfl
@[simp] theorem State.setBaud_rxq (s : State) (b : U32) : (s.setBaud b).rxq = s.rxq := rfl
@[simp] theorem State.setBaud_txl (s : State) (b : U32) : (s.setBaud b).txl = s.txl := rfl
@[simp] theorem State.setBaud_evl (s : State) (b : U32) : (s.setBaud b).evl = s.evl := rfl
@[simp] theorem State.setBaud_env (s : State) (b : U32) : (s.setBaud b).env = s.env := rfl
@[simp] theorem State.setBaud_answers (s : State) (b : U32) : (s.setBaud b).answers = s.answers := rfl
@[simp] theorem State.setBaud_draws (s : State) (b : U32) : (s.setBaud b).draws = s.draws := rfl

/-! ## `State.setRam` -/

@[simp] theorem State.setRam_cfg (s : State) (m : Memory) : (s.setRam m).cfg = s.cfg := rfl
@[simp] theorem State.setRam_ctl (s : State) (m : Memory) : (s.setRam m).ctl = s.ctl := rfl
@[simp] theorem State.setRam_cmd (s : State) (m : Memory) : (s.setRam m).cmd = s.cmd := rfl
@[simp] theorem State.setRam_ram (s : State) (m : Memory) : (s.setRam m).ram = m := rfl
@[simp] theorem State.setRam_buf (s : State) (m : Memory) : (s.setRam m).buf = s.buf := rfl
@[simp] theorem State.setRam_flash (s : State) (m : Memory) : (s.setRam m).flash = s.flash := rfl
@[simp] theorem State.setRam_otp (s : State) (m : Memory) : (s.setRam m).otp = s.otp := rfl
@[simp] theorem State.setRam_baud (s : State) (m : Memory) : (s.setRam m).baud = s.baud := rfl
@[simp] theorem State.setRam_rxq (s : State) (m : Memory) : (s.setRam m).rxq = s.rxq := rfl
@[simp] theorem State.setRam_txl (s : State) (m : Memory) : (s.setRam m).txl = s.txl := rfl
@[simp] theorem State.setRam_evl (s : State) (m : Memory) : (s.setRam m).evl = s.evl := rfl
@[simp] theorem State.setRam_env (s : State) (m : Memory) : (s.setRam m).env = s.env := rfl
@[simp] theorem State.setRam_answers (s : State) (m : Memory) : (s.setRam m).answers = s.answers := rfl
@[simp] theorem State.setRam_draws (s : State) (m : Memory) : (s.setRam m).draws = s.draws := rfl

/-! ## `State.setBuf` -/

@[simp] theorem State.setBuf_cfg (s : State) (m : Memory) : (s.setBuf m).cfg = s.cfg := rfl
@[simp] theorem State.setBuf_ctl (s : State) (m : Memory) : (s.setBuf m).ctl = s.ctl := rfl
@[simp] theorem State.setBuf_cmd (s : State) (m : Memory) : (s.setBuf m).cmd = s.cmd := rfl
@[simp] theorem State.setBuf_ram (s : State) (m : Memory) : (s.setBuf m).ram = s.ram := rfl
@[simp] theorem State.setBuf_buf (s : State) (m : Memory) : (s.setBuf m).buf = m := rfl
@[simp] theorem State.setBuf_flash (s : State) (m : Memory) : (s.setBuf m).flash = s.flash := rfl
@[simp] theorem State.setBuf_otp (s : State) (m : Memory) : (s.setBuf m).otp = s.otp := rfl
@[simp] theorem State.setBuf_baud (s : State) (m : Memory) : (s.setBuf m).baud = s.baud := rfl
@[simp] theorem State.setBuf_rxq (s : State) (m : Memory) : (s.setBuf m).rxq = s.rxq := rfl
@[simp] theorem State.setBuf_txl (s : State) (m : Memory) : (s.setBuf m).txl = s.txl := rfl
@[simp] theorem State.setBuf_evl (s : State) (m : Memory) : (s.setBuf m).evl = s.evl := rfl
@[simp] theorem State.setBuf_env (s : State) (m : Memory) : (s.setBuf m).env = s.env := rfl
@[simp] theorem State.setBuf_answers (s : State) (m : Memory) : (s.setBuf m).answers = s.answers := rfl
@[simp] theorem State.setBuf_draws (s : State) (m : Memory) : (s.setBuf m).draws = s.draws := rfl

/-! ## `State.setFlash` -/

@[simp] theorem State.setFlash_cfg (s : State) (m : Memory) : (s.setFlash m).cfg = s.cfg := rfl
@[simp] theorem State.setFlash_ctl (s : State) (m : Memory) : (s.setFlash m).ctl = s.ctl := rfl
@[simp] theorem State.setFlash_cmd (s : State) (m : Memory) : (s.setFlash m).cmd = s.cmd := rfl
@[simp] theorem State.setFlash_ram (s : State) (m : Memory) : (s.setFlash m).ram = s.ram := rfl
@[simp] theorem State.setFlash_buf (s : State) (m : Memory) : (s.setFlash m).buf = s.buf := rfl
@[simp] theorem State.setFlash_flash (s : State) (m : Memory) : (s.setFlash m).flash = m := rfl
@[simp] theorem State.setFlash_otp (s : State) (m : Memory) : (s.setFlash m).otp = s.otp := rfl
@[simp] theorem State.setFlash_baud (s : State) (m : Memory) : (s.setFlash m).baud = s.baud := rfl
@[simp] theorem State.setFlash_rxq (s : State) (m : Memory) : (s.setFlash m).rxq = s.rxq := rfl
@[simp] theorem State.setFlash_txl (s : State) (m : Memory) : (s.setFlash m).txl = s.txl := rfl
@[simp] theorem State.setFlash_evl (s : State) (m : Memory) : (s.setFlash m).evl = s.evl := rfl
@[simp] theorem State.setFlash_env (s : State) (m : Memory) : (s.setFlash m).env = s.env := rfl
@[simp] theorem State.setFlash_answers (s : State) (m : Memory) : (s.setFlash m).answers = s.answers := rfl
@[simp] theorem State.setFlash_draws (s : State) (m : Memory) : (s.setFlash m).draws = s.draws := rfl

/-! ## `State.setOtp` -/

@[simp] theorem State.setOtp_cfg (s : State) (m : Memory) : (s.setOtp m).cfg = s.cfg := rfl
@[simp] theorem State.setOtp_ctl (s : State) (m : Memory) : (s.setOtp m).ctl = s.ctl := rfl
@[simp] theorem State.setOtp_cmd (s : State) (m : Memory) : (s.setOtp m).cmd = s.cmd := rfl
@[simp] theorem State.setOtp_ram (s : State) (m : Memory) : (s.setOtp m).ram = s.ram := rfl
@[simp] theorem State.setOtp_buf (s : State) (m : Memory) : (s.setOtp m).buf = s.buf := rfl
@[simp] theorem State.setOtp_flash (s : State) (m : Memory) : (s.setOtp m).flash = s.flash := rfl
@[simp] theorem State.setOtp_otp (s : State) (m : Memory) : (s.setOtp m).otp = m := rfl
@[simp] theorem State.setOtp_baud (s : State) (m : Memory) : (s.setOtp m).baud = s.baud := rfl
@[simp] theorem State.setOtp_rxq (s : State) (m : Memory) : (s.setOtp m).rxq = s.rxq := rfl
@[simp] theorem State.setOtp_txl (s : State) (m : Memory) : (s.setOtp m).txl = s.txl := rfl
@[simp] theorem State.setOtp_evl (s : State) (m : Memory) : (s.setOtp m).evl = s.evl := rfl
@[simp] theorem State.setOtp_env (s : State) (m : Memory) : (s.setOtp m).env = s.env := rfl
@[simp] theorem State.setOtp_answers (s : State) (m : Memory) : (s.setOtp m).answers = s.answers := rfl
@[simp] theorem State.setOtp_draws (s : State) (m : Memory) : (s.setOtp m).draws = s.draws := rfl

/-! ## `State.setEnv` -/

@[simp] theorem State.setEnv_cfg (s : State) (es : List EnvEvent) : (s.setEnv es).cfg = s.cfg := rfl
@[simp] theorem State.setEnv_ctl (s : State) (es : List EnvEvent) : (s.setEnv es).ctl = s.ctl := rfl
@[simp] theorem State.setEnv_cmd (s : State) (es : List EnvEvent) : (s.setEnv es).cmd = s.cmd := rfl
@[simp] theorem State.setEnv_ram (s : State) (es : List EnvEvent) : (s.setEnv es).ram = s.ram := rfl
@[simp] theorem State.setEnv_buf (s : State) (es : List EnvEvent) : (s.setEnv es).buf = s.buf := rfl
@[simp] theorem State.setEnv_flash (s : State) (es : List EnvEvent) : (s.setEnv es).flash = s.flash := rfl
@[simp] theorem State.setEnv_otp (s : State) (es : List EnvEvent) : (s.setEnv es).otp = s.otp := rfl
@[simp] theorem State.setEnv_baud (s : State) (es : List EnvEvent) : (s.setEnv es).baud = s.baud := rfl
@[simp] theorem State.setEnv_rxq (s : State) (es : List EnvEvent) : (s.setEnv es).rxq = s.rxq := rfl
@[simp] theorem State.setEnv_txl (s : State) (es : List EnvEvent) : (s.setEnv es).txl = s.txl := rfl
@[simp] theorem State.setEnv_evl (s : State) (es : List EnvEvent) : (s.setEnv es).evl = s.evl := rfl
@[simp] theorem State.setEnv_env (s : State) (es : List EnvEvent) : (s.setEnv es).env = es := rfl
@[simp] theorem State.setEnv_answers (s : State) (es : List EnvEvent) : (s.setEnv es).answers = s.answers := rfl
@[simp] theorem State.setEnv_draws (s : State) (es : List EnvEvent) : (s.setEnv es).draws = s.draws := rfl

/-! ## A draw of a collaborator: only `answers` and `draws` change -/

@[simp] theorem State.afterDraw_cfg (s : State) : s.afterDraw.cfg = s.cfg := by
  unfold State.afterDraw; split <;> rfl
@[simp] theorem State.afterDraw_ctl (s : State) : s.afterDraw.ctl = s.ctl := by
  unfold State.afterDraw; split <;> rfl
@[simp] theorem State.afterDraw_cmd (s : State) : s.afterDraw.cmd = s.cmd := by
  unfold State.afterDraw; split <;> rfl
@[simp] theorem State.afterDraw_ram (s : State) : s.afterDraw.ram = s.ram := by
  unfold State.afterDraw; split <;> rfl
@[simp] theorem State.afterDraw_buf (s : State) : s.afterDraw.buf = s.buf := by
  unfold State.afterDraw; split <;> rfl
@[simp] theorem State.afterDraw_flash (s : State) : s.afterDraw.flash = s.flash := by
  unfold State.afterDraw; split <;> rfl
@[simp] theorem State.afterDraw_otp (s : State) : s.afterDraw.otp = s.otp := by
  unfold State.afterDraw; split <;> rfl
@[simp] theorem State.afterDraw_baud (s : State) : s.afterDraw.baud = s.baud := by
  unfold State.afterDraw; split <;> rfl
@[simp] theorem State.afterDraw_rxq (s : State) : s.afterDraw.rxq = s.rxq := by
  unfold State.afterDraw; split <;> rfl
@[simp] theorem State.afterDraw_txl (s : State) : s.afterDraw.txl = s.txl := by
  unfold State.afterDraw; split <;> rfl
@[simp] theorem State.afterDraw_evl (s : State) : s.afterDraw.evl = s.evl := by
  unfold State.afterDraw; split <;> rfl
@[simp] theorem State.afterDraw_env (s : State) : s.afterDraw.env = s.env := by
  unfold State.afterDraw; split <;> rfl
@[simp] theorem State.afterFault_cfg (s : State) : s.afterFault.cfg = s.cfg := by
  unfold State.afterFault; split <;> simp
@[simp] theorem State.afterFault_ctl (s : State) : s.afterFault.ctl = s.ctl := by
  unfold State.afterFault; split <;> simp
@[simp] theorem State.afterFault_cmd (s : State) : s.afterFault.cmd = s.cmd := by
  unfold State.afterFault; split <;> simp
@[simp] theorem State.afterFault_ram (s : State) : s.afterFault.ram = s.ram := by
  unfold State.afterFault; split <;> simp
@[simp] theorem State.afterFault_buf (s : State) : s.afterFault.buf = s.buf := by
  unfold State.afterFault; split <;> simp
@[simp] theorem State.afterFault_flash (s : State) : s.afterFault.flash = s.flash := by
  unfold State.afterFault; split <;> simp
@[simp] theorem State.afterFault_otp (s : State) : s.afterFault.otp = s.otp := by
  unfold State.afterFault; split <;> simp
@[simp] theorem State.afterFault_baud (s : State) : s.afterFault.baud = s.baud := by
  unfold State.afterFault; split <;> simp
@[simp] theorem State.afterFault_rxq (s : State) : s.afterFault.rxq = s.rxq := by
  unfold State.afterFault; split <;> simp
@[simp] theorem State.afterFault_txl (s : State) : s.afterFault.txl = s.txl := by
  unfold State.afterFault; split <;> simp
@[simp] theorem State.afterFault_evl (s : State) : s.afterFault.evl = s.evl := by
  unfold State.afterFault; split <;> simp
@[simp] theorem State.afterFault_env (s : State) : s.afterFault.env = s.env := by
  unfold State.afterFault; split <;> simp

/-! ## RESET -/

@[simp] theorem resetState_cfg (ram buf : List Host.Cell) (s : State) :
    (resetState ram buf s).cfg = s.cfg := rfl
@[simp] theorem resetState_ctl (ram buf : List Host.Cell) (s : State) :
    (resetState ram buf s).ctl = .announce := rfl
@[simp] theorem resetState_cmd (ram buf : List Host.Cell) (s : State) :
    (resetState ram buf s).cmd = none := rfl
@[simp] theorem resetState_ram (ram buf : List Host.Cell) (s : State) :
    (resetState ram buf s).ram = Memory.ofCells Space.ram.blank (ramCells s.cfg ram) := rfl
@[simp] theorem resetState_buf (ram buf : List Host.Cell) (s : State) :
    (resetState ram buf s).buf = Memory.ofCells Space.buf.blank (bufCells s.cfg buf) := rfl
@[simp] theorem resetState_flash (ram buf : List Host.Cell) (s : State) :
    (resetState ram buf s).flash = s.flash := rfl
@[simp] theorem resetState_otp (ram buf : List Host.Cell) (s : State) :
    (resetState ram buf s).otp = s.otp := rfl
@[simp] theorem resetState_baud (ram buf : List Host.Cell) (s : State) :
    (resetState ram buf s).baud = s.cfg.baudInit := rfl
@[simp] theorem resetState_rxq (ram buf : List Host.Cell) (s : State) :
    (resetState ram buf s).rxq = [] := rfl
@[simp] theorem resetState_txl (ram buf : List Host.Cell) (s : State) :
    (resetState ram buf s).txl = s.txl := rfl
@[simp] theorem resetState_evl (ram buf : List Host.Cell) (s : State) :
    (resetState ram buf s).evl = s.evl := rfl
@[simp] theorem resetState_env (ram buf : List Host.Cell) (s : State) :
    (resetState ram buf s).env = s.env := rfl
@[simp] theorem resetState_answers (ram buf : List Host.Cell) (s : State) :
    (resetState ram buf s).answers = s.answers := rfl
@[simp] theorem resetState_draws (ram buf : List Host.Cell) (s : State) :
    (resetState ram buf s).draws = s.draws := rfl

end Sys2Proof.Machine
end

