-- ==== Sys2Proof/Laws/HostProc.lean ====
section
/-! SUPPORT. The small lemmas of the host-side procedures. -/

namespace Sys2Proof.Machine

/-- A run goes on exactly when the first part answers. -/
theorem andThen_next {α β : Type} {r : HostRun α} {k : α → HostRun β} {b : β} :
    andThen r k = .next b ↔ ∃ a, r = .next a ∧ k a = .next b := by
  cases r <;> simp [andThen]

@[simp] theorem andThen_of_next {α β : Type} (a : α) (k : α → HostRun β) : andThen (.next a) k = k a := rfl

/-- What the host sends only joins the environment's events. -/
theorem State.deliver_eq (s : State) (bytes : List Byte) (es : List EnvEvent) :
    s.deliver bytes es = { s with env := s.env ++ bytes.map (fun b => .host b s.baud []) ++ es } := rfl

@[simp] theorem State.deliver_nothing (s : State) : s.deliver [] [] = s := by simp [State.deliver_eq]

/-- A row the block answers: what the host does depends on the first byte alone. -/
theorem onAnswer_cons (b : Byte) (new : List Byte) (ack : HostMove) (reason : Abort) :
    onAnswer (b :: new) ack reason = if b = ACK then ack else .done (.aborted (if b = NAK then reason else .timeout)) := rfl

/-- The guarded OTP write that has ended sends nothing more. -/
@[simp] theorem otpRun_done (w : Nat) (tgt : List Nat) (wildcard : Bool) (scheds : List Schedule) (greeted : Bool)
    (o : OtpOutcome) (s : State) : otpRun w tgt wildcard scheds greeted (.done o) s = .next (.done o, s) := by
  cases scheds <;> rfl

/-- The remainder of a sector, past an address in it (20_memory.md R59). -/
theorem sector_rest {cfg : Config} (h : 0 < cfg.sectorSize) (a : Nat) :
    sectorOf cfg a ≤ a ∧ a < sectorOf cfg a + cfg.sectorSize := by
  have := Nat.mod_lt a h
  have := Nat.mod_le a cfg.sectorSize
  unfold sectorOf
  omega

/-- A chunk is never empty, never longer than the chunk size or the data left, and in flash never leaves its sector
(70_reset_and_hazards.md R351). -/
theorem chunkedLen_spec {cfg : Config} {p : ChunkedWrite} {off : Nat} (hs : 0 < cfg.sectorSize) (hw : p.wf cfg = true)
    (ho : off < p.data.length) :
    0 < chunkedLen cfg p off ∧ chunkedLen cfg p off ≤ p.size ∧ off + chunkedLen cfg p off ≤ p.data.length ∧
      (p.kind.isFlash = true → p.addr + off + chunkedLen cfg p off ≤ sectorOf cfg (p.addr + off) + cfg.sectorSize) := by
  have h := sector_rest hs (p.addr + off)
  simp only [ChunkedWrite.wf, Bool.and_eq_true, decide_eq_true_eq] at hw
  cases hf : p.kind.isFlash <;> simp only [chunkedLen, hf, if_true, Bool.false_eq_true, if_false, false_implies, and_true] <;>
    omega

end Sys2Proof.Machine
end

