-- ==== Sys2Proof/Laws/Memory.lean ====
section
/-! SUPPORT. The laws of a memory: read after write, and the canonical form kept by every memory operation. -/

namespace Sys2Proof.Machine

/-! ## The entries written -/

/-- Every entry of `cellsFrom` lies in the range written and is not blank. -/
theorem Memory.mem_cellsFrom {blank : Byte} {v : List Byte} {a : Nat} {c : Host.Cell}
    (h : c ∈ Memory.cellsFrom blank a v) : a ≤ c.1 ∧ c.1 < a + v.length ∧ c.2 ≠ blank := by
  induction v generalizing a with
  | nil => simp [Memory.cellsFrom] at h
  | cons b bs ih =>
    simp only [Memory.cellsFrom] at h
    split at h
    · have := ih h
      exact ⟨by omega, by simp only [List.length_cons]; omega, this.2.2⟩
    · rename_i hb
      rcases List.mem_cons.mp h with rfl | h
      · exact ⟨Nat.le_refl _, by simp, hb⟩
      · have := ih h
        exact ⟨by omega, by simp only [List.length_cons]; omega, this.2.2⟩

/-- The entries written rise strictly. -/
theorem Memory.cellsFrom_sorted (blank : Byte) (v : List Byte) (a : Nat) :
    (Memory.cellsFrom blank a v).Pairwise (fun x y => x.1 < y.1) := by
  induction v generalizing a with
  | nil => simp [Memory.cellsFrom]
  | cons b bs ih =>
    simp only [Memory.cellsFrom]
    split
    · exact ih _
    · exact List.pairwise_cons.mpr ⟨fun c hc => by have := Memory.mem_cellsFrom hc; simp only; omega, ih _⟩

/-- What the entries written read as. -/
theorem Memory.read_cellsFrom (blank : Byte) (v : List Byte) (a x : Nat) :
    Memory.read blank (Memory.cellsFrom blank a v) x = if a ≤ x ∧ x < a + v.length then v.getD (x - a) blank else blank := by
  induction v generalizing a with
  | nil => simp [Memory.cellsFrom, Memory.read]
  | cons b bs ih =>
    have step : Memory.read blank (Memory.cellsFrom blank a (b :: bs)) x =
        if a = x then b else Memory.read blank (Memory.cellsFrom blank (a + 1) bs) x := by
      simp only [Memory.cellsFrom]
      split
      · rename_i hb
        split
        · rename_i hx
          rw [ih, if_neg (by omega)]
          exact hb.symm
        · rfl
      · by_cases hx : a = x
        · simp [Memory.read, hx]
        · have : (a == x) = false := by simp [hx]
          simp [Memory.read, hx]
    rw [step, ih]
    by_cases hx : a = x
    · subst hx; simp
    · rw [if_neg hx]
      by_cases hr : a + 1 ≤ x ∧ x < a + 1 + bs.length
      · rw [if_pos hr, if_pos (by simp only [List.length_cons]; omega)]
        have : x - a = (x - (a + 1)) + 1 := by omega
        rw [this, List.getD_cons_succ]
      · rw [if_neg hr, if_neg (by simp only [List.length_cons]; omega)]

/-! ## Reading -/

/-- A filter by address leaves the reading of an address it keeps. -/
theorem Memory.find?_filter (m : Memory) (p : Nat → Bool) (x : Nat) :
    (m.filter (fun c => p c.1)).find? (fun c => c.1 == x) = if p x then m.find? (fun c => c.1 == x) else none := by
  induction m with
  | nil => simp
  | cons c cs ih =>
    by_cases hc : c.1 = x
    · subst hc
      cases hp : p c.1
      · simp [hp] at ih ⊢
        exact ih
      · simp [hp]
    · have hb : (c.1 == x) = false := by simp [hc]
      cases hp : p c.1 <;> simp [hp, hb, ih]

/-- **Read after write.** -/
theorem Memory.read_writeBytes (blank : Byte) (m : Memory) (a : Nat) (v : List Byte) (x : Nat) :
    Memory.read blank (Memory.writeBytes blank m a v) x =
      if a ≤ x ∧ x < a + v.length then v.getD (x - a) blank else Memory.read blank m x := by
  have lo := Memory.find?_filter m (fun k => decide (k < a)) x
  have hi := Memory.find?_filter m (fun k => decide (a + v.length ≤ k)) x
  have cells := Memory.read_cellsFrom blank v a x
  have out : ¬(a ≤ x ∧ x < a + v.length) → (Memory.cellsFrom blank a v).find? (fun c => c.1 == x) = none := by
    intro h
    rw [List.find?_eq_none]
    intro c hc
    have := Memory.mem_cellsFrom hc
    simp only [beq_iff_eq]; omega
  simp only [decide_eq_true_eq] at lo hi
  simp only [Memory.read, Memory.writeBytes, List.find?_append] at cells ⊢
  by_cases hin : a ≤ x ∧ x < a + v.length
  · rw [lo, hi, if_neg (by omega), if_neg (by omega), if_pos hin]
    rw [if_pos hin] at cells
    simpa using cells
  · rw [if_neg hin, out hin, lo, hi]
    by_cases hlo : x < a
    · rw [if_pos hlo, if_neg (by omega)]; simp
    · rw [if_neg hlo, if_pos (by omega)]; simp

/-- The bytes of a range, one by one. -/
theorem Memory.readBytes_getD (blank : Byte) (m : Memory) (a n i : Nat) (d : Byte) (h : i < n) :
    (Memory.readBytes blank m a n).getD i d = Memory.read blank m (a + i) := by
  simp [Memory.readBytes, List.getD_eq_getElem?_getD, h]

/-- A range of `n` bytes has `n` bytes. -/
@[simp] theorem Memory.readBytes_length (blank : Byte) (m : Memory) (a n : Nat) :
    (Memory.readBytes blank m a n).length = n := by simp [Memory.readBytes]

/-! ## The canonical form -/

/-- A write keeps the canonical form. -/
theorem Memory.writeBytes_wf {blank : Byte} {m : Memory} (h : Memory.wf blank m) (a : Nat) (v : List Byte) :
    Memory.wf blank (Memory.writeBytes blank m a v) := by
  refine ⟨?_, ?_⟩
  · unfold Memory.writeBytes
    refine List.pairwise_append.mpr ⟨List.pairwise_append.mpr ⟨h.1.filter _, Memory.cellsFrom_sorted _ _ _, ?_⟩,
      h.1.filter _, ?_⟩
    · intro x hx y hy
      have := Memory.mem_cellsFrom hy
      have hx := (List.mem_filter.mp hx).2
      simp only [decide_eq_true_eq] at hx
      omega
    · intro x hx y hy
      have hy := (List.mem_filter.mp hy).2
      simp only [decide_eq_true_eq] at hy
      rcases List.mem_append.mp hx with hx | hx
      · have hx := (List.mem_filter.mp hx).2
        simp only [decide_eq_true_eq] at hx
        omega
      · have := Memory.mem_cellsFrom hx
        omega
  · intro c hc
    unfold Memory.writeBytes at hc
    rcases List.mem_append.mp hc with hc | hc
    · rcases List.mem_append.mp hc with hc | hc
      · exact h.2 c (List.mem_filter.mp hc).1
      · exact (Memory.mem_cellsFrom hc).2.2
    · exact h.2 c (List.mem_filter.mp hc).1

/-- Bytes laid out from an address on are in canonical form. -/
theorem Memory.cellsFrom_wf (blank : Byte) (a : Nat) (v : List Byte) : Memory.wf blank (Memory.cellsFrom blank a v) :=
  ⟨Memory.cellsFrom_sorted _ _ _, fun _ hc => (Memory.mem_cellsFrom hc).2.2⟩

/-- The empty memory is in canonical form. -/
theorem Memory.nil_wf (blank : Byte) : Memory.wf blank [] := by simp [Memory.wf]

/-- A memory built from cells is in canonical form, whatever the cells. -/
theorem Memory.ofCells_wf (blank : Byte) (cells : List Host.Cell) : Memory.wf blank (Memory.ofCells blank cells) := by
  have : ∀ (m : Memory), Memory.wf blank m →
      Memory.wf blank (cells.foldl (fun m c => Memory.writeBytes blank m c.1 [c.2]) m) := by
    induction cells with
    | nil => exact fun m h => h
    | cons c cs ih => exact fun m h => ih _ (Memory.writeBytes_wf h _ _)
  exact this [] (Memory.nil_wf blank)

/-- Every entry of a written memory is an old one outside the range or lies in the range. -/
theorem Memory.mem_writeBytes {blank : Byte} {m : Memory} {a : Nat} {v : List Byte} {c : Host.Cell}
    (h : c ∈ Memory.writeBytes blank m a v) : c ∈ m ∨ (a ≤ c.1 ∧ c.1 < a + v.length) := by
  unfold Memory.writeBytes at h
  rcases List.mem_append.mp h with h | h
  · rcases List.mem_append.mp h with h | h
    · exact .inl (List.mem_filter.mp h).1
    · have := Memory.mem_cellsFrom h
      exact .inr ⟨this.1, this.2.1⟩
  · exact .inl (List.mem_filter.mp h).1

/-- Every entry of a memory built from cells lies at one of their addresses. -/
theorem Memory.mem_ofCells {blank : Byte} {cells : List Host.Cell} {c : Host.Cell}
    (h : c ∈ Memory.ofCells blank cells) : ∃ d ∈ cells, d.1 = c.1 := by
  have : ∀ (m : Memory), c ∈ cells.foldl (fun m c => Memory.writeBytes blank m c.1 [c.2]) m →
      c ∈ m ∨ ∃ d ∈ cells, d.1 = c.1 := by
    clear h
    induction cells with
    | nil => exact fun m h => .inl h
    | cons d ds ih =>
      intro m h
      rcases ih _ h with h | ⟨e, he, hc⟩
      · rcases Memory.mem_writeBytes h with h | h
        · exact .inl h
        · exact .inr ⟨d, List.mem_cons_self, by simp only [List.length_singleton] at h; omega⟩
      · exact .inr ⟨e, List.mem_cons_of_mem _ he, hc⟩
  rcases this [] h with h | h
  · simp at h
  · exact h

/-- The memory after reset is in canonical form, in all four spaces. -/
theorem State.reset_memWF : Memory.wf Space.ram.blank State.reset.ram ∧ Memory.wf Space.buf.blank State.reset.buf ∧
    Memory.wf Space.flash.blank State.reset.flash ∧ Memory.wf Space.otp.blank State.reset.otp :=
  ⟨Memory.nil_wf _, Memory.nil_wf _, Memory.nil_wf _, Memory.nil_wf _⟩

end Sys2Proof.Machine
end

