-- ==== Sys2Proof/Laws/Ops.lean ====
section
/-! SUPPORT. For each shared operation one lemma that says once everything it can do; later proofs cite these and unfold
none of them. -/

namespace Sys2Proof.Machine

/-! ## Reading fields -/

/-- A stage that reads a field runs on exactly when the field is defined. -/
theorem need_next {α : Type} {o : Option α} {k : α → Res} {t : State} :
    need o k = .next t ↔ ∃ a, o = some a ∧ k a = .next t := by
  cases o <;> simp [need]

@[simp] theorem need_some {α : Type} (a : α) (k : α → Res) : need (some a) k = k a := rfl

/-! ## Abort, start, completion, timeout -/

/-- An abort is a next state: the code's byte sent, no record, `S_WAIT_SOH`. -/
theorem raiseAbort_eq (code : Abort) (s : State) :
    raiseAbort code s = .next { s with ctl := .waitSoh, cmd := none, txl := s.txl ++ s.sent code.sent } := rfl

/-- The start of a command. -/
theorem startCommand_eq (s : State) :
    startCommand s = .next { s with ctl := .typ, cmd := some (freshCmd s.cfg) } := rfl

/-- Completion: no record, `S_WAIT_SOH`, a pending rate applied. -/
theorem complete_eq (c : Cmd) (s : State) :
    complete c s = .next { s with ctl := .waitSoh, cmd := none, baud := c.newBaud.getD s.baud } := by
  unfold complete; cases c.newBaud <;> rfl

/-- A timeout where one is enabled, and elsewhere nothing. -/
theorem timeoutEvent_eq (s : State) :
    timeoutEvent s = .next (if s.ctl.bounded = true ∧ s.rxq = [] then
      { s with ctl := if s.ctl = .waitSoh then .announce else .waitSoh, cmd := none } else s) := by
  unfold timeoutEvent
  by_cases hb : s.ctl.bounded = true <;> by_cases hr : s.rxq = []
  · by_cases hw : s.ctl = .waitSoh
    · simp [hr, hw, State.enter, Ctl.bounded]
    · have : s.txl ++ s.sent Abort.timeout.sent = s.txl := by simp [State.sent, Abort.sent]
      simp [hb, hr, hw, raiseAbort_eq, this]
  all_goals simp [hb, hr]

/-! ## The collaborators' draws -/

/-- A draw with an answer of the environment at hand. -/
theorem State.drawn_cons {s : State} {q : List Byte} {as : List (List Byte)} (h : s.answers = q :: as) :
    s.drawn = q ∧ s.afterDraw = { s with answers := as } := by
  simp [State.drawn, State.afterDraw, h]

/-- Without storage faults a program or erase leaves exactly what it should, and draws nothing. -/
theorem State.disturbed_normal {s : State} (h : s.cfg.storageFaults = false) (v : List Byte) :
    s.disturbed v = v ∧ s.afterFault = s := by
  simp [State.disturbed, State.afterFault, h]

/-- What a disturbed primitive leaves has the length of its range. -/
@[simp] theorem overlay_length (left normal : List Byte) : (overlay left normal).length = normal.length := by
  simp [overlay]; omega

@[simp] theorem State.disturbed_length (s : State) (v : List Byte) : (s.disturbed v).length = v.length := by
  unfold State.disturbed; split <;> simp

/-! ## The handlers and the command rows -/

/-- Each command's handler is its own. -/
@[simp] theorem handlerOf_name (n : Command) : (handlerOf n).name = n := by cases n <;> rfl

/-- Every command row runs the shared step under its handler. -/
theorem exec_toInstr (n : Command) (s : State) : exec n.toInstr s = commandStep (handlerOf n) s := by
  cases n <;> rfl

/-- The instruction of a command names that command. -/
@[simp] theorem Command.toInstr_command? (n : Command) : n.toInstr.command? = some n := by cases n <;> rfl

/-! ## One step of a command -/

/-- In `S_EXEC` a command performs the next entry of its queue. -/
theorem exec_executing {s : State} {c : Cmd} {n : Command} {f : HdrFields Tagged} {xq : List ExecOp}
    (h : s.Executing c n f xq) : exec n.toInstr s = runExec (handlerOf n) f xq c s := by
  rw [exec_toInstr]
  simp [commandStep, inFlight, h.ctl, h.cmd, h.name, h.fields, h.queue, execStep]

/-- At a wait of a command after the lookup, the byte at the head of `RXQ` goes to the command. -/
theorem exec_waiting {s : State} {k : Ctl} {c : Cmd} {n : Command} {b : Byte} {r : List Byte}
    (h : s.Waiting k c n b r) (hl : k ≠ .lenHi) (hx : k ≠ .exec) :
    exec n.toInstr s = commandByte (handlerOf n) b c s := by
  rw [exec_toInstr]
  simp [commandStep, inFlight, h.ctl, h.cmd, h.name, h.rx, hl, hx]

/-- In `S_LEN_HI` the byte goes to the command the type byte selects. -/
theorem exec_lookup {s : State} {c : Cmd} {n : Command} {b : Byte} {r : List Byte} (hk : s.ctl = .lenHi)
    (hc : s.cmd = some c) (hn : c.typ.bind s.cfg.dispatch = some n) (hr : s.rxq = b :: r) :
    exec n.toInstr s = lenHiByte (handlerOf n) b c s := by
  rw [exec_toInstr]
  simp [commandStep, inFlight, hk, hc, hn, hr, commandByte]

/-- Whatever answers a next state in a command's step was in flight. -/
theorem commandStep_next {h : Handler} {s t : State} (e : commandStep h s = .next t) :
    ∃ c, s.cmd = some c ∧ inFlight s.cfg s.ctl h.name c = true ∧
      ((s.ctl = .exec ∧ execStep h c s = .next t) ∨
       (s.ctl ≠ .exec ∧ ∃ b r, s.rxq = b :: r ∧ commandByte h b c s = .next t) ∨
       (s.ctl ≠ .exec ∧ s.rxq = [] ∧ t = s)) := by
  obtain ⟨c, hc, e⟩ := need_next.mp e
  refine ⟨c, hc, ?_⟩
  split at e
  · rename_i hf
    refine ⟨hf, ?_⟩
    split at e
    · rename_i hx
      exact .inl ⟨hx, e⟩
    · rename_i hx
      split at e
      · rename_i b r hr
        exact .inr (.inl ⟨hx, b, r, hr, e⟩)
      · rename_i hr
        exact .inr (.inr ⟨hx, hr, by cases e; rfl⟩)
  · cases e

/-! ## Exec -/

/-- The pure entries of a queue: they take no exec-step of their own (41_framing_fsm.md R154, R155). -/
def ExecOp.pure : ExecOp → Bool
  | .setBaud _ | .gpio _ | .check _ _ => true
  | .write _ _ | .copy _ _ _ | .chunk _ _ | .sector _ _ | .flashWrite _ _ | .erase _ | .chipErase | .program _ _
  | .verify _ _ => false

/-- One storage primitive is one exec-step. -/
theorem runExec_primitive (h : Handler) (f : HdrFields Tagged) {op : ExecOp} (rest : List ExecOp) (c : Cmd) {s t : State}
    {more : List ExecOp} (hp : op.pure = false) (e : perform op s = some (t, more)) :
    runExec h f (op :: rest) c s = .next (t.enter .exec (some { c with xq := some (more ++ rest) })) := by
  cases op <;> simp_all [runExec, ExecOp.pure]

/-- A primitive outside its precondition stops the model. -/
theorem runExec_outOfRange (h : Handler) (f : HdrFields Tagged) {op : ExecOp} (rest : List ExecOp) (c : Cmd) {s : State}
    (hp : op.pure = false) (e : perform op s = none) : runExec h f (op :: rest) c s = .fault .outOfRange := by
  cases op <;> simp_all [runExec, ExecOp.pure]

@[simp] theorem runExec_setBaud (h : Handler) (f : HdrFields Tagged) (b : U32) (rest : List ExecOp) (c : Cmd) (s : State) :
    runExec h f (.setBaud b :: rest) c s = runExec h f rest { c with newBaud := some b } s := rfl

@[simp] theorem runExec_gpio (h : Handler) (f : HdrFields Tagged) (v : Byte) (rest : List ExecOp) (c : Cmd) (s : State) :
    runExec h f (.gpio v :: rest) c s = runExec h f rest c (s.emit [.gpioWd v]) := rfl

/-- The verify result is produced and consumed in one step: the program goes on, or the command aborts. -/
@[simp] theorem runExec_check (h : Handler) (f : HdrFields Tagged) (read data : List Byte) (rest : List ExecOp) (c : Cmd)
    (s : State) : runExec h f (.check read data :: rest) c s =
      if read = data then runExec h f rest c s else raiseAbort .execFail s := rfl

@[simp] theorem runExec_nil (h : Handler) (f : HdrFields Tagged) (c : Cmd) (s : State) :
    runExec h f [] c s = execDone h f c s := rfl

/-- Everything a primitive can do to the state: it changes no field but the storage it names, the log and the draws. -/
theorem perform_frame {op : ExecOp} {s t : State} {more : List ExecOp} (e : perform op s = some (t, more)) :
    t.cfg = s.cfg ∧ t.ctl = s.ctl ∧ t.cmd = s.cmd ∧ t.baud = s.baud ∧ t.rxq = s.rxq ∧ t.txl = s.txl ∧ t.env = s.env ∧
      ∃ es, t.evl = s.evl ++ es := by
  cases op <;> simp only [perform, Option.ite_none_right_eq_some, Option.some.injEq, Prod.mk.injEq] at e
  case write a v => obtain ⟨-, rfl, -⟩ := e; cases a <;> simp [State.writeTagged]
  case copy | chunk | sector | verify => obtain ⟨-, rfl, -⟩ := e; simp
  case flashWrite | erase | program =>
    obtain ⟨-, rfl, -⟩ := e; simp [State.programFlash, State.eraseSector, State.programCell]
  case chipErase => obtain ⟨rfl, -⟩ := e; simp [State.eraseChip]
  case setBaud | gpio | check => obtain ⟨rfl, -⟩ := e; simp

/-- The end of an `Exec` that returned true: the jump of RUN, the response length, or completion. -/
theorem execDone_eq (h : Handler) (f : HdrFields Tagged) (c : Cmd) (s : State) :
    execDone h f c s =
      match h.jump f with
      | some target =>
        .next { s with ctl := .jumped, cmd := none, txl := s.txl ++ s.sent [ACK], evl := s.evl ++ [.jump target] }
      | none =>
        if h.name.hasResponse then startResponse h f c (s.tx [ACK])
        else .next { s with ctl := .waitSoh, cmd := none, txl := s.txl ++ s.sent [ACK], baud := c.newBaud.getD s.baud } := by
  unfold execDone
  cases h.jump f with
  | some target => rfl
  | none =>
    simp only
    split
    · rfl
    · rw [complete_eq]; rfl

/-- A primitive neither reads nor writes the record. -/
theorem perform_cmd (op : ExecOp) (s : State) (y : Option Cmd) :
    perform op { s with cmd := y } = (perform op s).map (fun p => ({ p.1 with cmd := y }, p.2)) := by
  cases op <;> simp only [perform] <;> (try split) <;> simp_all [State.readFlash, State.readTagged, State.emit]
  case write.isTrue a v _ => cases a <;> rfl
  case copy.isTrue a _ _ _ => cases a <;> simp [State.readRam, State.readBuf]
  case flashWrite.isTrue | erase.isTrue | chipErase | program.isTrue =>
    simp only [State.programFlash, State.eraseSector, State.eraseChip, State.programCell, State.disturbed, State.afterFault,
      State.drawn, State.afterDraw, State.readFlash, State.readCell, State.setFlash, State.setOtp, State.emit]
    split <;> (try split) <;> simp_all

/-- What an exec-step of a command without a response does depends on the rest of its queue, not on the record's copy of it. -/
theorem runExec_record {h : Handler} (hr : h.name.hasResponse = false) (f : HdrFields Tagged) (rest : List ExecOp) :
    ∀ (c : Cmd) (s : State) (x : Option (List ExecOp)) (y : Option Cmd),
      runExec h f rest { c with xq := x } { s with cmd := y } = runExec h f rest c s := by
  induction rest with
  | nil => intro c s x y; simp [execDone_eq, hr, State.sent]
  | cons op rest ih =>
    intro c s x y
    cases hp : op.pure with
    | false =>
      cases e : perform op s with
      | none => rw [runExec_outOfRange _ _ _ _ hp e, runExec_outOfRange _ _ _ _ hp (by simp [perform_cmd, e])]
      | some p =>
        rw [runExec_primitive _ _ _ _ hp e,
          runExec_primitive (t := { p.1 with cmd := y }) (more := p.2) _ _ _ _ hp (by simp [perform_cmd, e])]
        simp [State.enter]
    | true =>
      cases op with
      | setBaud b => exact ih { c with newBaud := some b } s x y
      | gpio v => exact ih c (s.emit [.gpioWd v]) x y
      | check read data => simp only [runExec_check]; split <;> simp [ih, raiseAbort_eq, State.sent]
      | _ => cases hp

end Sys2Proof.Machine
end

