-- ==== Sys2Proof/Laws/PerInstr.lean ====
section
/-! SUPPORT. The per-instruction family `EncodeDecode`: every well-formed instruction of the opcode table is read back from its
own bytes, at its position, under every well-formed configuration. -/

namespace Sys2Proof.Laws.EncodeDecode

/-- Decoding the encoding of `i` gives `i` (30_encoding.md R80, R82, R91, R102). -/
def Statement (i : Instr) : Prop :=
  ∀ cfg : Config, cfg.WF → i.wf cfg = true → decode cfg i.pos (encode cfg i) = .ok i

/-- Among entries with distinct keys, the first one with an entry's key is that entry. -/
theorem find?_of_nodup {α β : Type} [BEq β] [LawfulBEq β] {l : List α} {key : α → β} {x : α} (h : (l.map key).Nodup)
    (hx : x ∈ l) : l.find? (fun y => key y == key x) = some x := by
  rw [List.nodup_map_iff_inj_on (List.Nodup.of_map key h)] at h
  cases e : l.find? (fun y => key y == key x) with
  | none => simpa using List.find?_eq_none.mp e x hx
  | some z => rw [h z (List.mem_of_find?_eq_some e) x hx (by simpa using List.find?_some e)]

/-- A command's own code dispatches to it (30_encoding.md R91). -/
theorem dispatch_cmdCode {cfg : Config} (hw : cfg.WF) {n : Command} (hn : n ∈ Command.all) :
    cfg.dispatch (cfg.cmdCode n) = some n := by
  obtain ⟨r, hr, rfl⟩ := List.mem_map.mp (hw.complete n hn)
  have row : cfg.row r.name = some r := find?_of_nodup hw.names hr
  have code : cfg.table.find? (fun y => y.code == r.code) = some r := find?_of_nodup hw.codes hr
  simp [Config.dispatch, Config.cmdCode, row, code]

/-- Each command is in the command set (30_encoding.md R90). -/
theorem mem_all (n : Command) : n ∈ Command.all := by cases n <;> simp [Command.all]

/-- The rows of the 20 commands. -/
theorem decode_code {cfg : Config} (hw : cfg.WF) (n : Command) :
    decode cfg .commandType [cfg.cmdCode n] = .ok n.toInstr := by
  simp [decode, decodeType, dispatch_cmdCode hw (mem_all n)]

theorem writeRam : Statement .writeRam := fun _ hw _ => decode_code hw .writeRam

theorem readRam : Statement .readRam := fun _ hw _ => decode_code hw .readRam

theorem copyToFlash : Statement .copyToFlash := fun _ hw _ => decode_code hw .copyToFlash

theorem eraseFlash : Statement .eraseFlash := fun _ hw _ => decode_code hw .eraseFlash

theorem chipEraseFlash : Statement .chipEraseFlash := fun _ hw _ => decode_code hw .chipEraseFlash

theorem run : Statement .run := fun _ hw _ => decode_code hw .run

theorem writeOtp : Statement .writeOtp := fun _ hw _ => decode_code hw .writeOtp

theorem readOtp : Statement .readOtp := fun _ hw _ => decode_code hw .readOtp

theorem readFlash : Statement .readFlash := fun _ hw _ => decode_code hw .readFlash

theorem readPtable : Statement .readPtable := fun _ hw _ => decode_code hw .readPtable

theorem readPartition : Statement .readPartition := fun _ hw _ => decode_code hw .readPartition

theorem writePartition : Statement .writePartition := fun _ hw _ => decode_code hw .writePartition

theorem getVersion : Statement .getVersion := fun _ hw _ => decode_code hw .getVersion

theorem isEmptyFlash : Statement .isEmptyFlash := fun _ hw _ => decode_code hw .isEmptyFlash

theorem getFlashState : Statement .getFlashState := fun _ hw _ => decode_code hw .getFlashState

theorem directWriteFlash : Statement .directWriteFlash := fun _ hw _ => decode_code hw .directWriteFlash

theorem changeBaud : Statement .changeBaud := fun _ hw _ => decode_code hw .changeBaud

theorem getProductInfo : Statement .getProductInfo := fun _ hw _ => decode_code hw .getProductInfo

theorem gpioWd : Statement .gpioWd := fun _ hw _ => decode_code hw .gpioWd

theorem dummy : Statement .dummy := fun _ hw _ => decode_code hw .dummy

theorem soh : Statement .soh := fun _ _ _ => by simp [decode, encode, Instr.pos, decodeControl, SOH]

theorem stx : Statement .stx := fun _ _ _ => by simp [decode, encode, Instr.pos, decodeControl, SOH, STX]

theorem ack : Statement .ack := fun _ _ _ => by simp [decode, encode, Instr.pos, decodeControl, SOH, STX, ACK]

theorem nak : Statement .nak := fun _ _ _ => by simp [decode, encode, Instr.pos, decodeControl, SOH, STX, ACK, NAK]

/-- The two version bytes join back to the version (30_encoding.md R82). -/
theorem joinLE_versionBytes (v : U16) : joinLE (v.truncate 8) ((v >>> 8).truncate 8) = v := by
  apply BitVec.eq_of_getLsbD_eq
  intro i hi
  simp only [joinLE, BitVec.getLsbD_or, BitVec.truncate_eq_setWidth, BitVec.getLsbD_setWidth, BitVec.getLsbD_shiftLeft,
    BitVec.getLsbD_ushiftRight]
  by_cases h : i < 8
  · simp [h, hi]
  · have h1 : i - 8 < 8 := by omega
    have h2 : 8 + (i - 8) = i := by omega
    have h3 : i - 8 < 16 := by omega
    simp [h, hi, h1, h2, h3]

theorem announce (version : U16) : Statement (.announce version) := fun _ _ _ => by
  simp [decode, encode, Instr.pos, announceBytes, versionBytes, joinLE_versionBytes]

theorem unassigned (t : Byte) : Statement (.unassigned t) := fun cfg _ h => by
  have h : cfg.dispatch t = none := by simpa [Instr.wf] using h
  simp [decode, encode, Instr.pos, decodeType, h]

end Sys2Proof.Laws.EncodeDecode
end

