-- ==== Sys2Proof/Tests/Slice0.lean ====
section
/-! SUPPORT. Our own tests: what the well-formedness checks refuse, words written out from the spec, one step of each
instruction, and for each statement with hypotheses a state that meets them. -/

namespace Sys2Proof.Tests

open Sys2Proof.Machine

set_option Elab.async false

/-! ## Helpers -/

/-- The state a result gives meets `p`. -/
def gives (r : Res) (p : State → Bool) : Bool :=
  match r with
  | .next t => p t
  | .fault _ => false
  | .refused _ => false

/-- TC0 between two commands. -/
def idle : State := { State.reset with ctl := .waitSoh }

/-- A configuration with small spaces. -/
def small : Config :=
  { Config.tc0 with sectorSize := 4, flashSize := 8, otpWords := 4, bufSize := 8, pldMax := 8, ramRegions := [⟨16, 32⟩] }

/-- A state under `small`. -/
def tiny : State := { idle with cfg := small }

/-- A record of command `n`. -/
def rec (n : Command) : Cmd := { crc := 0x1234, name := some n }

/-- The record of command `n` in `S_EXEC`. -/
def exRec (n : Command) (f : HdrFields Tagged) (xq : List ExecOp) : Cmd := { rec n with f := some f, xq := some xq }

/-- `S_EXEC`. -/
def ex (s : State) (n : Command) (f : HdrFields Tagged) (xq : List ExecOp) : State :=
  { s with ctl := .exec, cmd := some (exRec n f xq) }

/-- Every such state meets `Executing`. -/
theorem ex_executing (s : State) (n : Command) (f : HdrFields Tagged) (xq : List ExecOp) :
    (ex s n f xq).Executing (exRec n f xq) n f xq := ⟨rfl, rfl, rfl, rfl, rfl⟩

/-- The record of command `n` in `S_RSP_ACK` with `len` bytes announced. -/
def rspRec (n : Command) (f : HdrFields Tagged) (len : U16) : Cmd :=
  { rec n with f := some f, rspLen := some len, q := some [] }

/-- A wait with record `c` and `b` at the head of `RXQ`. -/
def wait (s : State) (k : Ctl) (c : Cmd) (b : Byte) : State := { s with ctl := k, cmd := some c, rxq := [b] }

/-- Every such state meets `Waiting`. -/
theorem wait_waiting (s : State) (k : Ctl) (c : Cmd) (n : Command) (b : Byte) (h : c.name = some n) :
    (wait s k c b).Waiting k c n b [] := ⟨rfl, rfl, h, rfl⟩

/-! ## Well-formed configurations, and what each check refuses (00_scope.md R8) -/

theorem test_tc0_wf : Config.tc0.WF where
  names := by decide
  complete := by decide
  codes := by decide
  rows := by decide
  getVersionCode := by decide
  getVersionSize := by decide
  versionNonzero := by decide
  versionString := by decide
  versionAscii := by decide
  window := by decide
  bufSize := by decide
  pldMax := by decide
  regions := by decide
  regionsApart := by decide
  sectorSize := by decide
  flashSize := by decide
  otpWords := by decide
  ptable := by decide
  ptableIds := by decide
  ptableSize := by decide
  productInfo := by decide
  baudInit := by decide

theorem test_small_wf : small.WF :=
  { test_tc0_wf with
    bufSize := by decide
    pldMax := by decide
    regions := by decide
    regionsApart := by decide
    sectorSize := by decide
    flashSize := by decide
    otpWords := by decide }

theorem test_refused_names : ¬ { Config.tc0 with table := ⟨.dummy, 0x30, 0, []⟩ :: Config.tc0Table }.WF := fun h =>
  absurd h.names (by decide)

theorem test_refused_complete : ¬ { Config.tc0 with table := [] }.WF := fun h =>
  absurd h.complete (by decide)

theorem test_refused_codes : ¬ { Config.tc0 with table := ⟨.dummy, 0x01, 0, []⟩ :: Config.tc0Table }.WF := fun h =>
  absurd h.codes (by decide)

theorem test_refused_rows : ¬ { Config.tc0 with table := [⟨.dummy, 0x14, 65536, []⟩] }.WF := fun h =>
  absurd h.rows (by decide)

theorem test_refused_getVersionCode : ¬ { Config.tc0 with table := [⟨.getVersion, 0x0C, 0, []⟩] }.WF := fun h =>
  absurd h.getVersionCode (by decide)

theorem test_refused_getVersionSize : ¬ { Config.tc0 with table := [⟨.getVersion, 0x0B, 1, []⟩] }.WF := fun h =>
  absurd h.getVersionSize (by decide)

theorem test_refused_versionNonzero : ¬ { Config.tc0 with version := 0 }.WF := fun h =>
  absurd h.versionNonzero (by decide)

theorem test_refused_versionString : ¬ { Config.tc0 with versionString := [] }.WF := fun h =>
  absurd h.versionString (by decide)

theorem test_refused_versionAscii : ¬ { Config.tc0 with versionString := [0x80] }.WF := fun h =>
  absurd h.versionAscii (by decide)

theorem test_refused_window : ¬ { Config.tc0 with vwBase := 0x80000001 }.WF := fun h =>
  absurd h.window (by decide)

theorem test_refused_bufSize : ¬ { Config.tc0 with bufSize := 0 }.WF := fun h =>
  absurd h.bufSize (by decide)

theorem test_refused_pldMax : ¬ { Config.tc0 with pldMax := 65536 }.WF := fun h =>
  absurd h.pldMax (by decide)

theorem test_refused_regions : ¬ { Config.tc0 with ramRegions := [⟨4, 4⟩] }.WF := fun h =>
  absurd h.regions (by decide)

theorem test_refused_regionsApart : ¬ { Config.tc0 with ramRegions := [⟨0, 8⟩, ⟨7, 9⟩] }.WF := fun h =>
  absurd h.regionsApart (by decide)

theorem test_refused_sectorSize : ¬ { Config.tc0 with sectorSize := 0 }.WF := fun h =>
  absurd h.sectorSize (by decide)

theorem test_refused_flashSize : ¬ { Config.tc0 with flashSize := 0x100001 }.WF := fun h =>
  absurd h.flashSize (by decide)

theorem test_refused_otpWords : ¬ { Config.tc0 with otpWords := 0 }.WF := fun h =>
  absurd h.otpWords (by decide)

theorem test_refused_ptable : ¬ { Config.tc0 with ptable := [⟨0, 0, 0, 1, [0]⟩] }.WF := fun h =>
  absurd h.ptable (by decide)

theorem test_refused_ptableIds : ¬ { Config.tc0 with ptable := [⟨0, 0, 0, 1, []⟩, ⟨0, 0, 0, 1, []⟩] }.WF := fun h =>
  absurd h.ptableIds (by decide)

theorem test_refused_productInfo : ¬ { Config.tc0 with productInfo := List.replicate 65536 0 }.WF := fun h => by
  have := h.productInfo
  rw [List.length_replicate] at this
  omega

theorem test_refused_baudInit : ¬ { Config.tc0 with baudInit := 9600 }.WF := fun h =>
  absurd h.baudInit (by decide)

theorem test_refused_ptableSize : ¬ (encodeTable (List.replicate 300 ⟨0, 0, 0, 1, List.replicate 254 1⟩)).length ≤ 65535 := by
  decide +kernel

theorem test_refused_rows_each : CmdRow.wf ⟨.dummy, 0, 65536, []⟩ = false ∧ CmdRow.wf ⟨.dummy, 0, 4, [0]⟩ = false ∧
    CmdRow.wf ⟨.run, 0, 4, [1]⟩ = false ∧ CmdRow.wf ⟨.readRam, 0, 8, [0, 3]⟩ = false := by decide

theorem test_refused_region : Region.wf ⟨5, 5⟩ = false ∧ Region.wf ⟨0, 2 ^ 32 + 1⟩ = false := by decide

theorem test_refused_entry : PartEntry.wf ⟨0, 0, 0, 1, [1, 0]⟩ = false ∧
    PartEntry.wf ⟨0, 0, 0, 1, List.replicate 255 1⟩ = false := by decide +kernel

theorem test_refused_instr : Instr.wf { Config.tc0 with table := [] } .dummy = false ∧
    Instr.wf Config.tc0 (.announce 0) = false ∧ Instr.wf Config.tc0 (.unassigned 0x14) = false := by decide

theorem test_refused_frame : Frame.wf { Config.tc0 with table := [] } ⟨.dummy, []⟩ = false ∧
    Frame.wf Config.tc0 ⟨.dummy, [1]⟩ = false ∧ Frame.wf Config.tc0 ⟨.writeRam 0, []⟩ = false ∧
    Frame.wf Config.tc0 ⟨.writeOtp 0, [1, 2, 3]⟩ = false ∧ Frame.wf small ⟨.writeRam 0, List.replicate 9 0⟩ = false ∧
    Frame.wf { Config.tc0 with table := [⟨.writeRam, 1, 65535, [0]⟩] } ⟨.writeRam 0, [0]⟩ = false := by decide +kernel

/-! ## Words written out from the spec (30_encoding.md R80, R82, R91, R92, R102; 95_test_vectors.md V-FR) -/

theorem test_word_writeRam : decode Config.tc0 .commandType [0x01] = .ok .writeRam := by rfl

theorem test_word_readRam : decode Config.tc0 .commandType [0x02] = .ok .readRam := by rfl

theorem test_word_copyToFlash : decode Config.tc0 .commandType [0x03] = .ok .copyToFlash := by rfl

theorem test_word_eraseFlash : decode Config.tc0 .commandType [0x04] = .ok .eraseFlash := by rfl

theorem test_word_chipEraseFlash : decode Config.tc0 .commandType [0x0C] = .ok .chipEraseFlash := by rfl

theorem test_word_run : decode Config.tc0 .commandType [0x05] = .ok .run := by rfl

theorem test_word_writeOtp : decode Config.tc0 .commandType [0x06] = .ok .writeOtp := by rfl

theorem test_word_readOtp : decode Config.tc0 .commandType [0x07] = .ok .readOtp := by rfl

theorem test_word_readFlash : decode Config.tc0 .commandType [0x08] = .ok .readFlash := by rfl

theorem test_word_readPtable : decode Config.tc0 .commandType [0x09] = .ok .readPtable := by rfl

theorem test_word_readPartition : decode Config.tc0 .commandType [0x0A] = .ok .readPartition := by rfl

theorem test_word_writePartition : decode Config.tc0 .commandType [0x0E] = .ok .writePartition := by rfl

theorem test_word_getVersion : decode Config.tc0 .commandType [0x0B] = .ok .getVersion := by rfl

theorem test_word_isEmptyFlash : decode Config.tc0 .commandType [0x0D] = .ok .isEmptyFlash := by rfl

theorem test_word_getFlashState : decode Config.tc0 .commandType [0x0F] = .ok .getFlashState := by rfl

theorem test_word_directWriteFlash : decode Config.tc0 .commandType [0x10] = .ok .directWriteFlash := by rfl

theorem test_word_changeBaud : decode Config.tc0 .commandType [0x11] = .ok .changeBaud := by rfl

theorem test_word_getProductInfo : decode Config.tc0 .commandType [0x12] = .ok .getProductInfo := by rfl

theorem test_word_gpioWd : decode Config.tc0 .commandType [0x13] = .ok .gpioWd := by rfl

theorem test_word_dummy : decode Config.tc0 .commandType [0x14] = .ok .dummy := by rfl

theorem test_word_soh : decode Config.tc0 .control [0x01] = .ok .soh := by rfl

theorem test_word_stx : decode Config.tc0 .control [0x02] = .ok .stx := by rfl

theorem test_word_ack : decode Config.tc0 .control [0x06] = .ok .ack := by rfl

theorem test_word_nak : decode Config.tc0 .control [0x15] = .ok .nak := by rfl

theorem test_word_announce : decode Config.tc0 .announcement [0x02, 0x01, 0x00, 0x04] = .ok (.announce 4) := by rfl

theorem test_word_unassigned : decode Config.tc0 .commandType [0x7F] = .ok (.unassigned 0x7F) := by rfl

theorem test_word_rejected : decode Config.tc0 .control [0x07] = .error (.notControl 0x07) ∧
    decode Config.tc0 .commandType [] = .error .wrongLength ∧
    decode Config.tc0 .announcement [0x01, 0x02, 0, 4] = .error .notAnnouncement := by decide

theorem test_frame_writeRam :
    (decodeFrame Config.tc0 [0x01, 0x01, 0x06, 0x00, 0x10, 0x00, 0x00, 0x80, 0xAA, 0xBB, 0xCB, 0xCB]).toOption =
      some ⟨.writeRam 0x80000010, [0xAA, 0xBB]⟩ := by decide +kernel

theorem test_frame_readRam :
    (decodeFrame Config.tc0 [0x01, 0x02, 0x06, 0x00, 0x00, 0x00, 0x00, 0x20, 0x04, 0x00, 0x12, 0x44]).toOption =
      some ⟨.readRam 0x20000000 4, []⟩ := by decide +kernel

theorem test_frame_copyToFlash :
    (decodeFrame Config.tc0 [0x01, 0x03, 0x0C, 0x00, 0x10, 0x00, 0x00, 0x80, 0xFC, 0x0F, 0x00, 0x00, 0x08, 0x00, 0x00, 0x00, 0x0B, 0x5F]).toOption =
      some ⟨.copyToFlash 0x80000010 0xFFC 8, []⟩ := by decide +kernel

theorem test_frame_eraseFlash :
    (decodeFrame Config.tc0 [0x01, 0x04, 0x08, 0x00, 0x00, 0x10, 0x00, 0x00, 0x01, 0x10, 0x00, 0x00, 0x92, 0x33]).toOption =
      some ⟨.eraseFlash 0x1000 0x1001, []⟩ := by decide +kernel

theorem test_frame_run :
    (decodeFrame Config.tc0 [0x01, 0x05, 0x04, 0x00, 0x00, 0x00, 0x00, 0x20, 0xA2, 0xA0]).toOption =
      some ⟨.run 0x20000000, []⟩ := by decide +kernel

theorem test_frame_writeOtp :
    (decodeFrame Config.tc0 [0x01, 0x06, 0x08, 0x00, 0x10, 0x00, 0x00, 0x00, 0x78, 0x56, 0x34, 0x12, 0x70, 0xDC]).toOption =
      some ⟨.writeOtp 0x10, [0x78, 0x56, 0x34, 0x12]⟩ := by decide +kernel

theorem test_frame_readOtp :
    (decodeFrame Config.tc0 [0x01, 0x07, 0x06, 0x00, 0x10, 0x00, 0x00, 0x00, 0x01, 0x00, 0xA5, 0x27]).toOption =
      some ⟨.readOtp 0x10 1, []⟩ := by decide +kernel

theorem test_frame_readFlash :
    (decodeFrame Config.tc0 [0x01, 0x08, 0x06, 0x00, 0x00, 0x00, 0x00, 0x00, 0x02, 0x00, 0x72, 0x68]).toOption =
      some ⟨.readFlash 0 2, []⟩ := by decide +kernel

theorem test_frame_readPtable :
    (decodeFrame Config.tc0 [0x01, 0x09, 0x00, 0x00, 0xFF, 0xFF]).toOption =
      some ⟨.readPtable, []⟩ := by decide +kernel

theorem test_frame_readPartition :
    (decodeFrame Config.tc0 [0x01, 0x0A, 0x07, 0x00, 0x02, 0x00, 0x00, 0x00, 0x00, 0x02, 0x00, 0x4F, 0xF7]).toOption =
      some ⟨.readPartition 2 0 2, []⟩ := by decide +kernel

theorem test_frame_getVersion :
    (decodeFrame Config.tc0 [0x01, 0x0B, 0x00, 0x00, 0xFF, 0xFF]).toOption =
      some ⟨.getVersion, []⟩ := by decide +kernel

theorem test_frame_chipEraseFlash :
    (decodeFrame Config.tc0 [0x01, 0x0C, 0x00, 0x00, 0xFF, 0xFF]).toOption =
      some ⟨.chipEraseFlash, []⟩ := by decide +kernel

theorem test_frame_isEmptyFlash :
    (decodeFrame Config.tc0 [0x01, 0x0D, 0x08, 0x00, 0x00, 0x20, 0x00, 0x00, 0x10, 0x00, 0x00, 0x00, 0x6F, 0x44]).toOption =
      some ⟨.isEmptyFlash 0x2000 0x10, []⟩ := by decide +kernel

theorem test_frame_writePartition :
    (decodeFrame Config.tc0 [0x01, 0x0E, 0x06, 0x00, 0x02, 0x04, 0x00, 0x00, 0x00, 0x11, 0x46, 0x0E]).toOption =
      some ⟨.writePartition 2 4, [0x11]⟩ := by decide +kernel

theorem test_frame_getFlashState :
    (decodeFrame Config.tc0 [0x01, 0x0F, 0x00, 0x00, 0xFF, 0xFF]).toOption =
      some ⟨.getFlashState, []⟩ := by decide +kernel

theorem test_frame_directWriteFlash :
    (decodeFrame Config.tc0 [0x01, 0x10, 0x06, 0x00, 0x00, 0x30, 0x00, 0x00, 0x01, 0xF0, 0xD0, 0xDE]).toOption =
      some ⟨.directWriteFlash 0x3000 1, [0xF0]⟩ := by decide +kernel

theorem test_frame_changeBaud :
    (decodeFrame Config.tc0 [0x01, 0x11, 0x04, 0x00, 0x40, 0x42, 0x0F, 0x00, 0xAF, 0x89]).toOption =
      some ⟨.changeBaud 0xF4240, []⟩ := by decide +kernel

theorem test_frame_getProductInfo :
    (decodeFrame Config.tc0 [0x01, 0x12, 0x00, 0x00, 0xFF, 0xFF]).toOption =
      some ⟨.getProductInfo, []⟩ := by decide +kernel

theorem test_frame_gpioWd :
    (decodeFrame Config.tc0 [0x01, 0x13, 0x01, 0x00, 0x25, 0x37, 0x95]).toOption =
      some ⟨.gpioWd 0x25, []⟩ := by decide +kernel

theorem test_frame_dummy :
    (decodeFrame Config.tc0 [0x01, 0x14, 0x00, 0x00, 0xFF, 0xFF]).toOption =
      some ⟨.dummy, []⟩ := by decide +kernel

/-! ## One step of each instruction (95_test_vectors.md section 6) -/

theorem test_writeRam_window : gives (exec .writeRam (ex idle .writeRam (.writeRam (.scratch 0x10)) [.write (.scratch 0x10) [0xAA, 0xBB]]))
    (fun t => t.bufByte 0x10 == 0xAA && t.bufByte 0x11 == 0xBB && t.bufByte 0x12 == 0 && t.evl == []) = true := by decide +kernel

theorem test_writeRam_concrete : gives (exec .writeRam (ex idle .writeRam (.writeRam (.concrete 0x2007FFFF))
      [.write (.concrete 0x2007FFFF) [7]]))
    (fun t => t.ramByte 0x2007FFFF == 7 && t.evl == [.write .ram 0x2007FFFF 1]) = true := by decide +kernel

theorem test_readRam_data : gives (exec .readRam (wait { idle with ram := [(0x20000001, 9)] } .rspAck
      (rspRec .readRam (.readRam (.concrete 0x20000000) 2) 2) ACK))
    (fun t => t.txl == [(0, 115200), (9, 115200)] && t.evl == [.read .ram 0x20000000 2] && t.ctl == .rspCrcLo) = true := by
  decide +kernel

theorem test_copyToFlash_source : gives (exec .copyToFlash (ex { idle with buf := [(0x10, 0x11)] } .copyToFlash
      (.copyToFlash (.scratch 0x10) 0xFFC 2) [.copy (.scratch 0x10) 2 0xFFC]))
    (fun t => (t.cmd.bind Cmd.xq) == some [.chunk 0xFFC [0x11, 0]] && t.evl == []) = true := by decide +kernel

theorem test_eraseFlash_sectors : eraseRange Config.tc0 0x1000 0x1001 = [.erase 0x1000, .erase 0x2000] := by decide +kernel

theorem test_eraseFlash_step : gives (exec .eraseFlash (ex { tiny with flash := [(3, 0), (4, 0), (7, 1)] } .eraseFlash
      (.eraseFlash 5 1) [.erase 4]))
    (fun t => t.flash == [(3, 0)] && t.evl == [.erase 4]) = true := by decide +kernel

theorem test_chipEraseFlash : gives (exec .chipEraseFlash (ex { tiny with flash := [(0, 0), (7, 1)] } .chipEraseFlash
      .chipEraseFlash [.chipErase])) (fun t => t.flash == [] && t.evl == [.chipErase]) = true := by decide +kernel

theorem test_run : gives (exec .run (ex idle .run (.run 0x20000000) []))
    (fun t => t.ctl == .jumped && t.cmd == none && t.txl == [(0x06, 115200)] && t.evl == [.jump 0x20000000]) = true := by
  decide +kernel

theorem test_writeOtp_ands : gives (exec .writeOtp (ex { tiny with otp := [(4, 0x0F)] } .writeOtp (.writeOtp 1)
      [.program 1 [0xF3, 0xFF, 0, 0xFF]]))
    (fun t => t.otp == [(4, 0x03), (6, 0)] && t.evl == [.programOtp 1]) = true := by decide +kernel

theorem test_readOtp_data : gives (exec .readOtp (wait { idle with otp := [(0x40, 0x78), (0x41, 0x56)] } .rspAck
      (rspRec .readOtp (.readOtp 0x10 1) 4) ACK))
    (fun t => t.txl.map Prod.fst == [0x78, 0x56, 0xFF, 0xFF] && t.evl == [.read .otp 0x10 1]) = true := by decide +kernel

theorem test_readFlash_data : gives (exec .readFlash (wait { idle with flash := [(0, 0x12)] } .rspAck
      (rspRec .readFlash (.readFlash 0 2) 2) ACK))
    (fun t => t.txl.map Prod.fst == [0x12, 0xFF] && t.evl == [.read .flash 0 2]) = true := by decide +kernel

theorem test_readPtable_bytes : encodeTable Config.tc0.ptable =
    [0x25, 0x00, 0x11, 0x00, 0x00, 0x00, 0x00, 0x00, 0x00, 0x00, 0x01, 0x00, 0x00, 0x10, 0x01, 0x05, 0x42, 0x4F, 0x4F, 0x54,
     0x00, 0x10, 0x00, 0x00, 0x00, 0x01, 0x00, 0x00, 0x00, 0x02, 0x00, 0x00, 0x10, 0x02, 0x04, 0x41, 0x50, 0x50, 0x00] := by
  decide +kernel

theorem test_readPartition_data : gives (exec .readPartition (wait { idle with flash := [(0x10001, 0xCD)] } .rspAck
      (rspRec .readPartition (.readPartition 2 0 2) 2) ACK))
    (fun t => t.txl.map Prod.fst == [0xFF, 0xCD] && t.evl == [.read .flash 0x10000 2]) = true := by decide +kernel

theorem test_writePartition_step : gives (exec .writePartition (ex idle .writePartition (.writePartition 2 4)
      (safeWrite 0x10004 [0x11])))
    (fun t => (t.cmd.bind Cmd.xq) == some [.flashWrite 0x10004 [0x11]] && t.evl == [.read .flash 0x10004 1]) = true := by
  decide +kernel

theorem test_getVersion_length : gives (exec .getVersion (ex idle .getVersion .getVersion []))
    (fun t => t.txl.map Prod.fst == [0x06, 0x07, 0x00] && t.ctl == .rspAck) = true := by decide +kernel

theorem test_getVersion_crc : gives (exec .getVersion (wait idle .rspAck (rspRec .getVersion .getVersion 7) ACK))
    (fun t => t.txl.map Prod.fst == [0x30, 0x2E, 0x30, 0x2E, 0x30, 0x2E, 0x34] && t.cmd.map Cmd.crc == some 0x1289) = true := by
  decide +kernel

theorem test_isEmptyFlash_data : gives (exec .isEmptyFlash (wait { idle with flash := [(0x2005, 0x7F)] } .rspAck
      (rspRec .isEmptyFlash (.isEmptyFlash 0x2000 16) 4) ACK))
    (fun t => t.txl.map Prod.fst == [5, 0, 0, 0]) = true := by decide +kernel

theorem test_getFlashState_draw : gives (exec .getFlashState (ex { idle with answers := [[1, 2, 3], [4]] } .getFlashState
      .getFlashState []))
    (fun t => t.txl.map Prod.fst == [0x06, 0x03, 0x00] && t.answers == [[4]] && (t.cmd.bind Cmd.q) == some [1, 2, 3]) = true := by
  decide +kernel

theorem test_directWriteFlash_inPlace : gives (exec .directWriteFlash (ex { tiny with flash := [(1, 0xF0), (2, 0xF0)] }
      .directWriteFlash (.directWriteFlash 0 0) [.chunk 0 [0xFF, 0xF0, 0x00, 0xFF]]))
    (fun t => (t.cmd.bind Cmd.xq) == some [.flashWrite 2 [0x00]]) = true := by decide +kernel

theorem test_directWriteFlash_merge : gives (exec .directWriteFlash (ex { tiny with flash := [(0, 0x12), (2, 0)] }
      .directWriteFlash (.directWriteFlash 2 0) [.sector 2 [1]]))
    (fun t => (t.cmd.bind Cmd.xq) == some [.erase 0, .flashWrite 0 [0x12, 0xFF, 1, 0xFF]]) = true := by decide +kernel

theorem test_changeBaud : gives (exec .changeBaud (ex idle .changeBaud (.changeBaud 1000000) [.setBaud 1000000]))
    (fun t => t.txl == [(0x06, 115200)] && t.baud == 1000000 && t.ctl == .waitSoh) = true := by decide +kernel

theorem test_getProductInfo_length : gives (exec .getProductInfo (ex idle .getProductInfo .getProductInfo []))
    (fun t => t.txl.map Prod.fst == [0x06, 0x0B, 0x00]) = true := by decide +kernel

theorem test_gpioWd : gives (exec .gpioWd (ex idle .gpioWd (.gpioWd 0x25) [.gpio 0x25]))
    (fun t => t.evl == [.gpioWd 0x25] && t.txl.map Prod.fst == [0x06] && t.ctl == .waitSoh) = true := by decide +kernel

theorem test_dummy : gives (exec .dummy (ex idle .dummy .dummy []))
    (fun t => t == { idle with txl := [(0x06, 115200)] }) = true := by decide +kernel

theorem test_soh : gives (exec .soh { idle with rxq := [0x01, 0x0B] })
    (fun t => t.ctl == .typ && t.rxq == [0x0B] && t.cmd.isSome) = true := by decide +kernel

theorem test_stx : gives (exec .stx { idle with rxq := [0x02] }) (fun t => t == idle) = true := by decide +kernel

theorem test_ack : gives (exec .ack (wait idle .rspAck (rspRec .readRam (.readRam (.scratch 0) 0) 0) 0x06))
    (fun t => t == idle) = true := by decide +kernel

theorem test_nak : gives (exec .nak (wait idle .rspAck (rspRec .getVersion .getVersion 7) 0x15))
    (fun t => t == idle) = true := by decide +kernel

theorem test_announce : gives (exec (.announce 4) State.reset)
    (fun t => t.txl.map Prod.fst == [0x02, 0x01, 0x00, 0x04]) = true := by decide +kernel

theorem test_unassigned : gives (exec (.unassigned 0x7F) { idle with
      ctl := .lenHi, cmd := some { crc := 0, typ := some 0x7F, length := some 0 }, rxq := [0] })
    (fun t => t == { idle with txl := [(0x15, 115200)] }) = true := by decide +kernel

/-! ## Host-side procedures (95_test_vectors.md V-OTP-C, V-OTP-W, V-OTP-V) -/

theorem test_otp_classes : otpClassify Config.tc0 [0x00000001, 0xFFFFFFFF] [0x00000001, 0x00000002] = .empty ∧
    otpClassify Config.tc0 [0x00000001, 0xFFFFFFFE] [0x00000001, 0x00000002] = .notEmpty ∧
    otpClassify Config.tc0 [0xFFFFFFFF] [0xFFFFFFFF] = .same := by decide +kernel

theorem test_otp_grouping :
    otpClassify Config.tc0 (cellsOf Config.tc0 2 [0xFF, 0xFF, 0xFF, 0xFF, 0, 0, 0, 0]) [0, 0] = .empty ∧
    otpClassify { Config.tc0 with otpWidth := .w64 }
      (cellsOf { Config.tc0 with otpWidth := .w64 } 1 [0xFF, 0xFF, 0xFF, 0xFF, 0, 0, 0, 0]) [0] = .notEmpty := by
  decide +kernel

theorem test_otp_verify : otpVerify Config.tc0 [0x5, 0x7] [0x0, 0xFFFFFFFF] true = true ∧
    otpVerify Config.tc0 [0x5, 0x7] [0x0, 0xFFFFFFFF] false = false := by decide +kernel

/-- A chunked write to the flash of `small`, over a sector boundary. -/
def chunked : ChunkedWrite := ⟨.flash 1, 2, [9, 8, 7], 8, 1⟩

theorem test_chunk_never_straddles :
    chunkedStart small chunked = some (⟨0, 0⟩, .send ⟨.directWriteFlash 2 1, [9, 8]⟩) ∧
    chunkedNext small chunked .success ⟨0, 1⟩ = (⟨2, 0⟩, .send ⟨.directWriteFlash 4 1, [7]⟩) ∧
    chunkedNext small chunked .success ⟨2, 0⟩ = (⟨3, 0⟩, .done) ∧
    chunkedStart small { chunked with size := 0 } = none ∧ chunkedStart small { chunked with size := 9 } = none := by
  decide +kernel

theorem test_chunk_retries : chunkedNext small chunked .failure ⟨2, 0⟩ = (⟨2, 1⟩, .reHandshake) ∧
    chunkedNext small chunked .greeted ⟨2, 1⟩ = (⟨2, 1⟩, .send ⟨.directWriteFlash 4 1, [7]⟩) ∧
    chunkedNext small chunked .failure ⟨2, 1⟩ = (⟨2, 2⟩, .failed 2 4) := by decide +kernel

/-- The answer of a host procedure and the state it leaves meet `p`. -/
def ends {α : Type} (r : HostRun (α × State)) (p : α → State → Bool) : Bool :=
  match r with
  | .next (a, t) => p a t
  | .fault _ => false
  | .refused _ => false

/-- The host waits `n` steps, and nothing else occurs. -/
def quiet (n : Nat) : Schedule := List.replicate n []

theorem test_cmd_getVersion : ends (runCmd false ⟨.getVersion, []⟩ (quiet 60) idle)
    (fun r t => r == .data [0x30, 0x2E, 0x30, 0x2E, 0x30, 0x2E, 0x34] && t.ctl == .waitSoh && t.rxq == []) = true := by
  decide +kernel

theorem test_cmd_headerFail : ends (runCmd false ⟨.readOtp 1 4, []⟩ (quiet 60) tiny)
    (fun r t => r == .aborted .headerFail && t.txl.map Prod.fst == [0x06, 0x15]) = true := by decide +kernel

theorem test_cmd_timeout : ends (runCmd false ⟨.dummy, []⟩ (quiet 6) tiny)
    (fun r t => r == .aborted .timeout && t.ctl == .lenLo) = true := by decide +kernel

theorem test_hello : ends (hello ([.timeout] :: quiet 3) 0 idle) (fun heard t => heard && t.env == [.host SOH 115200 []]) = true := by
  decide +kernel

theorem test_otpSafeWrite : ends (otpSafeWrite false 1 [5] false [quiet 60, quiet 60, quiet 60] tiny)
    (fun m t => m == .done .ok && t.otp == [(4, 5), (5, 0), (6, 0), (7, 0)]) = true := by decide +kernel

theorem test_otpSafeWrite_afterHello : ends
    (andThen (hello (quiet 2) 0 { tiny with ctl := .announce }) fun (_, t) =>
      otpSafeWrite true 1 [5] false [quiet 60, quiet 60, quiet 60] t)
    (fun m t => m == .done .ok && t.otp == [(4, 5), (5, 0), (6, 0), (7, 0)]) = true := by decide +kernel

theorem test_otpSafeWrite_notEmpty : ends (otpSafeWrite false 1 [5] false [quiet 60] { tiny with otp := [(4, 1)] })
    (fun m t => m == .done .notEmpty && t.otp == [(4, 1)] && t.evl == [.read .otp 1 1]) = true := by decide +kernel

theorem test_chunkedWrite_again : ends
    ((chunkedWrite false chunked [quiet 3, quiet 9 ++ [[.timeout], [.timeout]] ++ quiet 2, quiet 60, quiet 60] tiny).getD
      (.next (.reHandshake, tiny)))
    (fun m t => m == .done && t.flash == [(2, 9), (3, 8), (4, 7)]) = true := by decide +kernel

theorem test_agentDetected : agentDetected Config.tc0 [0x02, 0x01, 0x00, 0x04] = true ∧
    agentDetected Config.tc0 [0x02, 0x01, 0x00, 0x00] = false := by decide

/-! ## The fetch word -/

theorem test_fetchWord : gives (step (State.reset.withFetchWord 8 0x0B))
    (fun t => t.ctl == .crcLo && t.txl.map Prod.fst == [0x06, 0x06]) = true ∧
    gives (step (State.reset.withFetchWord 8 0x7F)) (fun t => t.txl.map Prod.fst == [0x15]) = true ∧
    fetch (State.reset.withFetchWord 8 0x15) = some .nak ∧
    fetch (State.reset.withFetchWord 16 0x0201) = some (.announce 0) := by decide +kernel

/-! ## Witnesses: for each statement with hypotheses, and each of its clauses, a state and operands that meet them -/

/-- The one-byte frame `GPIO_WD 0x25`. -/
def gpioFrame : Frame := ⟨.gpioWd 0x25, []⟩

theorem test_witness_FrameRoundTrip : Config.tc0.WF ∧ gpioFrame.wf Config.tc0 = true ∧
    Frame.wf small ⟨.writeRam 0xFFFFFFFF, List.replicate 8 0xFF⟩ = true :=
  ⟨test_tc0_wf, by decide, by decide⟩

theorem test_witness_DecodedBytesReencode :
    Config.tc0.WF ∧ decode Config.tc0 .announcement [0x02, 0x01, 0xFF, 0xFF] = .ok (.announce 0xFFFF) :=
  ⟨test_tc0_wf, by rfl⟩

theorem test_witness_AnnouncementHighByteFirst : State.reset.ctl = .announce := rfl

theorem test_witness_CrcDetectsOneByteChange : (0x1021 : U16).getLsbD 0 = true ∧ (0x00 : Byte) ≠ 0x01 := by decide

theorem test_witness_ClassifyRamSideAddress :
    (0xFFFFFFFF : U32) = Config.tc0.addrBuf ∧
    ((0x8000FFFF : U32) ≠ Config.tc0.addrBuf ∧ 0x8000FFFF &&& Config.tc0.vwMask = Config.tc0.vwBase) ∧
    ((0x80010000 : U32) ≠ Config.tc0.addrBuf ∧ 0x80010000 &&& Config.tc0.vwMask ≠ Config.tc0.vwBase) := by decide

theorem test_witness_HeaderRangeChecks : small.WF ∧
    (handlerOf .writeRam).header small (.writeRam (.scratch 4)) 4 = true ∧
    (handlerOf .writeRam).header small (.writeRam (.scratch 4)) 5 = false ∧
    (handlerOf .readRam).header small (.readRam (.concrete 31) 1) 0 = true ∧
    (handlerOf .readRam).header small (.readRam (.concrete 31) 2) 0 = false ∧
    (handlerOf .copyToFlash).header small (.copyToFlash (.scratch 0) 1 7) 0 = true ∧
    (handlerOf .copyToFlash).header small (.copyToFlash (.scratch 0) 2 7) 0 = false ∧
    (handlerOf .eraseFlash).header small (.eraseFlash 8 0) 0 = true ∧
    (handlerOf .readFlash).header small (.readFlash 7 2) 0 = false ∧
    (handlerOf .directWriteFlash).header small (.directWriteFlash 0 0) 8 = true ∧
    (handlerOf .writeOtp).header small (.writeOtp 3) 4 = true ∧ (handlerOf .writeOtp).header small (.writeOtp 3) 8 = false ∧
    (handlerOf .readOtp).header small (.readOtp 0 4) 0 = true ∧ (handlerOf .readOtp).header small (.readOtp 1 4) 0 = false ∧
    (handlerOf .readPartition).header Config.tc0 (.readPartition 1 0xFFFF 1) 0 = true ∧
    (handlerOf .readPartition).header Config.tc0 (.readPartition 1 0xFFFF 2) 0 = false ∧
    (handlerOf .writePartition).header Config.tc0 (.writePartition 3 0) 1 = false ∧
    (handlerOf .changeBaud).header Config.tc0 (.changeBaud 9600) 0 = false ∧
    (handlerOf .readOtp).header { small with otpWords := 2 ^ 33 } (.readOtp 0xFFFFFFFF 1) 0 = true ∧
    (handlerOf .readOtp).header { small with otpWords := 2 ^ 33 } (.readOtp 0xFFFFFFFF 2) 0 = false ∧
    (handlerOf .writeOtp).header { small with otpWords := 2 ^ 33 } (.writeOtp 0xFFFFFFFF) 8 = false :=
  ⟨test_small_wf, by decide +kernel⟩

theorem test_witness_UpdatePossibleClearsBitsOnly :
    [(0xF0 : Byte)].length = [(0x10 : Byte)].length ∧ updatePossible [0xF0] [0x10] = true ∧
    updatePossible [0x0F] [0xF0] = false := by decide

theorem test_witness_StepRunsDecodedInstruction :
    fetchBytes State.reset = some (.announcement, [0x02, 0x01, 0x00, 0x04]) ∧ State.reset.env = [] ∧
    decode State.reset.cfg .announcement [0x02, 0x01, 0x00, 0x04] = .ok (.announce 4) ∧
    fetchBytes { State.reset with env := [.go] } = some (.announcement, [0x02, 0x01, 0x00, 0x04]) ∧
    fetchBytes (ex idle .dummy .dummy []) = none ∧ currentCommand (ex idle .dummy .dummy []) = some .dummy ∧
    (ex idle .dummy .dummy []).env = [] ∧
    currentCommand { ex idle .dummy .dummy [] with env := [.go, .timeout] } = some .dummy :=
  ⟨by rfl, rfl, by rfl, by rfl, rfl, rfl, rfl, rfl⟩

theorem test_witness_StepFetchPoints :
    (State.reset.env = [] ∧ State.reset.ctl = .announce ∧ State.reset.rxq = []) ∧
    (idle.ctl = .waitSoh ∧ decodeControl 0x15 = some .nak) ∧
    ((wait idle .lenHi { rec .dummy with typ := some 0x14 } 0).ctl = .lenHi ∧
      (wait idle .lenHi { rec .dummy with typ := some 0x14 } 0).rxq = [0]) ∧
    ((ex idle .run (.run 0) []).ctl = .exec ∧ (exRec .run (.run 0) []).name = some .run) ∧
    (wait idle .crcLo (rec .dummy) 0xFF).Waiting .crcLo (rec .dummy) .dummy 0xFF [] :=
  ⟨⟨rfl, rfl, rfl⟩, ⟨rfl, by decide⟩, ⟨rfl, rfl⟩, ⟨rfl, rfl⟩, wait_waiting _ _ _ _ _ rfl⟩

/-- A WRITE_RAM whose payload is still to come, and one that is about to write. -/
def writing : Cmd :=
  { rec .writeRam with
    hs := some 4, pl := some 2, hdr := some [0xFF, 0xFF, 0xFF, 0xFF], pld := some [7], f := some (.writeRam (.scratch 0)) }

theorem test_witness_Inv_payload : State.Inv { idle with ctl := .pld, cmd := some writing, rxq := [9] } where
  cfg := test_tc0_wf
  mem := ⟨Memory.nil_wf _, Memory.nil_wf _, Memory.nil_wf _, Memory.nil_wf _⟩
  space := ⟨by simp [idle, State.reset], by simp [idle, State.reset], by simp [idle, State.reset], by simp [idle, State.reset]⟩
  cmd := ⟨⟨.writeRam, 2, [7], ⟨⟨rfl, rfl, rfl, by decide, by decide⟩, .writeRam (.scratch 0), rfl, rfl, by decide⟩, rfl,
    by decide⟩, by simp [writing, rec]⟩
  baud := by decide

theorem test_witness_StepCompletesUnderInvariant : State.Inv idle where
  cfg := test_tc0_wf
  mem := ⟨Memory.nil_wf _, Memory.nil_wf _, Memory.nil_wf _, Memory.nil_wf _⟩
  space := ⟨by simp [idle, State.reset], by simp [idle, State.reset], by simp [idle, State.reset], by simp [idle, State.reset]⟩
  cmd := rfl
  baud := by decide

theorem test_witness_StepKeepsInvariant :
    gives (step { idle with ctl := .pld, cmd := some writing, rxq := [9] })
      (fun t => t.ctl == .crcLo && t.txl == [(0x06, 115200)]) = true := by decide +kernel

theorem test_witness_StepKeepsMemoryCanonical :
    State.MemWF (ex tiny .chipEraseFlash .chipEraseFlash [.chipErase]) ∧
    gives (step (ex tiny .chipEraseFlash .chipEraseFlash [.chipErase])) (fun t => t.evl == [.chipErase]) = true :=
  ⟨⟨Memory.nil_wf _, Memory.nil_wf _, Memory.nil_wf _, Memory.nil_wf _⟩, by decide +kernel⟩

theorem test_witness_StepKeepsConfiguration : gives (step State.reset) (fun t => t.txl.length == 4) = true := by
  decide +kernel

theorem test_witness_SilentWaits :
    (wait idle .crcLo (rec .dummy) 5).ctl ∈ [Ctl.waitSoh, .typ, .lenLo, .crcLo, .rspCrcLo, .jumped] ∧
    gives (step (wait idle .crcLo (rec .dummy) 5)) (fun t => t.ctl == .crcHi) = true := by decide +kernel

theorem test_witness_StorageChangesOnlyInExec :
    let s := wait idle .rspAck (rspRec .readFlash (.readFlash 0 2) 2) ACK
    s.ctl ≠ .exec ∧ s.resetNext = false ∧ gives (step s) (fun t => t.evl == [.read .flash 0 2]) = true := by decide +kernel

theorem test_witness_ExecStartsAfterCrcMatch :
    let s := wait idle .crcHi { rec .dummy with f := some .dummy, pld := some [], rcrcLo := some 0x34 } 0x12
    s.ctl ≠ .exec ∧ gives (step s) (fun t => t.ctl == .exec) = true := by decide +kernel

theorem test_witness_OtpBitsNeverReturn :
    let s := ex { tiny with otp := [(4, 0x0F)] } .writeOtp (.writeOtp 1) [.program 1 [0xF3, 0xFF, 0, 0xFF]]
    s.cfg.storageFaults = false ∧ gives (step s) (fun t => t.otpByte 4 == 0x03) = true := by decide +kernel

theorem test_witness_BaudChangesOnlyAtCompletion :
    gives (step (ex idle .changeBaud (.changeBaud 57600) [.setBaud 57600])) (fun t => t.baud == 57600) = true ∧
    gives (step { idle with baud := 57600, env := [.reset [] []] }) (fun t => t.baud == 115200) = true := by decide +kernel

theorem test_witness_JumpedUntilReset :
    gives (step { idle with ctl := .jumped, env := [.host 1 115200 []] }) (fun t => t.rxq == [1] && t.ctl == .jumped) = true ∧
    gives (step { idle with ctl := .jumped, rxq := [7] }) (fun t => t.rxq == [7] && t.ctl == .jumped) = true ∧
    gives (step { State.reset with rxq := [7], env := [.host 1 57600 [8, 9]] }) (fun t => t.rxq == [7, 8, 9]) = true ∧
    gives (step { idle with rxq := [7], env := [.timeout] }) (fun t => t == { idle with rxq := [7] }) = true ∧
    gives (step { State.reset with env := [.timeout] }) (fun t => t == State.reset) = true ∧
    gives (step { idle with env := [.announce] }) (fun t => t == idle) = true ∧
    gives (step { State.reset with env := [.announce] }) (fun t => t.txl.map Prod.fst == [2, 1, 0, 4]) = true := by
  decide +kernel

theorem test_witness_FrameReachesExec :
    let s : State := { idle with rxq := encodeFrame Config.tc0 gpioFrame ++ [0x01] }
    s.cfg.WF ∧ gpioFrame.wf s.cfg = true ∧ s.env = [] ∧ (s.ctl = .announce ∨ s.ctl = .waitSoh) ∧
      s.rxq = encodeFrame s.cfg gpioFrame ++ [0x01] ∧
      (handlerOf gpioFrame.fields.command).header s.cfg (gpioFrame.fields.map (classify s.cfg)) gpioFrame.payload.length = true :=
  ⟨test_tc0_wf, by decide, rfl, .inr rfl, rfl, rfl⟩

theorem test_witness_ResetEvent :
    let ram : Memory := [(16, 1), (31, 2)]
    let buf : Memory := [(7, 9)]
    Memory.wf Space.ram.blank ram ∧ Memory.wf Space.buf.blank buf ∧ (∀ c ∈ ram, ramRangeOk small c.1 1 = true) ∧
      (∀ c ∈ buf, c.1 < small.bufSize) ∧
      gives (step { ex tiny .dummy .dummy [] with env := [.reset ram buf] })
        (fun t => t.ram == ram && t.buf == buf && t.ctl == .announce) = true := by decide +kernel

theorem test_witness_ResetCutsPrimitive :
    let cut (op : ExecOp) (left : List Byte) : State :=
      { ex { tiny with otp := [(4, 0x0F)] } .writeOtp (.writeOtp 1) [op] with env := [.resetCut [] [] left] }
    gives (step (cut (.flashWrite 7 [1]) [0x77])) (fun t => t.flash == [(7, 0x77)]) = true ∧
    gives (step (cut (.erase 4) [1, 2, 3, 4])) (fun t => t.flash == [(4, 1), (5, 2), (6, 3), (7, 4)]) = true ∧
    gives (step (cut .chipErase [1, 2, 3, 4, 5, 6, 7, 8])) (fun t => t.flashByte 7 == 8) = true ∧
    gives (step (cut (.program 1 [0, 0, 0, 0]) [0xF3, 0, 0, 0])) (fun t => t.otpByte 4 == 0x03 && t.otpByte 5 == 0) = true ∧
    gives (step (cut (.verify 0 [1]) [9])) (fun t => t.flash == [] && t.ctl == .announce) = true := by decide +kernel

theorem test_witness_SohStartsCommand :
    ({ idle with rxq := [SOH] } : State).ctl = .waitSoh ∧ ({ State.reset with rxq := [SOH] } : State).ctl = .announce ∧
    gives (exec .soh { idle with rxq := [SOH], cfg := { Config.tc0 with crcCoversFrameHdr := true } })
      (fun t => t.cmd.map Cmd.crc == some 0xF1D1) = true := by decide +kernel

theorem test_witness_IdleBytesDiscarded :
    gives (step { State.reset with rxq := [0x06, 0x15] }) (fun t => t.rxq == [0x15] && t.ctl == .announce) = true ∧
    gives (step { idle with rxq := [0x77] }) (fun t => t == idle) = true := by decide +kernel

theorem test_witness_TypeAndLengthBytes :
    gives (step (wait idle .typ (freshCmd Config.tc0) 0x01)) (fun t => t.ctl == .lenLo && (t.cmd.bind Cmd.typ) == some 1) = true ∧
    gives (step (wait idle .lenLo { freshCmd Config.tc0 with typ := some 1 } 0xFF))
      (fun t => t.ctl == .lenHi && (t.cmd.bind Cmd.length) == some 0xFF) = true := by decide +kernel

theorem test_witness_UnassignedCodeNaks : Config.tc0.dispatch 0x00 = none ∧ Config.tc0.dispatch 0x15 = none ∧
    Config.tc0.dispatch 0xFF = none := by decide

/-- `S_LEN_HI` for type `t` and low length byte `lo`, with the high byte zero. -/
def lengthWait (t : Byte) (lo : U16) : State :=
  wait idle .lenHi { freshCmd Config.tc0 with typ := some t, length := some lo } 0

theorem test_witness_LengthCheckAndInit :
    gives (step (lengthWait 0x02 5)) (fun t => t.ctl == .waitSoh && t.txl.map Prod.fst == [0x15]) = true ∧
    gives (step (lengthWait 0x02 6)) (fun t => t.ctl == .hdr && t.txl.map Prod.fst == [0x06]) = true ∧
    gives (step (lengthWait 0x02 7)) (fun t => t.ctl == .waitSoh && t.txl.map Prod.fst == [0x15]) = true ∧
    gives (step { lengthWait 0x01 0x05 with rxq := [0x40] }) (fun t => t.txl.map Prod.fst == [0x15]) = true ∧
    gives (step { lengthWait 0x01 0x04 with rxq := [0x40] }) (fun t => t.txl.map Prod.fst == [0x06]) = true ∧
    gives (step (lengthWait 0x14 0)) (fun t => t.ctl == .crcLo && t.txl.map Prod.fst == [0x06, 0x06]) = true := by
  decide +kernel

/-- TC0 with CHANGE_BAUD and WRITE_RAM stripped of their header bytes, which no well-formed configuration has: the clauses of
the length check that only such a table reaches. -/
def bare : Config := { Config.tc0 with table := [⟨.changeBaud, 0x11, 0, [0]⟩, ⟨.directWriteFlash, 0x10, 0, [0, 4]⟩] }

theorem test_witness_LengthCheckAndInit_noHeader :
    gives (exec .changeBaud { lengthWait 0x11 0 with cfg := bare })
      (fun t => t.ctl == .waitSoh && t.txl.map Prod.fst == [0x06, 0x15]) = true ∧
    gives (exec .directWriteFlash { lengthWait 0x10 1 with cfg := bare })
      (fun t => t.ctl == .pld && t.txl.map Prod.fst == [0x06]) = true := by decide +kernel

/-- A header of CHANGE_BAUD with `hdr` received. -/
def baudWait (hdr : List Byte) (b : Byte) : State :=
  wait idle .hdr { rec .changeBaud with hs := some 4, pl := some 0, hdr := some hdr, pld := some [] } b

theorem test_witness_HeaderBytes :
    gives (step (baudWait [0x40, 0x42] 0x0F)) (fun t => t.ctl == .hdr) = true ∧
    gives (step (baudWait [0x40, 0x42, 0x0F] 0)) (fun t => t.ctl == .crcLo && t.txl.map Prod.fst == [0x06]) = true ∧
    gives (step (baudWait [0x80, 0x25, 0x00] 0)) (fun t => t.ctl == .waitSoh && t.txl.map Prod.fst == [0x15]) = true ∧
    gives (step (wait idle .hdr { rec .writeRam with hs := some 4, pl := some 1, hdr := some [0, 0, 0], pld := some [] } 0x80))
      (fun t => t.ctl == .pld && (t.cmd.bind Cmd.f) == some (.writeRam (.scratch 0))) = true := by decide +kernel

theorem test_witness_PayloadBytes :
    (wait idle .pld writing 9).Waiting .pld writing .writeRam 9 [] ∧
    gives (step (wait idle .pld { writing with pl := some 3 } 9)) (fun t => t.ctl == .pld) = true :=
  ⟨wait_waiting _ _ _ _ _ rfl, by decide +kernel⟩

theorem test_witness_CrcConfirmation :
    let c : Cmd := { rec .dummy with f := some .dummy, pld := some [], rcrcLo := some 0x34 }
    gives (step (wait idle .crcLo c 0x34)) (fun t => t.ctl == .crcHi) = true ∧
    gives (step (wait idle .crcHi c 0x12)) (fun t => t.ctl == .exec && (t.cmd.bind Cmd.xq) == some []) = true ∧
    gives (step (wait idle .crcHi c 0x13)) (fun t => t == { idle with txl := [(0x15, 115200)] }) = true := by decide +kernel

theorem test_witness_TimeoutAtBoundedWait :
    gives (step { idle with env := [.timeout] }) (fun t => t == State.reset) = true ∧
    gives (step { idle with env := [.timeout], ctl := .rspCrcHi, cmd := some { rec .dummy with newBaud := some 57600 } })
      (fun t => t == idle) = true := by decide +kernel

theorem test_witness_ResponseLengthAnswer :
    let c := rspRec .getVersion .getVersion 7
    (wait idle .rspAck c ACK).Waiting .rspAck c .getVersion ACK [] ∧ c.q = some [] ∧
    gives (step (wait idle .rspAck c NAK)) (fun t => t == idle) = true ∧
    gives (step (wait idle .rspAck c 0x77)) (fun t => t == idle) = true :=
  ⟨wait_waiting _ _ _ _ _ rfl, rfl, by decide +kernel, by decide +kernel⟩

theorem test_witness_ResponseCrc :
    let c : Cmd := { rec .getVersion with rcrcLo := some 0x34 }
    gives (step (wait idle .rspCrcLo c 0x34)) (fun t => t.ctl == .rspCrcHi) = true ∧
    gives (step (wait idle .rspCrcHi c 0x12)) (fun t => t == { idle with txl := [(0x06, 115200)] }) = true ∧
    gives (step (wait idle .rspCrcHi c 0x11)) (fun t => t == { idle with txl := [(0x15, 115200)] }) = true := by
  decide +kernel

theorem test_witness_ResponseLengths :
    (ex tiny .readOtp (.readOtp 0 4) []).Executing (exRec .readOtp (.readOtp 0 4) []) .readOtp (.readOtp 0 4) [] ∧
    (4 : U16).toNat * tiny.cfg.w8 ≤ 65535 ∧ tiny.cfg.WF ∧
    (ex tiny .readRam (.readRam (.scratch 0) 0xFFFF) []).Executing (exRec .readRam (.readRam (.scratch 0) 0xFFFF) []) .readRam
      (.readRam (.scratch 0) 0xFFFF) [] ∧
    (ex tiny .getFlashState .getFlashState []).Executing (exRec .getFlashState .getFlashState []) .getFlashState
      .getFlashState [] :=
  ⟨ex_executing _ _ _ _, by decide, test_small_wf, ex_executing _ _ _ _, ex_executing _ _ _ _⟩

theorem test_witness_ReadResponses :
    gives (exec .readRam (wait tiny .rspAck (rspRec .readRam (.readRam (.scratch 0) 8) 8) ACK))
      (fun t => t.txl.length == 8 && t.evl == []) = true ∧
    gives (exec .readRam (wait tiny .rspAck (rspRec .readRam (.readRam (.concrete 31) 1) 1) ACK))
      (fun t => t.evl == [.read .ram 31 1]) = true ∧
    gives (exec .readFlash (wait tiny .rspAck (rspRec .readFlash (.readFlash 7 1) 1) ACK))
      (fun t => t.txl.map Prod.fst == [0xFF]) = true ∧
    gives (exec .readOtp (wait tiny .rspAck (rspRec .readOtp (.readOtp 3 1) 4) ACK)) (fun t => t.txl.length == 4) = true ∧
    (partitionAddr Config.tc0 2 0x1FFFF 1 = some 0x2FFFF) ∧
    gives (exec .isEmptyFlash (wait tiny .rspAck (rspRec .isEmptyFlash (.isEmptyFlash 0 8) 4) ACK))
      (fun t => t.txl.map Prod.fst == [8, 0, 0, 0]) = true := by decide +kernel

theorem test_witness_ConstantResponses :
    let c := rspRec .getFlashState .getFlashState 1
    (wait idle .rspAck c ACK).Waiting .rspAck c .getFlashState ACK [] ∧ c.rspLen = some 1 ∧ (1 : U16) ≠ 0 :=
  ⟨wait_waiting _ _ _ _ _ rfl, rfl, by decide⟩

theorem test_witness_LengthMatchesData : small.WF ∧ (handlerOf .readOtp).header small (.readOtp 0 4) 0 = true ∧
    (HdrFields.readOtp (α := Tagged) 0 4).command = .readOtp :=
  ⟨test_small_wf, by decide, rfl⟩

theorem test_witness_WriteRamResult :
    gives (exec .writeRam (ex tiny .writeRam (.writeRam (.scratch 7)) [.write (.scratch 7) [1]]))
      (fun t => t.buf == [(7, 1)]) = true ∧
    gives (exec .writeRam (ex tiny .writeRam (.writeRam (.concrete 31)) [.write (.concrete 31) [1]]))
      (fun t => t.ram == [(31, 1)]) = true := by decide +kernel

theorem test_witness_CopyToFlashReadsSource :
    gives (exec .copyToFlash (ex tiny .copyToFlash (.copyToFlash (.concrete 31) 7 1) [.copy (.concrete 31) 1 7]))
      (fun t => (t.cmd.bind Cmd.xq) == some [.chunk 7 [0]] && t.evl == [.read .ram 31 1]) = true ∧
    gives (exec .copyToFlash (ex tiny .copyToFlash (.copyToFlash (.concrete 16) 7 0) [.copy (.concrete 16) 0 7]))
      (fun t => (t.cmd.bind Cmd.xq) == some [] && t.evl == [.read .ram 16 0]) = true ∧
    gives (exec .copyToFlash (ex tiny .copyToFlash (.copyToFlash (.scratch 8) 7 0) [.copy (.scratch 8) 0 7]))
      (fun t => (t.cmd.bind Cmd.xq) == some [] && t.evl == []) = true := by decide +kernel

theorem test_witness_FlashPrimitiveSteps :
    small.storageFaults = false ∧ Command.eraseFlash ∈ [Command.copyToFlash, .eraseFlash, .writePartition, .directWriteFlash] ∧
    (ex tiny .eraseFlash (.eraseFlash 4 4) [.erase 4]).Executing (exRec .eraseFlash (.eraseFlash 4 4) [.erase 4]) .eraseFlash
      (.eraseFlash 4 4) [.erase 4] ∧ 4 % small.sectorSize = 0 ∧ 4 + small.sectorSize ≤ small.flashSize ∧
    gives (exec .writePartition (ex tiny .writePartition (.writePartition 1 7) [.flashWrite 7 [0x10]]))
      (fun t => t.flash == [(7, 0x10)]) = true :=
  ⟨rfl, by decide, ex_executing _ _ _ _, by decide, by decide, by decide +kernel⟩

/-- A safety write of three bytes over a sector boundary, with bytes that need an erase. -/
def safeState : State := ex { tiny with flash := [(2, 0), (3, 0)] } .directWriteFlash (.directWriteFlash 2 1)
  (safeWrite 2 [1, 2, 3] ++ [.verify 2 [1, 2, 3]])

theorem test_witness_SafeWriteLeavesTheData : small.WF ∧ small.storageFaults = false ∧ 2 + [1, 2, 3].length ≤ small.flashSize ∧
    safeState.Executing (exRec .directWriteFlash (.directWriteFlash 2 1) (safeWrite 2 [1, 2, 3] ++ [.verify 2 [1, 2, 3]]))
      .directWriteFlash (.directWriteFlash 2 1) (safeWrite 2 [1, 2, 3] ++ [.verify 2 [1, 2, 3]]) :=
  ⟨test_small_wf, rfl, by decide, ex_executing _ _ _ _⟩

theorem test_witness_SafeWriteErasesLittle :
    gives (execTimes .directWriteFlash 6 safeState) (fun t => t.flash == [(2, 1), (3, 2), (4, 3)] &&
      t.evl == [.read .flash 2 2, .read .flash 0 4, .erase 0, .write .flash 2 2, .read .flash 4 1, .write .flash 4 1]) = true := by
  decide +kernel

theorem test_witness_SafeWriteTwiceOnlyReads :
    let s := ex { tiny with flash := [(2, 1), (3, 2), (4, 3)] } .directWriteFlash (.directWriteFlash 2 0) (safeWrite 2 [1, 2, 3])
    (∀ i < 3, s.flashByte (2 + i) = [1, 2, 3].getD i 0) ∧
    gives (execTimes .directWriteFlash 2 s) (fun t => t.evl == [.read .flash 2 2, .read .flash 4 1]) = true := by
  decide +kernel

theorem test_witness_VerifyMismatchFails :
    let s (v : Byte) := ex tiny .directWriteFlash (.directWriteFlash 7 1) [.verify 7 [v]]
    gives (exec .directWriteFlash (s 0xFF)) (fun t => (t.cmd.bind Cmd.xq) == some [.check [0xFF] [0xFF]]) = true ∧
    gives (execTimes .directWriteFlash 2 (s 0xFF)) (fun t => t.ctl == .waitSoh && t.txl.map Prod.fst == [0x06]) = true ∧
    gives (execTimes .directWriteFlash 2 (s 0)) (fun t => t.ctl == .waitSoh && t.txl.map Prod.fst == [0x15]) = true := by
  decide +kernel

theorem test_witness_EraseFlashResult :
    let s := ex { tiny with flash := [(0, 1), (7, 2)] } .eraseFlash (.eraseFlash 7 1) (eraseRange small 7 1)
    small.storageFaults = false ∧ 7 + 1 ≤ small.flashSize ∧
    gives (execTimes .eraseFlash 1 s) (fun t => t.flash == [(0, 1)] && t.evl == [.erase 4]) = true := by decide +kernel

theorem test_witness_WriteOtpResult :
    let s := ex tiny .writeOtp (.writeOtp 3) (programCells small 3 [1, 2, 3, 4])
    [1, 2, 3, 4].length % small.w8 = 0 ∧ 3 + [1, 2, 3, 4].length / small.w8 ≤ small.otpWords ∧
    gives (execTimes .writeOtp 1 s) (fun t => t.otp == [(12, 1), (13, 2), (14, 3), (15, 4)]) = true := by decide +kernel

theorem test_witness_FaultsLeaveAnyBytes :
    let bad (op : ExecOp) (left : List Byte) : State :=
      ex { tiny with cfg := { small with storageFaults := true }, answers := [left] } .writeOtp (.writeOtp 1) [op]
    gives (exec .writeOtp (bad (.flashWrite 7 [1]) [0x77])) (fun t => t.flash == [(7, 0x77)] && t.answers == []) = true ∧
    gives (exec .writeOtp (bad (.erase 4) [1, 2, 3, 4])) (fun t => t.flash == [(4, 1), (5, 2), (6, 3), (7, 4)]) = true ∧
    gives (exec .writeOtp (bad .chipErase [1, 2, 3, 4, 5, 6, 7, 8])) (fun t => t.flashByte 7 == 8) = true ∧
    gives (exec .writeOtp (bad (.program 3 [0, 0, 0, 0]) [9, 9, 9, 9])) (fun t => t.otpByte 15 == 9) = true := by decide +kernel

theorem test_witness_RunAcknowledgesThenJumps :
    (ex idle .run (.run 3) []).Executing (exRec .run (.run 3) []) .run (.run 3) [] := ex_executing _ _ _ _

theorem test_witness_ChipEraseResult : small.storageFaults = false ∧
    (ex tiny .chipEraseFlash .chipEraseFlash [.chipErase]).Executing (exRec .chipEraseFlash .chipEraseFlash [.chipErase])
      .chipEraseFlash .chipEraseFlash [.chipErase] := ⟨rfl, ex_executing _ _ _ _⟩

theorem test_witness_NoResponseCommandsComplete :
    (ex idle .writeOtp (.writeOtp 0) []).Executing (exRec .writeOtp (.writeOtp 0) []) .writeOtp (.writeOtp 0) [] ∧
    (exRec .gpioWd (.gpioWd 1) [.gpio 1]).newBaud = none ∧
    gives (exec .dummy { idle with ctl := .exec, cmd := some { exRec .dummy .dummy [] with newBaud := some 57600 } })
      (fun t => t.baud == 57600 && t.txl == [(0x06, 115200)]) = true :=
  ⟨ex_executing _ _ _ _, rfl, by decide +kernel⟩

theorem test_witness_PartitionTableRoundTrip : (∀ e ∈ Config.tc0.ptable, e.wf = true) ∧
    (encodeTable Config.tc0.ptable).length ≤ 65535 ∧
    PartEntry.ofBody ((⟨1, 2, 3, 4, [0x41]⟩ : PartEntry).body ++ [0xEE]) = ⟨1, 2, 3, 4, [0x41]⟩ := by decide +kernel

theorem test_witness_OtpGuard :
    [0x00000001, 0xFFFFFFFF].length = [1, 2].length ∧ (∀ v ∈ [0x00000001, 0xFFFFFFFF], v < 2 ^ (8 * Config.tc0.w8)) ∧
    (∀ v ∈ [1, 2], v < 2 ^ (8 * Config.tc0.w8)) ∧ otpClassify Config.tc0 [0x00000001, 0xFFFFFFFF] [1, 2] = .empty ∧
    otpArgError Config.tc0 0 0 = true ∧ otpStart Config.tc0 16 [1, 2] = .send (otpReadFrame 16 2) .readFirst ∧
    otpNext Config.tc0 16 [1] false .readFirst (.data [0xFF, 0xFF, 0xFF, 0xFF]) =
      .send (otpWriteFrame Config.tc0 16 [1]) .write := by
  decide +kernel


end Sys2Proof.Tests
end

section
/-! The storage and the primitives that write it: the canonical form and the bounds of the four spaces (20_memory.md R50, R60-R66). -/

namespace Sys2Proof.Machine

/-! ## States with the same storage -/

/-- `t` has the configuration and the four storage spaces of `s`. -/
structure State.SameStorage (s t : State) : Prop where
  cfg : t.cfg = s.cfg
  ram : t.ram = s.ram
  buf : t.buf = s.buf
  flash : t.flash = s.flash
  otp : t.otp = s.otp

theorem State.SameStorage.memWF {s t : State} (h : s.SameStorage t) (m : s.MemWF) : t.MemWF :=
  ⟨h.ram ▸ m.ram, h.buf ▸ m.buf, h.flash ▸ m.flash, h.otp ▸ m.otp⟩

theorem State.SameStorage.inSpace {s t : State} (h : s.SameStorage t) (m : s.InSpace) : t.InSpace :=
  ⟨by rw [h.cfg, h.ram]; exact m.ram, by rw [h.cfg, h.buf]; exact m.buf, by rw [h.cfg, h.flash]; exact m.flash,
    by rw [h.cfg, h.otp]; exact m.otp⟩

/-! ## Bounds -/

theorem flashFits_iff {cfg : Config} {a n : Nat} : flashFits cfg a n = true ↔ a + n ≤ cfg.flashSize := by simp [flashFits]

theorem otpFits_iff {cfg : Config} {w k : Nat} : otpFits cfg w k = true ↔ w + k ≤ cfg.otpWords := by simp [otpFits]

theorem bufRangeOk_iff {cfg : Config} {o n : Nat} : bufRangeOk cfg o n = true ↔ o + n ≤ cfg.bufSize := by simp [bufRangeOk]

theorem flashRangeOk_fits {cfg : Config} {a n : Nat} (h : flashRangeOk cfg a n = true) : flashFits cfg a n = true := by
  simp only [flashRangeOk, Bool.and_eq_true] at h
  exact h.2

theorem otpRangeOk_fits {cfg : Config} {w k : Nat} (h : otpRangeOk cfg w k = true) : otpFits cfg w k = true := by
  simp only [otpRangeOk, Bool.and_eq_true] at h
  exact h.2

/-- A partition address is one where the range fits the flash (20_memory.md R56). -/
theorem partitionAddr_fits {cfg : Config} {id : Byte} {off n a : Nat} (h : partitionAddr cfg id off n = some a) :
    flashFits cfg a n = true := by
  unfold partitionAddr at h
  split at h
  · cases h
  · simp only [Option.ite_none_right_eq_some, Option.some.injEq] at h
    obtain ⟨⟨-, hr⟩, rfl⟩ := h
    exact flashRangeOk_fits hr

/-- Each byte of a RAM range is a RAM address (20_memory.md R50, R53). -/
theorem ramRangeOk_byte {cfg : Config} {a n x : Nat} (h : ramRangeOk cfg a n = true) (lo : a ≤ x) (hi : x < a + n) :
    ramRangeOk cfg x 1 = true := by
  simp only [ramRangeOk, noWrap, Bool.and_eq_true, decide_eq_true_eq, List.any_eq_true] at h ⊢
  obtain ⟨hw, r, hr, hlo, hhi⟩ := h
  exact ⟨by omega, r, hr, by omega, by omega⟩

/-- A cell inside the OTP ends inside its bytes (20_memory.md R69). -/
theorem otpFits_bytes {cfg : Config} {w : Nat} (h : otpFits cfg w 1 = true) :
    w * cfg.w8 + cfg.w8 ≤ cfg.otpWords * cfg.w8 := by
  rw [otpFits_iff] at h
  simpa [Nat.add_mul] using Nat.mul_le_mul_right cfg.w8 h

/-- A write keeps every address where a property of addresses holds, if it holds of the range written. -/
theorem Memory.writeBytes_within {p : Nat → Prop} {blank : Byte} {m : Memory} {a : Nat} {v : List Byte}
    (hm : ∀ c ∈ m, p c.1) (hv : ∀ x, a ≤ x → x < a + v.length → p x) : ∀ c ∈ Memory.writeBytes blank m a v, p c.1 :=
  fun c hc => (Memory.mem_writeBytes hc).elim (hm c) (fun ⟨lo, hi⟩ => hv c.1 lo hi)

/-! ## New contents of one space -/

theorem State.MemWF.setFlash {s : State} {m : Memory} (h : s.MemWF) (hm : Memory.wf Space.flash.blank m) :
    (s.setFlash m).MemWF := ⟨h.ram, h.buf, hm, h.otp⟩

theorem State.MemWF.setOtp {s : State} {m : Memory} (h : s.MemWF) (hm : Memory.wf Space.otp.blank m) :
    (s.setOtp m).MemWF := ⟨h.ram, h.buf, h.flash, hm⟩

theorem State.InSpace.setFlash {s : State} {m : Memory} (h : s.InSpace) (hm : ∀ c ∈ m, c.1 < s.cfg.flashSize) :
    (s.setFlash m).InSpace := ⟨h.ram, h.buf, hm, h.otp⟩

theorem State.InSpace.setOtp {s : State} {m : Memory} (h : s.InSpace) (hm : ∀ c ∈ m, c.1 < s.cfg.otpWords * s.cfg.w8) :
    (s.setOtp m).InSpace := ⟨h.ram, h.buf, h.flash, hm⟩

theorem State.emit_sameStorage (s : State) (es : List Event) : s.SameStorage (s.emit es) := ⟨rfl, rfl, rfl, rfl, rfl⟩

theorem State.afterFault_sameStorage (s : State) : s.SameStorage s.afterFault := by constructor <;> simp

/-- A flash range written after a possible draw keeps the canonical form and the bounds (20_memory.md R60, R63, R64). -/
theorem State.flashWritten_memWF {s : State} (h : s.MemWF) (a : Nat) (v : List Byte) (es : List Event) :
    ((s.afterFault.setFlash (Memory.writeBytes Space.flash.blank s.flash a v)).emit es).MemWF :=
  (State.emit_sameStorage _ _).memWF ((s.afterFault_sameStorage.memWF h).setFlash (Memory.writeBytes_wf h.flash _ _))

theorem State.flashWritten_inSpace {s : State} (h : s.InSpace) {a : Nat} {v : List Byte}
    (hv : a + v.length ≤ s.cfg.flashSize) (es : List Event) :
    ((s.afterFault.setFlash (Memory.writeBytes Space.flash.blank s.flash a v)).emit es).InSpace := by
  refine (State.emit_sameStorage _ _).inSpace ((s.afterFault_sameStorage.inSpace h).setFlash ?_)
  rw [State.afterFault_cfg]
  exact Memory.writeBytes_within (p := (· < s.cfg.flashSize)) h.flash (fun x _ hx => by omega)

/-! ## The primitives -/

@[simp] theorem State.readCell_length (s : State) (w : Nat) : (s.readCell w).length = s.cfg.w8 := by simp [State.readCell]

@[simp] theorem State.readFlash_length (s : State) (a n : Nat) : (s.readFlash a n).length = n := by simp [State.readFlash]

@[simp] theorem State.readTagged_length (s : State) (t : Tagged) (n : Nat) : (s.readTagged t n).length = n := by
  cases t <;> simp [State.readTagged, State.readBuf, State.readRam]

@[simp] theorem andBytes_length (cur v : List Byte) : (andBytes cur v).length = min cur.length v.length := by
  simp [andBytes]

theorem State.MemWF.writeTagged {s : State} (h : s.MemWF) (t : Tagged) (v : List Byte) : (s.writeTagged t v).MemWF := by
  cases t with
  | scratch o => exact ⟨h.ram, Memory.writeBytes_wf h.buf _ _, h.flash, h.otp⟩
  | concrete a => exact ⟨Memory.writeBytes_wf h.ram _ _, h.buf, h.flash, h.otp⟩

theorem State.InSpace.writeTagged {s : State} (h : s.InSpace) {t : Tagged} {v : List Byte}
    (hv : valid s.cfg t v.length = true) : (s.writeTagged t v).InSpace := by
  cases t with
  | scratch o =>
    have := bufRangeOk_iff.mp hv
    exact ⟨h.ram, Memory.writeBytes_within (p := (· < s.cfg.bufSize)) h.buf (fun x _ hx => by omega), h.flash, h.otp⟩
  | concrete a =>
    exact ⟨Memory.writeBytes_within (p := fun x => ramRangeOk s.cfg x 1 = true) h.ram
      (fun x lo hi => ramRangeOk_byte hv lo hi), h.buf, h.flash, h.otp⟩

theorem State.MemWF.eraseChip {s : State} (h : s.MemWF) : s.eraseChip.MemWF :=
  (State.emit_sameStorage _ _).memWF ((s.afterFault_sameStorage.memWF h).setFlash (Memory.cellsFrom_wf _ _ _))

theorem State.InSpace.eraseChip {s : State} (h : s.InSpace) : s.eraseChip.InSpace := by
  refine (State.emit_sameStorage _ _).inSpace ((s.afterFault_sameStorage.inSpace h).setFlash fun c hc => ?_)
  have hlt := (Memory.mem_cellsFrom hc).2.1
  have hlen : (if s.cfg.storageFaults then s.drawn.take s.cfg.flashSize else []).length ≤ s.cfg.flashSize := by
    split <;> simp
  rw [State.afterFault_cfg]
  omega

theorem State.MemWF.programCell {s : State} (h : s.MemWF) (w : Nat) (v : List Byte) : (s.programCell w v).MemWF :=
  (State.emit_sameStorage _ _).memWF ((s.afterFault_sameStorage.memWF h).setOtp (Memory.writeBytes_wf h.otp _ _))

/-- A cell inside the OTP, written with at most its `W/8` bytes, stays inside it. -/
theorem State.InSpace.writeCell {s : State} (h : s.InSpace) {w : Nat} {v : List Byte} (hw : otpFits s.cfg w 1 = true)
    (hv : v.length ≤ s.cfg.w8) :
    ∀ c ∈ Memory.writeBytes Space.otp.blank s.otp (w * s.cfg.w8) v, c.1 < s.cfg.otpWords * s.cfg.w8 := by
  have := otpFits_bytes hw
  exact Memory.writeBytes_within (p := (· < s.cfg.otpWords * s.cfg.w8)) h.otp (fun x _ hx => by omega)

theorem State.InSpace.programCell {s : State} (h : s.InSpace) {w : Nat} (v : List Byte) (hw : otpFits s.cfg w 1 = true) :
    (s.programCell w v).InSpace := by
  refine (State.emit_sameStorage _ _).inSpace ((s.afterFault_sameStorage.inSpace h).setOtp ?_)
  rw [State.afterFault_cfg]
  exact h.writeCell hw (by simp)

/-- Every storage primitive keeps the canonical form. -/
theorem perform_memWF {op : ExecOp} {s t : State} {more : List ExecOp} (e : perform op s = some (t, more))
    (h : s.MemWF) : t.MemWF := by
  cases op <;> simp only [perform, Option.ite_none_right_eq_some, Option.some.injEq, Prod.mk.injEq] at e
  case write a v => obtain ⟨-, rfl, -⟩ := e; exact h.writeTagged a v
  case copy | chunk | sector | verify => obtain ⟨-, rfl, -⟩ := e; exact (State.emit_sameStorage _ _).memWF h
  case flashWrite | erase => obtain ⟨-, rfl, -⟩ := e; exact State.flashWritten_memWF h _ _ _
  case program => obtain ⟨-, rfl, -⟩ := e; exact h.programCell _ _
  case chipErase => obtain ⟨rfl, -⟩ := e; exact h.eraseChip
  case setBaud | gpio | check => obtain ⟨rfl, -⟩ := e; exact h

/-- Every storage primitive stays inside its space: its precondition bounds the range it writes (20_memory.md R61-R66). -/
theorem perform_inSpace {op : ExecOp} {s t : State} {more : List ExecOp} (e : perform op s = some (t, more))
    (h : s.InSpace) : t.InSpace := by
  cases op <;> simp only [perform, Option.ite_none_right_eq_some, Option.some.injEq, Prod.mk.injEq] at e
  case write a v => obtain ⟨hv, rfl, -⟩ := e; exact h.writeTagged hv
  case copy | chunk | sector | verify => obtain ⟨-, rfl, -⟩ := e; exact (State.emit_sameStorage _ _).inSpace h
  case flashWrite a v =>
    obtain ⟨hv, rfl, -⟩ := e
    exact State.flashWritten_inSpace h (by simpa using flashFits_iff.mp hv) _
  case erase s0 =>
    obtain ⟨⟨-, hv⟩, rfl, -⟩ := e
    exact State.flashWritten_inSpace h (by simpa using flashFits_iff.mp hv) _
  case program w v => obtain ⟨⟨hw, -⟩, rfl, -⟩ := e; exact h.programCell v hw
  case chipErase => obtain ⟨rfl, -⟩ := e; exact h.eraseChip
  case setBaud | gpio | check => obtain ⟨rfl, -⟩ := e; exact h

/-! ## RESET -/

/-- What a RESET during a primitive does: it changes flash or OTP only (70_reset_and_hazards.md R332). -/
theorem cutOp_frame (op : ExecOp) (left : List Byte) (s : State) :
    (cutOp op left s).cfg = s.cfg ∧ (cutOp op left s).txl = s.txl ∧ (cutOp op left s).evl = s.evl := by
  cases op <;> simp [cutOp, cutFlash]

theorem cutOp_memWF (op : ExecOp) (left : List Byte) {s : State} (h : s.MemWF) : (cutOp op left s).MemWF := by
  cases op with
  | flashWrite | erase | chipErase => exact h.setFlash (Memory.writeBytes_wf h.flash _ _)
  | program => exact h.setOtp (Memory.writeBytes_wf h.otp _ _)
  | _ => exact h

theorem cutFlash_inSpace {s : State} (h : s.InSpace) {a n : Nat} (hf : flashFits s.cfg a n = true) (left : List Byte) :
    (cutFlash a n left s).InSpace := by
  have := flashFits_iff.mp hf
  have : (left.take n).length ≤ n := List.length_take_le _ _
  exact h.setFlash (Memory.writeBytes_within (p := (· < s.cfg.flashSize)) h.flash (fun x _ hx => by omega))

theorem cutOp_inSpace {op : ExecOp} (left : List Byte) {s : State} (h : s.InSpace) (ok : op.ok s.cfg = true) :
    (cutOp op left s).InSpace := by
  cases op with
  | flashWrite a v => exact cutFlash_inSpace h ok left
  | erase s0 =>
    simp only [ExecOp.ok, Bool.and_eq_true] at ok
    exact cutFlash_inSpace h ok.2 left
  | chipErase => exact cutFlash_inSpace h (flashFits_iff.mpr (by omega)) left
  | program w v =>
    simp only [ExecOp.ok, Bool.and_eq_true] at ok
    exact h.setOtp (h.writeCell ok.1 (by simp))
  | _ => exact h

theorem resetState_memWF (ram buf : List Host.Cell) {s : State} (h : s.MemWF) : (resetState ram buf s).MemWF :=
  ⟨Memory.ofCells_wf _ _, Memory.ofCells_wf _ _, h.flash, h.otp⟩

/-- Whatever contents RAM and BUF wake up with, the entries lie inside their spaces (10_state.md R43, 20_memory.md R50). -/
theorem resetState_inSpace (ram buf : List Host.Cell) {s : State} (h : s.InSpace) : (resetState ram buf s).InSpace := by
  refine ⟨fun c hc => ?_, fun c hc => ?_, h.flash, h.otp⟩
  · obtain ⟨d, hd, e⟩ := Memory.mem_ofCells hc
    exact e ▸ (List.mem_filter.mp hd).2
  · obtain ⟨d, hd, e⟩ := Memory.mem_ofCells hc
    have := bufRangeOk_iff.mp (List.mem_filter.mp hd).2
    simp only [resetState_cfg]
    omega

end Sys2Proof.Machine
end

section
/-! What a step does outside the record: the configuration, the logs, the rate, and for a byte the storage
(10_state.md R35, R36, R40; 41_framing_fsm.md R160). -/

namespace Sys2Proof.Machine

/-! ## Effects -/

/-- The rate of `t` is that of `s`, or `t` is the completion of a command at a rate that `rate` admits
(41_framing_fsm.md R160). -/
def State.RateStep (rate : U32 → Prop) (s t : State) : Prop :=
  t.baud = s.baud ∨ (t.ctl = .waitSoh ∧ t.cmd = none ∧ rate t.baud)

/-- What an event of the engine may change outside the record and the storage: it appends to the logs, each byte sent at the
rate before the event, and may change the rate at a completion. -/
structure State.Effect (rate : U32 → Prop) (s t : State) : Prop where
  cfg : t.cfg = s.cfg
  sent : ∃ bs, t.txl = s.txl ++ s.sent bs
  logged : ∃ es, t.evl = s.evl ++ es
  baud : s.RateStep rate t

/-- What a byte may change outside the record, `newBaud` being the pending rate: the storage stays, and only reads are
logged (41_framing_fsm.md R141, R164). -/
structure State.ByteEffect (newBaud : Option U32) (s t : State) : Prop extends s.SameStorage t where
  sent : ∃ bs, t.txl = s.txl ++ s.sent bs
  logged : ∃ es, t.evl = s.evl ++ es ∧ ∀ e ∈ es, e.isRead = true
  baud : s.RateStep (fun b => newBaud = some b) t

theorem State.ByteEffect.effect {nb : Option U32} {s t : State} (h : s.ByteEffect nb t) :
    s.Effect (fun b => nb = some b) t :=
  ⟨h.cfg, h.sent, h.logged.imp fun _ he => he.1, h.baud⟩

theorem State.ByteEffect.refl (nb : Option U32) (s : State) : s.ByteEffect nb s :=
  ⟨⟨rfl, rfl, rfl, rfl, rfl⟩, ⟨[], by simp [State.sent]⟩, ⟨[], by simp⟩, .inl rfl⟩

section
variable {nb : Option U32} {s t : State}

/-- Entering a control state with another record is no effect, but a completion is seen by the state entered. -/
theorem State.ByteEffect.enter (k : Ctl) (c : Option Cmd) : s.ByteEffect nb (s.enter k c) :=
  ⟨⟨rfl, rfl, rfl, rfl, rfl⟩, ⟨[], by simp [State.sent]⟩, ⟨[], by simp⟩, .inl rfl⟩

theorem State.ByteEffect.of_popRx (h : s.popRx.ByteEffect nb t) : s.ByteEffect nb t :=
  ⟨⟨h.cfg, h.ram, h.buf, h.flash, h.otp⟩, h.sent, h.logged, h.baud⟩

theorem State.ByteEffect.of_tx {bs : List Byte} (h : (s.tx bs).ByteEffect nb t) : s.ByteEffect nb t := by
  obtain ⟨bs', hs⟩ := h.sent
  exact ⟨⟨h.cfg, h.ram, h.buf, h.flash, h.otp⟩, ⟨bs ++ bs', by simp [hs, State.sent]⟩, h.logged, h.baud⟩

theorem State.ByteEffect.of_reads {es : List Event} (hr : ∀ e ∈ es, e.isRead = true) (h : (s.emit es).ByteEffect nb t) :
    s.ByteEffect nb t := by
  obtain ⟨es', he, hr'⟩ := h.logged
  refine ⟨⟨h.cfg, h.ram, h.buf, h.flash, h.otp⟩, h.sent, ⟨es ++ es', by simp [he], fun e h => ?_⟩, h.baud⟩
  exact (List.mem_append.mp h).elim (hr e) (hr' e)

theorem State.Effect.of_emit {rate : U32 → Prop} {es : List Event} (h : (s.emit es).Effect rate t) : s.Effect rate t := by
  obtain ⟨es', he⟩ := h.logged
  exact ⟨h.cfg, h.sent, ⟨es ++ es', by simp [he]⟩, h.baud⟩

end

theorem raiseAbort_effect {nb : Option U32} {code : Abort} {s t : State} (e : raiseAbort code s = .next t) :
    s.ByteEffect nb t := by
  cases e
  exact (State.ByteEffect.enter _ _).of_tx

theorem complete_effect {c : Cmd} {s t : State} (e : complete c s = .next t) : s.ByteEffect c.newBaud t := by
  rw [complete_eq] at e
  cases e
  refine ⟨⟨rfl, rfl, rfl, rfl, rfl⟩, ⟨[], by simp [State.sent]⟩, ⟨[], by simp⟩, ?_⟩
  cases h : c.newBaud with
  | none => exact .inl rfl
  | some b => exact .inr ⟨rfl, rfl, by simp⟩

/-! ## The bytes of a frame -/

theorem idleByte_effect {nb : Option U32} {b : Byte} {s t : State} (e : idleByte b s = .next t) : s.ByteEffect nb t := by
  unfold idleByte at e
  split at e <;> cases e
  · exact (State.ByteEffect.enter _ _).of_popRx
  · exact (State.ByteEffect.refl _ _).of_popRx

theorem frameByte_effect {nb : Option U32} {b : Byte} {s t : State} (e : frameByte b s = .next t) : s.ByteEffect nb t := by
  obtain ⟨c, -, e⟩ := need_next.mp e
  split at e <;> cases e
  all_goals exact (State.ByteEffect.enter _ _).of_popRx

theorem unknownByte_effect {nb : Option U32} {b : Byte} {s t : State} (e : unknownByte b s = .next t) :
    s.ByteEffect nb t := by
  obtain ⟨c, -, e⟩ := need_next.mp e
  obtain ⟨lo, -, e⟩ := need_next.mp e
  cases e
  exact ((State.ByteEffect.enter _ _).of_tx (s := s.popRx)).of_popRx

section
variable {h : Handler} {b : Byte} {c : Cmd} {s t : State}

theorem afterPayload_effect (e : afterPayload h c s = .next t) : s.ByteEffect c.newBaud t := by
  obtain ⟨f, -, e⟩ := need_next.mp e
  obtain ⟨pld, -, e⟩ := need_next.mp e
  split at e
  · cases e; exact (State.ByteEffect.enter _ _).of_tx
  · exact raiseAbort_effect e

theorem afterHeader_effect (e : afterHeader h c s = .next t) : s.ByteEffect c.newBaud t := by
  obtain ⟨hdr, -, e⟩ := need_next.mp e
  obtain ⟨pl, -, e⟩ := need_next.mp e
  simp only at e
  split at e
  · split at e
    · cases e; exact .enter _ _
    · exact (afterPayload_effect e :)
  · exact raiseAbort_effect e

theorem headerAck_effect {hs : Nat} (e : headerAck h hs c s = .next t) : s.ByteEffect c.newBaud t := by
  simp only [headerAck] at e
  split at e
  · cases e; exact (State.ByteEffect.enter _ _).of_tx
  · exact (afterHeader_effect e).of_tx

theorem checkLengthAndInit_effect {len : U16} (e : checkLengthAndInit h len c s = .next t) :
    s.ByteEffect c.newBaud t := by
  simp only [checkLengthAndInit] at e
  split at e
  · exact raiseAbort_effect e
  · split at e
    · exact raiseAbort_effect e
    · split at e
      · exact (headerAck_effect e :)
      · exact raiseAbort_effect e

theorem lenHiByte_effect (e : lenHiByte h b c s = .next t) : s.ByteEffect c.newBaud t := by
  obtain ⟨lo, -, e⟩ := need_next.mp e
  exact (checkLengthAndInit_effect e).of_popRx

theorem hdrByte_effect (e : hdrByte h b c s = .next t) : s.ByteEffect c.newBaud t := by
  obtain ⟨hdr, -, e⟩ := need_next.mp e
  obtain ⟨hs, -, e⟩ := need_next.mp e
  simp only at e
  split at e
  · exact (afterHeader_effect e).of_popRx
  · cases e; exact (State.ByteEffect.enter _ _).of_popRx

theorem pldByte_effect (e : pldByte h b c s = .next t) : s.ByteEffect c.newBaud t := by
  obtain ⟨pld, -, e⟩ := need_next.mp e
  obtain ⟨pl, -, e⟩ := need_next.mp e
  simp only at e
  split at e
  · exact (afterPayload_effect e).of_popRx
  · cases e; exact (State.ByteEffect.enter _ _).of_popRx

theorem crcHiByte_effect (e : crcHiByte h b c s = .next t) : s.ByteEffect c.newBaud t := by
  obtain ⟨lo, -, e⟩ := need_next.mp e
  obtain ⟨f, -, e⟩ := need_next.mp e
  obtain ⟨pld, -, e⟩ := need_next.mp e
  split at e
  · cases e; exact ((State.ByteEffect.enter _ _).of_tx (s := s.popRx)).of_popRx
  · exact (raiseAbort_effect e).of_popRx

theorem rspCrcHiByte_effect (e : rspCrcHiByte b c s = .next t) : s.ByteEffect c.newBaud t := by
  obtain ⟨lo, -, e⟩ := need_next.mp e
  split at e
  · exact (complete_effect e).of_tx.of_popRx
  · exact (raiseAbort_effect e).of_popRx

end

/-- `SendData` logs only the reads it makes (41_framing_fsm.md R158). -/
theorem sendData_reads {n : Command} {s : State} {f : HdrFields Tagged} {q bytes : List Byte} {reads : List Event}
    (e : (handlerOf n).sendData s f q = .data bytes reads) : ∀ ev ∈ reads, ev.isRead = true := by
  cases n
  case readRam =>
    simp only [handlerOf, readRamHandler] at e
    split at e
    · rename_i src _
      split at e <;> cases e
      cases src <;> simp [readEvents, Event.isRead]
    · cases e
  case readFlash | isEmptyFlash =>
    simp only [handlerOf, readFlashHandler, isEmptyFlashHandler] at e
    split at e
    · split at e <;> cases e
      simp [Event.isRead]
    · cases e
  case readOtp =>
    simp only [handlerOf, readOtpHandler] at e
    split at e
    · split at e <;> cases e
      simp [Event.isRead]
    · cases e
  case readPartition =>
    simp only [handlerOf, readPartitionHandler] at e
    split at e
    · split at e <;> cases e
      simp [Event.isRead]
    · cases e
  all_goals cases e
  all_goals simp

theorem rspAckByte_effect {n : Command} {b : Byte} {c : Cmd} {s t : State}
    (e : rspAckByte (handlerOf n) b c s = .next t) : s.ByteEffect c.newBaud t := by
  obtain ⟨len, -, e⟩ := need_next.mp e
  obtain ⟨f, -, e⟩ := need_next.mp e
  obtain ⟨q, -, e⟩ := need_next.mp e
  simp only at e
  split at e
  · exact (raiseAbort_effect e).of_popRx
  · split at e
    · exact (complete_effect e).of_popRx
    · split at e
      · exact (complete_effect e).of_popRx
      · cases e
      · rename_i bytes reads hd
        cases e
        exact ((State.ByteEffect.enter _ _).of_tx.of_reads (s := s.popRx) (sendData_reads hd)).of_popRx

theorem commandByte_effect {n : Command} {b : Byte} {c : Cmd} {s t : State}
    (e : commandByte (handlerOf n) b c s = .next t) : s.ByteEffect c.newBaud t := by
  unfold commandByte at e
  split at e
  · exact lenHiByte_effect e
  · exact hdrByte_effect e
  · exact pldByte_effect e
  · cases e; exact (State.ByteEffect.enter _ _).of_popRx
  · exact crcHiByte_effect e
  · exact rspAckByte_effect e
  · cases e; exact (State.ByteEffect.enter _ _).of_popRx
  · exact rspCrcHiByte_effect e
  all_goals cases e

/-- A byte changes no storage, sends at the rate in force, logs only reads, and applies the pending rate if it completes the
command. -/
theorem onByte_effect {b : Byte} {s t : State} (e : onByte b s = .next t) :
    s.ByteEffect (s.cmd.bind Cmd.newBaud) t := by
  cases hk : s.ctl <;> simp only [onByte, hk] at e
  case announce | waitSoh => exact idleByte_effect e
  case typ | lenLo => exact frameByte_effect e
  case lenHi =>
    obtain ⟨c, hc, e⟩ := need_next.mp e
    obtain ⟨ty, -, e⟩ := need_next.mp e
    rw [hc]
    split at e
    · exact commandByte_effect e
    · exact unknownByte_effect e
  case exec | jumped => cases e
  all_goals
    obtain ⟨c, hc, e⟩ := need_next.mp e
    obtain ⟨n, -, e⟩ := need_next.mp e
    rw [hc]
    exact commandByte_effect e

/-! ## Exec -/

theorem State.ByteEffect.of_draw {nb : Option U32} {q : Bool} {s t : State}
    (h : (if q then s.afterDraw else s).ByteEffect nb t) : s.ByteEffect nb t := by
  cases q with
  | false => exact h
  | true =>
    obtain ⟨⟨hc, hr, hb, hf, ho⟩, hs, hl, hbaud⟩ := h
    simp only [if_true, State.sent, State.RateStep, State.afterDraw_cfg, State.afterDraw_ram, State.afterDraw_buf,
      State.afterDraw_flash, State.afterDraw_otp, State.afterDraw_txl, State.afterDraw_evl, State.afterDraw_baud] at *
    exact ⟨⟨hc, hr, hb, hf, ho⟩, hs, hl, hbaud⟩

theorem startResponse_effect {h : Handler} {f : HdrFields Tagged} {nb : Option U32} {c : Cmd} {s t : State}
    (e : startResponse h f c s = .next t) : s.ByteEffect nb t := by
  simp only [startResponse] at e
  cases e
  exact ((State.ByteEffect.enter _ _).of_tx).of_draw

/-- The end of `Exec` leaves the storage, and applies a pending rate if it completes the command. -/
theorem execDone_effect {h : Handler} {f : HdrFields Tagged} {c : Cmd} {s t : State} (e : execDone h f c s = .next t) :
    s.Effect (fun b => c.newBaud = some b) t ∧ s.SameStorage t := by
  unfold execDone at e
  split at e
  · cases e
    exact ⟨⟨rfl, ⟨[ACK], rfl⟩, ⟨_, rfl⟩, .inl rfl⟩, ⟨rfl, rfl, rfl, rfl, rfl⟩⟩
  · have he : s.ByteEffect c.newBaud t := by
      split at e
      · exact (startResponse_effect e).of_tx
      · exact (complete_effect e).of_tx
    exact ⟨he.effect, he.toSameStorage⟩

theorem State.emit_nil (s : State) : s.emit [] = s := by simp [State.emit]

theorem State.emit_emit (s : State) (es es' : List Event) : (s.emit es).emit es' = s.emit (es ++ es') := by
  simp [State.emit]

/-- What an exec-step does after its pure computations, on queue `xq` (41_framing_fsm.md R155, R156). -/
inductive ExecOutcome (h : Handler) (f : HdrFields Tagged) (xq : List ExecOp) (c : Cmd) (s t : State) : Prop
  | ended (e : execDone h f c s = .next t)
  | failed (e : raiseAbort .execFail s = .next t)
  | performed {op : ExecOp} {rest more : List ExecOp} {u : State} (mem : op ∈ xq) (sub : rest ⊆ xq)
      (e : perform op s = some (u, more)) (ht : t = u.enter .exec (some { c with xq := some (more ++ rest) }))

theorem ExecOutcome.cons {h : Handler} {f : HdrFields Tagged} {xq : List ExecOp} {c : Cmd} {s t : State} (op : ExecOp)
    (o : ExecOutcome h f xq c s t) : ExecOutcome h f (op :: xq) c s t := by
  cases o with
  | ended e => exact .ended e
  | failed e => exact .failed e
  | performed mem sub e ht => exact .performed (.tail _ mem) (List.subset_cons_of_subset _ sub) e ht

/-- Everything an exec-step can do: its pure computations log `es` and leave a pending rate `nb`, which was pending or is set
in the queue; then one of the outcomes. -/
theorem runExec_next {h : Handler} {f : HdrFields Tagged} {xq : List ExecOp} {c : Cmd} {s t : State}
    (e : runExec h f xq c s = .next t) :
    ∃ (es : List Event) (nb : Option U32), (∀ b, nb = some b → c.newBaud = some b ∨ ExecOp.setBaud b ∈ xq) ∧
      ExecOutcome h f xq { c with newBaud := nb } (s.emit es) t := by
  induction xq generalizing c s with
  | nil => exact ⟨[], c.newBaud, fun b hb => .inl hb, .ended (by rw [State.emit_nil]; exact e)⟩
  | cons op rest ih =>
    cases hp : op.pure with
    | false =>
      refine ⟨[], c.newBaud, fun b hb => .inl hb, ?_⟩
      cases hop : perform op s with
      | none => rw [runExec_outOfRange h f rest c hp hop] at e; cases e
      | some r =>
        rw [runExec_primitive h f rest c hp hop] at e
        cases e
        exact .performed List.mem_cons_self (List.subset_cons_self _ _) (by rw [State.emit_nil]; exact hop) rfl
    | true =>
      cases op with
      | setBaud r =>
        obtain ⟨es, nb, hnb, o⟩ := ih e
        refine ⟨es, nb, fun b hb => .inr ?_, o.cons _⟩
        rcases hnb b hb with hb | hb
        · cases hb; exact List.mem_cons_self
        · exact .tail _ hb
      | gpio v =>
        obtain ⟨es, nb, hnb, o⟩ := ih e
        refine ⟨.gpioWd v :: es, nb, fun b hb => (hnb b hb).imp_right (.tail _), ?_⟩
        rw [State.emit_emit] at o
        exact o.cons _
      | check read data =>
        rw [runExec_check] at e
        split at e
        · obtain ⟨es, nb, hnb, o⟩ := ih e
          exact ⟨es, nb, fun b hb => (hnb b hb).imp_right (.tail _), o.cons _⟩
        · exact ⟨[], c.newBaud, fun b hb => .inl hb, .failed (by rw [State.emit_nil]; exact e)⟩
      | _ => cases hp

section
variable {h : Handler} {f : HdrFields Tagged} {xq : List ExecOp} {c : Cmd} {s t : State}

theorem ExecOutcome.effect (o : ExecOutcome h f xq c s t) : s.Effect (fun b => c.newBaud = some b) t := by
  cases o with
  | ended e => exact (execDone_effect e).1
  | failed e => exact (raiseAbort_effect e).effect
  | performed _ _ e ht =>
    obtain ⟨hcfg, -, -, hbaud, -, htxl, -, hevl⟩ := perform_frame e
    subst ht
    exact ⟨hcfg, ⟨[], by simpa [State.sent] using htxl⟩, hevl, .inl hbaud⟩

theorem ExecOutcome.memWF (o : ExecOutcome h f xq c s t) (m : s.MemWF) : t.MemWF := by
  cases o with
  | ended e => exact (execDone_effect e).2.memWF m
  | failed e => exact (raiseAbort_effect (nb := none) e).memWF m
  | performed _ _ e ht => exact ht ▸ (State.ByteEffect.enter (nb := none) _ _).memWF (perform_memWF e m)

theorem ExecOutcome.inSpace (o : ExecOutcome h f xq c s t) (m : s.InSpace) : t.InSpace := by
  cases o with
  | ended e => exact (execDone_effect e).2.inSpace m
  | failed e => exact (raiseAbort_effect (nb := none) e).inSpace m
  | performed _ _ e ht => exact ht ▸ (State.ByteEffect.enter (nb := none) _ _).inSpace (perform_inSpace e m)

theorem runExec_effect (e : runExec h f xq c s = .next t) :
    s.Effect (fun b => c.newBaud = some b ∨ ExecOp.setBaud b ∈ xq) t := by
  obtain ⟨es, nb, hnb, o⟩ := runExec_next e
  obtain ⟨hcfg, hsent, hlog, hbaud⟩ := o.effect.of_emit
  exact ⟨hcfg, hsent, hlog, hbaud.imp_right fun ⟨hk, hc, hb⟩ => ⟨hk, hc, hnb _ hb⟩⟩

theorem runExec_memWF (e : runExec h f xq c s = .next t) (m : s.MemWF) : t.MemWF := by
  obtain ⟨es, _, -, o⟩ := runExec_next e
  exact o.memWF ((s.emit_sameStorage es).memWF m)

theorem runExec_inSpace (e : runExec h f xq c s = .next t) (m : s.InSpace) : t.InSpace := by
  obtain ⟨es, _, -, o⟩ := runExec_next e
  exact o.inSpace ((s.emit_sameStorage es).inSpace m)

end

/-! ## The engine's own event, by control state -/

/-- In `S_EXEC` the engine takes the exec-step of the command its record names (41_framing_fsm.md R155). -/
theorem engineStep_exec {s : State} (hk : s.ctl = .exec) :
    engineStep s = need s.cmd fun c => need c.name fun n => execStep (handlerOf n) c s := by
  cases hc : s.cmd with
  | none => simp [engineStep, fetch, fetchBytes, currentCommand, plainStep, hk, hc, need]
  | some c =>
    cases hn : c.name with
    | none => simp [engineStep, fetch, fetchBytes, currentCommand, plainStep, hk, hc, hn, need]
    | some n => simp [engineStep, fetch, fetchBytes, currentCommand, hk, hc, hn, exec_toInstr, commandStep, inFlight]

/-- `S_JUMPED` has no event of the engine (41_framing_fsm.md R161). -/
theorem engineStep_jumped {s : State} (hk : s.ctl = .jumped) : engineStep s = .next s := by
  simp [engineStep, fetch, fetchBytes, currentCommand, plainStep, hk]

/-- With no byte waiting, the engine announces itself or waits (41_framing_fsm.md R140, R143). -/
theorem engineStep_noByte {s : State} (hr : s.rxq = []) (hx : s.ctl ≠ .exec) :
    engineStep s = .next (if s.ctl = .announce then s.tx (announceBytes s.cfg.version) else s) := by
  cases hk : s.ctl with
  | exec => exact absurd hk hx
  | announce =>
    simp [engineStep, fetch, fetchBytes, hk, hr, decode, announceBytes, versionBytes,
      Laws.EncodeDecode.joinLE_versionBytes, exec, execAnnounce, Except.toOption]
  | _ => simp [engineStep, fetch, fetchBytes, currentCommand, plainStep, hk, hr]

/-- A byte taken as a control byte has the meaning of that byte at the engine's position (30_encoding.md R81). -/
theorem exec_control {s : State} {b : Byte} {r : List Byte} {i : Instr} (hr : s.rxq = b :: r)
    (hd : decodeControl b = some i) : exec i s = onByte b s := by
  unfold decodeControl at hd
  split at hd
  · cases hd; subst b; simp [exec, execSoh, controlStep, hr]
  · split at hd
    · cases hd; subst b; simp [exec, execStx, controlStep, hr]
    · split at hd
      · cases hd; subst b; simp [exec, execAck, controlStep, hr]
      · split at hd
        · cases hd; subst b; simp [exec, execNak, controlStep, hr]
        · cases hd

/-- The byte that completes the frame header goes where the type byte dispatches (41_framing_fsm.md R146). -/
theorem exec_decodeType {s : State} {b t : Byte} {r : List Byte} {c : Cmd} (hk : s.ctl = .lenHi) (hr : s.rxq = b :: r)
    (hc : s.cmd = some c) (ht : c.typ = some t) : exec (decodeType s.cfg t) s = onByte b s := by
  cases hd : s.cfg.dispatch t with
  | some n =>
    rw [show decodeType s.cfg t = n.toInstr by simp [decodeType, hd], exec_lookup hk hc (by simp [ht, hd]) hr]
    simp [onByte, lookupByte, commandByte, hk, hc, ht, hd]
  | none => simp [decodeType, exec, execUnassigned, onByte, lookupByte, hk, hr, hc, ht, hd]

/-- From the lookup on, a byte goes to the command its record names (41_framing_fsm.md R149-R159). -/
theorem engineStep_named {s : State} {b : Byte} {r : List Byte} (hr : s.rxq = b :: r)
    (hk : s.ctl ∈ [Ctl.hdr, .pld, .crcLo, .crcHi, .rspCrcLo, .rspCrcHi]) : engineStep s = onByte b s := by
  have hf : fetch s = (s.cmd.bind Cmd.name).map Command.toInstr ∧ onByte b s = namedByte b s ∧
      plainStep s = onByte b s ∧ s.ctl ≠ .lenHi ∧ s.ctl ≠ .exec := by
    simp only [List.mem_cons, List.not_mem_nil, or_false] at hk
    rcases hk with hk | hk | hk | hk | hk | hk <;>
      simp [fetch, fetchBytes, currentCommand, plainStep, onByte, hk, hr]
  obtain ⟨hf, hb, hp, hl, hx⟩ := hf
  cases hc : s.cmd.bind Cmd.name with
  | none => simp [engineStep, hf, hc, hp]
  | some n =>
    obtain ⟨c, hcmd, hn⟩ := Option.bind_eq_some_iff.mp hc
    rw [show engineStep s = exec n.toInstr s by simp [engineStep, hf, hc], exec_waiting ⟨rfl, hcmd, hn, hr⟩ hl hx, hb]
    simp [namedByte, hcmd, hn]

/-- With a byte waiting the engine takes it, whether as an instruction or as a plain byte (41_framing_fsm.md R140). -/
theorem engineStep_byte {s : State} {b : Byte} {r : List Byte} (hr : s.rxq = b :: r) (hx : s.ctl ≠ .exec)
    (hj : s.ctl ≠ .jumped) : engineStep s = onByte b s := by
  cases hk : s.ctl with
  | exec => exact absurd hk hx
  | jumped => exact absurd hk hj
  | announce | waitSoh | rspAck =>
    cases hd : decodeControl b with
    | some i => simp [engineStep, fetch, fetchBytes, decode, Except.toOption, hk, hr, hd, exec_control hr hd]
    | none => simp [engineStep, fetch, fetchBytes, decode, Except.toOption, plainStep, hk, hr, hd]
  | typ | lenLo => simp [engineStep, fetch, fetchBytes, currentCommand, plainStep, hk, hr]
  | lenHi =>
    cases hc : s.cmd.bind Cmd.typ with
    | none => simp [engineStep, fetch, fetchBytes, currentCommand, plainStep, hk, hr, hc]
    | some t =>
      obtain ⟨c, hcmd, ht⟩ := Option.bind_eq_some_iff.mp hc
      rw [← exec_decodeType hk hr hcmd ht]
      simp [engineStep, fetch, fetchBytes, decode, Except.toOption, hk, hr, hc]
  | hdr | pld | crcLo | crcHi | rspCrcLo | rspCrcHi => exact engineStep_named hr (by simp [hk])

/-- What the engine's own event is: an exec-step, a byte, or no more than sending an announcement. -/
inductive EngineEvent (s : State) : Prop
  | exec (hx : s.ctl = .exec) (h : engineStep s = need s.cmd fun c => need c.name fun n => execStep (handlerOf n) c s)
  | byte (b : Byte) (hx : s.ctl ≠ .exec) (hj : s.ctl ≠ .jumped) (h : engineStep s = onByte b s)
  | send (bs : List Byte) (h : engineStep s = .next (s.tx bs))

theorem State.tx_nil (s : State) : s.tx [] = s := by simp [State.tx]

theorem engineEvent (s : State) : EngineEvent s := by
  by_cases hx : s.ctl = .exec
  · exact .exec hx (engineStep_exec hx)
  · by_cases hj : s.ctl = .jumped
    · exact .send [] (by rw [engineStep_jumped hj, State.tx_nil])
    · cases hr : s.rxq with
      | cons b r => exact .byte b hx hj (engineStep_byte hr hx hj)
      | nil =>
        have h := engineStep_noByte hr hx
        split at h
        · exact .send _ h
        · exact .send [] (by rw [h, State.tx_nil])

/-- An exec-step that answers runs the queue its record holds. -/
theorem execEvent_next {s t : State}
    (e : (need s.cmd fun c => need c.name fun n => execStep (handlerOf n) c s) = .next t) :
    ∃ c n f xq, s.cmd = some c ∧ c.xq = some xq ∧ runExec (handlerOf n) f xq c s = .next t := by
  obtain ⟨c, hc, e⟩ := need_next.mp e
  obtain ⟨n, -, e⟩ := need_next.mp e
  obtain ⟨f, -, e⟩ := need_next.mp e
  obtain ⟨xq, hq, e⟩ := need_next.mp e
  exact ⟨c, n, f, xq, hc, hq, e⟩

/-! ## One step -/

/-- A rate that may come into force in the next step: the one the record holds, or one its queue sets (10_state.md R27). -/
def State.PendingRate (s : State) (b : U32) : Prop :=
  ∃ c, s.cmd = some c ∧ (c.newBaud = some b ∨ ∃ xq, c.xq = some xq ∧ s.ctl = .exec ∧ ExecOp.setBaud b ∈ xq)

theorem State.Effect.tx (rate : U32 → Prop) (s : State) (bs : List Byte) : s.Effect rate (s.tx bs) :=
  ⟨rfl, ⟨bs, rfl⟩, ⟨[], by simp⟩, .inl rfl⟩

/-- Every event of the engine: the configuration stays, both logs grow, the rate changes at a completion only. -/
theorem engineStep_effect {s t : State} (e : engineStep s = .next t) : s.Effect s.PendingRate t := by
  cases engineEvent s with
  | exec hx h =>
    obtain ⟨c, n, f, xq, hc, hq, e⟩ := execEvent_next (h.symm.trans e)
    obtain ⟨hcfg, hsent, hlog, hbaud⟩ := runExec_effect e
    exact ⟨hcfg, hsent, hlog, hbaud.imp_right fun ⟨hk, hn, hb⟩ =>
      ⟨hk, hn, c, hc, hb.imp_right fun hb => ⟨xq, hq, hx, hb⟩⟩⟩
  | byte b _ _ h =>
    obtain ⟨hcfg, hsent, hlog, hbaud⟩ := (onByte_effect (h.symm.trans e)).effect
    refine ⟨hcfg, hsent, hlog, hbaud.imp_right fun ⟨hk, hn, hb⟩ => ⟨hk, hn, ?_⟩⟩
    obtain ⟨c, hc, hb⟩ := Option.bind_eq_some_iff.mp hb
    exact ⟨c, hc, .inl hb⟩
  | send bs h =>
    rw [h] at e
    cases e
    exact .tx _ _ _

theorem engineStep_memWF {s t : State} (e : engineStep s = .next t) (m : s.MemWF) : t.MemWF := by
  cases engineEvent s with
  | exec hx h =>
    obtain ⟨c, n, f, xq, -, -, e⟩ := execEvent_next (h.symm.trans e)
    exact runExec_memWF e m
  | byte b _ _ h => exact (onByte_effect (h.symm.trans e)).memWF m
  | send bs h =>
    cases h.symm.trans e
    exact ⟨m.ram, m.buf, m.flash, m.otp⟩

theorem engineStep_inSpace {s t : State} (e : engineStep s = .next t) (m : s.InSpace) : t.InSpace := by
  cases engineEvent s with
  | exec hx h =>
    obtain ⟨c, n, f, xq, -, -, e⟩ := execEvent_next (h.symm.trans e)
    exact runExec_inSpace e m
  | byte b _ _ h => exact (onByte_effect (h.symm.trans e)).inSpace m
  | send bs h =>
    cases h.symm.trans e
    exact ⟨m.ram, m.buf, m.flash, m.otp⟩

/-- What a step is, once the environment's event is off its queue: the engine's own event, the arrival of bytes, a timeout,
an announcement or nothing, a RESET, or a RESET that cuts a primitive (41_framing_fsm.md R140). -/
inductive StepEvent (s : State) : Prop
  | engine (es : List EnvEvent) (h : step s = engineStep (s.setEnv es))
  | host (es : List EnvEvent) (bs : List Byte) (h : step s = .next ((s.setEnv es).pushRx bs))
  | timeout (es : List EnvEvent) (h : step s = timeoutEvent (s.setEnv es))
  | send (es : List EnvEvent) (bs : List Byte) (h : step s = .next ((s.setEnv es).tx bs))
  | reset (es : List EnvEvent) (ram buf : List Host.Cell) (hr : s.resetNext = true)
      (h : step s = .next (resetState ram buf (s.setEnv es)))
  | resetCut (es : List EnvEvent) (ram buf : List Host.Cell) (left : List Byte) (op : ExecOp) (hr : s.resetNext = true)
      (hop : s.headOp = some op) (h : step s = .next (resetState ram buf (cutOp op left (s.setEnv es))))

theorem stepEvent (s : State) : StepEvent s := by
  cases he : s.env with
  | nil => exact .engine [] (by rw [show s.setEnv [] = s by rw [← he]; rfl]; simp [step, nextStep, he])
  | cons e es =>
    have hs : step s = envStep e (s.setEnv es) := by simp [step, nextStep, he]
    cases e with
    | go => exact .engine es hs
    | host b rate seen => exact .host es _ hs
    | timeout => exact .timeout es hs
    | announce =>
      simp only [envStep] at hs
      split at hs
      · rename_i hk
        exact .send es (announceBytes s.cfg.version) (by rw [hs, exec, execAnnounce, if_pos hk]; rfl)
      · exact .send es [] (by rw [hs, State.tx_nil])
    | reset ram buf => exact .reset es ram buf (by simp [State.resetNext, he, EnvEvent.isReset]) hs
    | resetCut ram buf left =>
      have hr : s.resetNext = true := by simp [State.resetNext, he, EnvEvent.isReset]
      have hh : (s.setEnv es).headOp = s.headOp := rfl
      cases hop : s.headOp with
      | none => exact .reset es ram buf hr (by rw [hs, envStep, resetCutState, hh, hop])
      | some op => exact .resetCut es ram buf left op hr hop (by rw [hs, envStep, resetCutState, hh, hop])

theorem State.Effect.of_setEnv {rate : U32 → Prop} {es : List EnvEvent} {s t : State} (h : (s.setEnv es).Effect rate t) :
    s.Effect rate t := ⟨h.cfg, h.sent, h.logged, h.baud⟩

theorem timeoutEvent_effect {nb : Option U32} {s t : State} (e : timeoutEvent s = .next t) : s.ByteEffect nb t := by
  unfold timeoutEvent at e
  split at e
  · split at e
    · cases e; exact .enter _ _
    · exact raiseAbort_effect e
  · cases e; exact .refl _ _

/-- What a RESET does to the configuration, the logs and the rate (10_state.md R43). -/
structure State.ResetEffect (s t : State) : Prop where
  cfg : t.cfg = s.cfg
  txl : t.txl = s.txl
  evl : t.evl = s.evl
  baud : t.baud = s.cfg.baudInit

/-- Every step: an effect of the engine, or a RESET. -/
theorem step_effect {s t : State} (e : step s = .next t) :
    s.Effect s.PendingRate t ∨ (s.resetNext = true ∧ s.ResetEffect t) := by
  cases stepEvent s with
  | engine es h => exact .inl (engineStep_effect (h.symm.trans e)).of_setEnv
  | host es bs h =>
    rw [h] at e
    cases e
    exact .inl ⟨rfl, ⟨[], by simp [State.sent]⟩, ⟨[], by simp⟩, .inl rfl⟩
  | timeout es h =>
    obtain ⟨hcfg, hsent, hlog, hbaud⟩ := (timeoutEvent_effect (nb := none) (h.symm.trans e)).effect
    exact .inl ⟨hcfg, hsent, hlog, hbaud.imp_right fun ⟨_, _, hb⟩ => nomatch hb⟩
  | send es bs h =>
    rw [h] at e
    cases e
    exact .inl (State.Effect.tx _ _ _).of_setEnv
  | reset es ram buf hr h =>
    rw [h] at e
    cases e
    exact .inr ⟨hr, rfl, rfl, rfl, rfl⟩
  | resetCut es ram buf left op hr _ h =>
    rw [h] at e
    cases e
    obtain ⟨hcfg, htxl, hevl⟩ := cutOp_frame op left (s.setEnv es)
    exact .inr ⟨hr, hcfg, htxl, hevl, congrArg Config.baudInit hcfg⟩

/-! ## The obligations -/

/-- Settles O17: neither an effect of the engine nor a RESET touches `CFG`. -/
theorem stepKeepsConfiguration : Obligations.StepKeepsConfiguration := by
  unfold Obligations.StepKeepsConfiguration
  intro s t e
  rcases step_effect e with h | ⟨-, h⟩
  · exact h.cfg
  · exact h.cfg

/-- Settles O18: an effect of the engine appends to both logs; a RESET leaves them. -/
theorem logsOnlyGrow : Obligations.LogsOnlyGrow := by
  unfold Obligations.LogsOnlyGrow
  intro s t e
  rcases step_effect e with h | ⟨-, h⟩
  · exact ⟨h.sent, h.logged⟩
  · exact ⟨⟨[], by simp [State.sent, h.txl]⟩, ⟨[], by simp [h.evl]⟩⟩

/-- Settles O23: an effect of the engine changes the rate only at a completion, to a pending one. -/
theorem baudChangesOnlyAtCompletion : Obligations.BaudChangesOnlyAtCompletion := by
  unfold Obligations.BaudChangesOnlyAtCompletion
  intro s t e hne
  rcases step_effect e with h | ⟨hr, h⟩
  · exact .inr (h.baud.resolve_left hne)
  · exact .inl ⟨hr, h.baud⟩

/-- Settles O26: R43's rows, read off the state after reset. -/
theorem resetValues : Obligations.ResetValues := ⟨rfl, rfl, rfl, rfl⟩

end Sys2Proof.Machine
end

section
/-! The queue of `Exec`: a command queues only work inside the storage, and each primitive puts only such work in front of the
queue (41_framing_fsm.md R154; 43_flash_safety.md R240-R247). -/

namespace Sys2Proof.Machine

/-! ## The queue of `Exec` stays inside the storage (43_flash_safety.md R240-R247) -/

theorem sectorSize_dvd_sectorOf (cfg : Config) (x : Nat) : cfg.sectorSize ∣ sectorOf cfg x := Nat.dvd_sub_mod x

/-- The flash holds whole sectors: one that begins in it ends in it (00_scope.md R8). -/
theorem sector_fits {cfg : Config} (hw : cfg.WF) {s0 : Nat} (hd : cfg.sectorSize ∣ s0) (hlt : s0 < cfg.flashSize) :
    s0 + cfg.sectorSize ≤ cfg.flashSize := by
  obtain ⟨k, rfl⟩ := hd
  obtain ⟨m, hm⟩ := Nat.dvd_of_mod_eq_zero hw.flashSize
  rw [hm] at hlt ⊢
  exact Nat.mul_le_mul_left cfg.sectorSize (Nat.lt_of_mul_lt_mul_left hlt)

theorem slice_length (v : List Byte) (p n : Nat) : (slice v p n).length = min n (v.length - p) := by simp [slice]

theorem splice_length {v w : List Byte} {p : Nat} (h : p + w.length ≤ v.length) : (splice v p w).length = v.length := by
  simp [splice]; omega

theorem safeWrite_ok {cfg : Config} {a : Nat} {data : List Byte} (h : flashFits cfg a data.length = true) :
    ∀ op ∈ safeWrite a data, op.ok cfg = true := by
  unfold safeWrite
  split
  · simp
  · simpa [ExecOp.ok] using h

theorem erase_ok {cfg : Config} (hw : cfg.WF) {s0 : Nat} (hd : cfg.sectorSize ∣ s0) (hlt : s0 < cfg.flashSize) :
    (ExecOp.erase s0).ok cfg = true := by
  simp [ExecOp.ok, Nat.mod_eq_zero_of_dvd hd, flashFits_iff, sector_fits hw hd hlt]

/-- A chunk inside one sector asks only for work inside it (43_flash_safety.md R242-R244). -/
theorem chunkPlan_ok {cfg : Config} (hw : cfg.WF) {ca : Nat} {cd cur : List Byte}
    (hf : ca + cd.length ≤ cfg.flashSize) (hs : ca - sectorOf cfg ca + cd.length ≤ cfg.sectorSize) :
    ∀ op ∈ chunkPlan cfg ca cd cur, op.ok cfg = true := by
  unfold chunkPlan
  split
  · split
    · simp
    · have hd : firstDiff cur cd ≤ cd.length := by
        refine (List.findIdx_le_length).trans ?_
        simp [diffs]
      simp only [List.mem_singleton, forall_eq, ExecOp.ok, flashFits_iff, slice_length]
      omega
  · rename_i hu
    have hpos : 0 < cd.length := by
      cases cd with
      | nil => simp [updatePossible] at hu
      | cons => simp
    split
    · rename_i h
      simp only [List.mem_cons, List.not_mem_nil, or_false, forall_eq_or_imp, forall_eq]
      exact ⟨erase_ok hw (h.1 ▸ sectorSize_dvd_sectorOf cfg ca) (by omega), flashFits_iff.mpr hf⟩
    · simp [ExecOp.ok, flashFits_iff, hf, hpos, hs]

/-- Whatever a sector holds, a chunk that is less than it erases and programs inside it (43_flash_safety.md R245, R246). -/
theorem sectorPlan_ok {cfg : Config} (hw : cfg.WF) {ca : Nat} {cd sec : List Byte} (hsec : sec.length = cfg.sectorSize)
    (hpos : 0 < cd.length) (hf : ca + cd.length ≤ cfg.flashSize)
    (hs : ca - sectorOf cfg ca + cd.length ≤ cfg.sectorSize) :
    ∀ op ∈ sectorPlan cfg ca cd sec, op.ok cfg = true := by
  have hlt : sectorOf cfg ca < cfg.flashSize := by unfold sectorOf; omega
  have herase := erase_ok hw (sectorSize_dvd_sectorOf cfg ca) hlt
  simp only [sectorPlan]
  split <;> simp only [List.mem_cons, List.not_mem_nil, or_false, forall_eq_or_imp, forall_eq]
  · exact ⟨herase, flashFits_iff.mpr hf⟩
  · refine ⟨herase, flashFits_iff.mpr ?_⟩
    rw [splice_length (by omega), hsec]
    exact sector_fits hw (sectorSize_dvd_sectorOf cfg ca) hlt

/-- A queued entry meets its precondition when its turn comes, and all it puts in front of the queue meets theirs. -/
theorem perform_ok {op : ExecOp} {s : State} (hw : s.cfg.WF) (ok : op.ok s.cfg = true) :
    ∃ t more, perform op s = some (t, more) ∧ ∀ o ∈ more, o.ok s.cfg = true := by
  cases op with
  | write t v => exact ⟨_, _, if_pos ok, by simp⟩
  | copy src n dst =>
    simp only [ExecOp.ok, Bool.and_eq_true] at ok
    exact ⟨_, _, if_pos ok.1, safeWrite_ok (by simpa using ok.2)⟩
  | chunk a data =>
    refine ⟨_, _, if_pos ok, fun o ho => ?_⟩
    have hf := flashFits_iff.mp ok
    have hk : chunkLen s.cfg a data.length ≤ data.length := Nat.min_le_left _ _
    have hsec : chunkLen s.cfg a data.length ≤ sectorOf s.cfg a + s.cfg.sectorSize - a := Nat.min_le_right _ _
    have hrest := sector_rest hw.sectorSize a
    rcases List.mem_append.mp ho with ho | ho
    · exact chunkPlan_ok hw (by simp; omega) (by simp; omega) o ho
    · exact safeWrite_ok (flashFits_iff.mpr (by simp; omega)) o ho
  | sector ca cd =>
    simp only [ExecOp.ok, Bool.and_eq_true, decide_eq_true_eq, flashFits_iff] at ok
    obtain ⟨⟨hf, hpos⟩, hs⟩ := ok
    have hlt : sectorOf s.cfg ca < s.cfg.flashSize := by unfold sectorOf; omega
    exact ⟨_, _, if_pos (flashFits_iff.mpr (sector_fits hw (sectorSize_dvd_sectorOf _ _) hlt)),
      sectorPlan_ok hw (by simp) hpos hf hs⟩
  | flashWrite a v => exact ⟨_, _, if_pos ok, by simp⟩
  | erase s0 => exact ⟨_, _, if_pos (by simpa [ExecOp.ok] using ok), by simp⟩
  | chipErase => exact ⟨_, _, rfl, by simp⟩
  | program w v => exact ⟨_, _, if_pos (by simpa [ExecOp.ok] using ok), by simp⟩
  | verify a data => exact ⟨_, _, if_pos ok, by simp [ExecOp.ok]⟩
  | setBaud | gpio | check => exact ⟨_, _, rfl, by simp⟩

/-! ## What a command queues (41_framing_fsm.md R154) -/

theorem eraseRange_ok {cfg : Config} (hw : cfg.WF) {a len : Nat} (h : a + len ≤ cfg.flashSize) :
    ∀ op ∈ eraseRange cfg a len, op.ok cfg = true := by
  unfold eraseRange
  split
  · simp
  · rename_i hlen
    simp only [List.mem_map, List.mem_range, forall_exists_index, and_imp, forall_apply_eq_imp_iff₂]
    intro i hi
    have hle : i * cfg.sectorSize ≤ sectorOf cfg (a + len - 1) - sectorOf cfg a :=
      (Nat.mul_le_mul_right _ (Nat.le_of_lt_succ hi)).trans (Nat.div_mul_le_self _ _)
    have hmono : sectorOf cfg a ≤ a ∧ sectorOf cfg (a + len - 1) ≤ a + len - 1 :=
      ⟨Nat.sub_le _ _, Nat.sub_le _ _⟩
    exact erase_ok hw (Nat.dvd_add (sectorSize_dvd_sectorOf cfg a) (Nat.dvd_mul_left _ _)) (by omega)

theorem programCells_ok {cfg : Config} {cell : Nat} {pld : List Byte}
    (h : otpFits cfg cell (pld.length / cfg.w8) = true) : ∀ op ∈ programCells cfg cell pld, op.ok cfg = true := by
  rw [otpFits_iff] at h
  simp only [programCells, List.mem_map, List.mem_range, forall_exists_index, and_imp, forall_apply_eq_imp_iff₂]
  intro j hj
  have hbytes : (j + 1) * cfg.w8 ≤ pld.length := (Nat.mul_le_mul_right _ hj).trans (Nat.div_mul_le_self _ _)
  rw [Nat.add_mul] at hbytes
  simp only [ExecOp.ok, Bool.and_eq_true, otpFits_iff, decide_eq_true_eq, slice_length]
  omega

/-- The program of a command whose `Header` passed meets every precondition, for the payload `Header` was asked about. -/
theorem program_ok {cfg : Config} (hw : cfg.WF) {n : Command} {f : HdrFields Tagged} {pld : List Byte}
    (hc : f.command = n) (hh : (handlerOf n).header cfg f pld.length = true) :
    ∀ op ∈ (handlerOf n).program cfg f pld, op.ok cfg = true := by
  subst hc
  cases f with
  | writeRam dst => simpa [HdrFields.command, handlerOf, writeRamHandler, ExecOp.ok] using hh
  | copyToFlash src dst len =>
    simp only [HdrFields.command, handlerOf, copyToFlashHandler, Bool.and_eq_true] at hh
    simp [HdrFields.command, handlerOf, copyToFlashHandler, ExecOp.ok, hh.1, flashRangeOk_fits hh.2]
  | eraseFlash addr len => exact eraseRange_ok hw (flashFits_iff.mp (flashRangeOk_fits hh))
  | chipEraseFlash => simp [HdrFields.command, handlerOf, chipEraseFlashHandler, ExecOp.ok]
  | writeOtp cell => exact programCells_ok (otpRangeOk_fits hh)
  | writePartition id off =>
    obtain ⟨a, ha⟩ := Option.isSome_iff_exists.mp hh
    simpa [HdrFields.command, handlerOf, writePartitionHandler, ha] using safeWrite_ok (partitionAddr_fits ha)
  | directWriteFlash addr verify =>
    have hf := flashRangeOk_fits hh
    intro op hop
    rcases List.mem_append.mp hop with hop | hop
    · exact safeWrite_ok hf op hop
    · split at hop
      · cases hop
      · rw [List.mem_singleton.mp hop]; exact hf
  | changeBaud baud => simpa [HdrFields.command, handlerOf, changeBaudHandler, ExecOp.ok] using hh
  | gpioWd v => simp [HdrFields.command, handlerOf, gpioWdHandler, ExecOp.ok]
  | _ => exact fun op hop => nomatch hop

/-- A command whose `Header` passed reads inside the storage (42_commands.md R193-R206). -/
theorem sendData_inRange {n : Command} {s : State} {f : HdrFields Tagged} {pl : Nat} (q : List Byte)
    (hh : (handlerOf n).header s.cfg f pl = true) : (handlerOf n).sendData s f q ≠ .outOfRange := by
  cases n
  case readRam => cases f <;> simp_all [handlerOf, readRamHandler]
  case readFlash =>
    cases f <;> simp only [handlerOf, readFlashHandler, Bool.false_eq_true] at hh
    simp [handlerOf, readFlashHandler, flashRangeOk_fits hh]
  case isEmptyFlash =>
    cases f <;> simp only [handlerOf, isEmptyFlashHandler, Bool.false_eq_true] at hh
    simp [handlerOf, isEmptyFlashHandler, flashRangeOk_fits hh]
  case readOtp =>
    cases f <;> simp only [handlerOf, readOtpHandler, Bool.false_eq_true, Bool.and_eq_true] at hh
    simp [handlerOf, readOtpHandler, otpRangeOk_fits hh.1]
  case readPartition =>
    cases f <;> simp only [handlerOf, readPartitionHandler, Bool.false_eq_true] at hh
    obtain ⟨a, ha⟩ := Option.isSome_iff_exists.mp hh
    simp [handlerOf, readPartitionHandler, ha]
  all_goals exact fun h => nomatch h

end Sys2Proof.Machine
end

section
/-! The invariant: every event keeps the in-flight record fit for its control state, and none stops the machine (10_state.md
R22, R23; 41_framing_fsm.md R146-R160; 60_exceptions.md R305). -/

namespace Sys2Proof.Machine

/-! ## Records that fit -/

/-- A pending rate is one CHANGE_BAUD accepts (42_commands.md R208). -/
def Cmd.RateOk (cfg : Config) (c : Cmd) : Prop := ∀ b, c.newBaud = some b → b ∈ cfg.supportedBauds

theorem State.CmdWF.of_none {s : State} (hc : s.cmd = none) (hk : s.ctl.inCommand = false) : s.CmdWF := by
  unfold State.CmdWF; rw [hc]; exact hk

theorem State.CmdWF.of_some {s : State} {c : Cmd} (hc : s.cmd = some c) (hs : c.Shape s.cfg s.ctl)
    (hr : c.RateOk s.cfg) : s.CmdWF := by
  unfold State.CmdWF; rw [hc]; exact ⟨hs, hr⟩

/-- Inside a command there is a record, fit for the control state. -/
theorem State.CmdWF.record {s : State} (h : s.CmdWF) (hk : s.ctl.inCommand = true) :
    ∃ c, s.cmd = some c ∧ c.Shape s.cfg s.ctl ∧ c.RateOk s.cfg := by
  unfold State.CmdWF at h
  split at h
  · rw [hk] at h; cases h
  · rename_i c hc
    exact ⟨c, hc, h⟩

theorem State.CmdWF.rateOk {s : State} {c : Cmd} (h : s.CmdWF) (hc : s.cmd = some c) : c.RateOk s.cfg := by
  unfold State.CmdWF at h
  rw [hc] at h
  exact h.2

theorem State.CmdWF.no_record {s : State} (h : s.CmdWF) (hk : s.ctl.inCommand = false) : s.cmd = none := by
  unfold State.CmdWF at h
  split at h
  · assumption
  · obtain ⟨hs, -⟩ := h
    cases hctl : s.ctl <;> rw [hctl] at hs hk
    case announce | waitSoh | jumped => exact hs.elim
    all_goals cases hk

/-- The outcome is a next state whose record fits its control state. -/
def Res.Fits (r : Res) : Prop := ∃ t, r = .next t ∧ t.CmdWF

theorem enter_none_fits {k : Ctl} (hk : k.inCommand = false) (s : State) : Res.Fits (.next (s.enter k none)) :=
  ⟨_, rfl, .of_none rfl hk⟩

theorem enter_some_fits {k : Ctl} {c : Cmd} {s : State} (hs : c.Shape s.cfg k) (hr : c.RateOk s.cfg) :
    Res.Fits (.next (s.enter k (some c))) :=
  ⟨_, rfl, .of_some rfl hs hr⟩

theorem raiseAbort_fits (code : Abort) (s : State) : Res.Fits (raiseAbort code s) := enter_none_fits rfl _

theorem complete_fits (c : Cmd) (s : State) : Res.Fits (complete c s) := by
  rw [complete_eq]
  exact ⟨_, rfl, .of_none rfl rfl⟩

/-- A stage that reads a defined field goes on with its value. -/
theorem need_eq {α : Type} {o : Option α} {a : α} (h : o = some a) (k : α → Res) : need o k = k a := by rw [h, need_some]

theorem decodeFields_command (cfg : Config) (n : Command) (hdr : List Byte) : (decodeFields cfg n hdr).command = n := by
  cases n <;> rfl

/-! ## The bytes of a frame (41_framing_fsm.md R143-R153) -/

theorem idleByte_fits (b : Byte) {s : State} (hc : s.cmd = none) (hk : s.ctl.inCommand = false) :
    Res.Fits (idleByte b s) := by
  unfold idleByte
  split
  · exact enter_some_fits (k := .typ) trivial (fun _ h => nomatch h)
  · exact ⟨_, rfl, .of_none hc hk⟩

section
variable {n : Command} {b : Byte} {c : Cmd} {s : State} {pl : Nat}

theorem afterPayload_fits {pld : List Byte} (hv : c.Validated s.cfg n pl) (hp : c.pld = some pld) (hl : pld.length = pl)
    (hr : c.RateOk s.cfg) : Res.Fits (afterPayload (handlerOf n) c s) := by
  obtain ⟨-, f, hf, -⟩ := id hv
  rw [afterPayload, need_eq hf, need_eq hp]
  split
  · exact enter_some_fits (k := .crcLo) ⟨n, pl, pld, hv, hp, hl⟩ hr
  · exact raiseAbort_fits _ _

theorem afterHeader_fits {hdr : List Byte} (ha : c.Accepted s.cfg n pl) (hh : c.hdr = some hdr) (hp : c.pld = some [])
    (hr : c.RateOk s.cfg) : Res.Fits (afterHeader (handlerOf n) c s) := by
  obtain ⟨-, -, hpl, -, -⟩ := id ha
  rw [afterHeader, need_eq hh, need_eq hpl]
  simp only [Int.toNat_natCast, handlerOf_name]
  split
  · rename_i hok
    have hv : Cmd.Validated s.cfg { c with f := some (decodeFields s.cfg n hdr) } n pl :=
      ⟨ha, _, rfl, decodeFields_command _ _ _, hok⟩
    split
    · exact enter_some_fits (k := .pld) ⟨n, pl, [], hv, hp, by simp; omega⟩ hr
    · exact afterPayload_fits hv hp (by simp; omega) hr
  · exact raiseAbort_fits _ _

theorem headerAck_fits (ha : c.Accepted s.cfg n pl) (hr : c.RateOk s.cfg) :
    Res.Fits (headerAck (handlerOf n) (s.cfg.hdrSize n) c s) := by
  simp only [headerAck]
  split
  · rename_i hpos
    exact enter_some_fits (k := .hdr) ⟨n, pl, [], ha, rfl, hpos, rfl⟩ hr
  · exact afterHeader_fits (pl := pl) ha rfl rfl hr

theorem checkLengthAndInit_fits (len : U16) (hn : c.name = some n) (hr : c.RateOk s.cfg) :
    Res.Fits (checkLengthAndInit (handlerOf n) len c s) := by
  simp only [checkLengthAndInit, handlerOf_name]
  split
  · exact raiseAbort_fits _ _
  · rename_i hpos
    split
    · exact raiseAbort_fits _ _
    · split
      · rename_i hmax hinit
        exact headerAck_fits (pl := ((len.toNat : Int) - (s.cfg.hdrSize n : Int)).toNat)
          ⟨hn, rfl, by rw [Int.toNat_of_nonneg (by omega)], by omega, hinit⟩ hr
      · exact raiseAbort_fits _ _

theorem lenHiByte_fits (hl : c.length.isSome = true) (hr : c.RateOk s.cfg) :
    Res.Fits (lenHiByte (handlerOf n) b c s) := by
  obtain ⟨lo, hlo⟩ := Option.isSome_iff_exists.mp hl
  rw [lenHiByte, need_eq hlo]
  exact checkLengthAndInit_fits _ (by simp) hr

theorem unknownByte_fits (hc : s.cmd = some c) (hl : c.length.isSome = true) : Res.Fits (unknownByte b s) := by
  obtain ⟨lo, hlo⟩ := Option.isSome_iff_exists.mp hl
  rw [unknownByte, need_eq hc, need_eq hlo]
  exact raiseAbort_fits _ _

theorem lookupByte_fits (hk : s.ctl = .lenHi) (hc : s.cmd = some c) (ht : c.typ.isSome = true)
    (hl : c.length.isSome = true) (hr : c.RateOk s.cfg) : Res.Fits (lookupByte b s) := by
  obtain ⟨ty, hty⟩ := Option.isSome_iff_exists.mp ht
  rw [lookupByte, need_eq hc, need_eq hty]
  split
  · rw [commandByte, hk]
    exact lenHiByte_fits hl hr
  · exact unknownByte_fits hc hl

theorem hdrByte_fits {hdr : List Byte} (ha : c.Accepted s.cfg n pl) (hh : c.hdr = some hdr)
    (hlt : hdr.length < s.cfg.hdrSize n) (hp : c.pld = some []) (hr : c.RateOk s.cfg) :
    Res.Fits (hdrByte (handlerOf n) b c s) := by
  obtain ⟨-, hhs, -⟩ := id ha
  rw [hdrByte, need_eq hh, need_eq hhs]
  simp only
  split
  · exact afterHeader_fits (pl := pl) ha rfl hp hr
  · exact enter_some_fits (k := .hdr) ⟨n, pl, hdr ++ [b], ha, rfl, by simp; omega, hp⟩ hr

theorem pldByte_fits {pld : List Byte} (hv : c.Validated s.cfg n pl) (hp : c.pld = some pld) (hlt : pld.length < pl)
    (hr : c.RateOk s.cfg) : Res.Fits (pldByte (handlerOf n) b c s) := by
  obtain ⟨⟨-, -, hpl, -⟩, -⟩ := id hv
  rw [pldByte, need_eq hp, need_eq hpl]
  simp only
  split
  · exact afterPayload_fits (pl := pl) hv rfl (by simp; omega) hr
  · exact enter_some_fits (k := .pld) ⟨n, pl, pld ++ [b], hv, rfl, by simp; omega⟩ hr

theorem crcHiByte_fits {pld : List Byte} (hw : s.cfg.WF) (hv : c.Validated s.cfg n pl) (hp : c.pld = some pld)
    (hl : pld.length = pl) (hlo : c.rcrcLo.isSome = true) (hr : c.RateOk s.cfg) :
    Res.Fits (crcHiByte (handlerOf n) b c s) := by
  obtain ⟨lo, hlo⟩ := Option.isSome_iff_exists.mp hlo
  obtain ⟨-, f, hf, hc, hh⟩ := id hv
  rw [crcHiByte, need_eq hlo, need_eq hf, need_eq hp]
  split
  · exact enter_some_fits (k := .exec) ⟨n, pl, _, hv, rfl, program_ok hw hc (hl ▸ hh)⟩ hr
  · exact raiseAbort_fits _ _

/-! ## The response (41_framing_fsm.md R158, R159) -/

theorem rspAckByte_fits (hv : c.Validated s.cfg n pl) (hlen : c.rspLen.isSome = true) (hq : c.q.isSome = true)
    (hr : c.RateOk s.cfg) : Res.Fits (rspAckByte (handlerOf n) b c s) := by
  obtain ⟨len, hlen⟩ := Option.isSome_iff_exists.mp hlen
  obtain ⟨q, hq⟩ := Option.isSome_iff_exists.mp hq
  obtain ⟨-, f, hf, -, hh⟩ := id hv
  rw [rspAckByte, need_eq hlen, need_eq hf, need_eq hq]
  simp only
  split
  · exact raiseAbort_fits _ _
  · split
    · exact complete_fits _ _
    · split
      · exact complete_fits _ _
      · rename_i hout
        exact absurd hout (sendData_inRange q hh)
      · exact enter_some_fits (k := .rspCrcLo) ⟨n, pl, hv, rfl⟩ hr

theorem rspCrcHiByte_fits (hlo : c.rcrcLo.isSome = true) : Res.Fits (rspCrcHiByte b c s) := by
  obtain ⟨lo, hlo⟩ := Option.isSome_iff_exists.mp hlo
  rw [rspCrcHiByte, need_eq hlo]
  split
  · exact complete_fits _ _
  · exact raiseAbort_fits _ _

end

/-- From the lookup on, the record names its command, and a byte for that command gives a next state whose record fits. -/
theorem commandByte_fits (b : Byte) {c : Cmd} {s : State} (hw : s.cfg.WF) (hs : c.Shape s.cfg s.ctl) (hr : c.RateOk s.cfg)
    (hk : s.ctl ∈ [Ctl.hdr, .pld, .crcLo, .crcHi, .rspAck, .rspCrcLo, .rspCrcHi]) :
    ∃ n, c.name = some n ∧ Res.Fits (commandByte (handlerOf n) b c s) := by
  cases hctl : s.ctl <;> rw [hctl] at hs
  case hdr =>
    obtain ⟨n, pl, hdr, ha, hh, hlt, hp⟩ := hs
    exact ⟨n, ha.1, by rw [commandByte, hctl]; exact hdrByte_fits ha hh hlt hp hr⟩
  case pld =>
    obtain ⟨n, pl, pld, hv, hp, hlt⟩ := hs
    exact ⟨n, hv.1.1, by rw [commandByte, hctl]; exact pldByte_fits hv hp hlt hr⟩
  case crcLo =>
    obtain ⟨n, pl, pld, hv, hp, hl⟩ := hs
    refine ⟨n, hv.1.1, ?_⟩
    rw [commandByte, hctl]
    exact enter_some_fits (k := .crcHi) ⟨n, pl, pld, hv, hp, hl, rfl⟩ hr
  case crcHi =>
    obtain ⟨n, pl, pld, hv, hp, hl, hlo⟩ := hs
    exact ⟨n, hv.1.1, by rw [commandByte, hctl]; exact crcHiByte_fits hw hv hp hl hlo hr⟩
  case rspAck =>
    obtain ⟨n, pl, hv, hlen, hq⟩ := hs
    exact ⟨n, hv.1.1, by rw [commandByte, hctl]; exact rspAckByte_fits hv hlen hq hr⟩
  case rspCrcLo =>
    obtain ⟨n, pl, hv, hrsp⟩ := hs
    refine ⟨n, hv.1.1, ?_⟩
    rw [commandByte, hctl]
    exact enter_some_fits (k := .rspCrcHi) ⟨n, pl, hv, hrsp, rfl⟩ hr
  case rspCrcHi =>
    obtain ⟨n, pl, hv, -, hlo⟩ := hs
    exact ⟨n, hv.1.1, by rw [commandByte, hctl]; exact rspCrcHiByte_fits hlo⟩
  all_goals simp [hctl] at hk

/-- A byte at any wait gives a next state whose record fits (60_exceptions.md R305). -/
theorem onByte_fits {s : State} (b : Byte) (hw : s.cfg.WF) (h : s.CmdWF) (hx : s.ctl ≠ .exec) (hj : s.ctl ≠ .jumped) :
    Res.Fits (onByte b s) := by
  cases hk : s.ctl with
  | exec => exact absurd hk hx
  | jumped => exact absurd hk hj
  | announce | waitSoh =>
    have hi : s.ctl.inCommand = false := by rw [hk]; rfl
    rw [onByte, hk]
    exact idleByte_fits b (h.no_record hi) hi
  | typ =>
    obtain ⟨c, hc, -, hr⟩ := h.record (by rw [hk]; rfl)
    rw [onByte, hk, frameByte, need_eq hc, hk]
    exact enter_some_fits (k := .lenLo) rfl hr
  | lenLo =>
    obtain ⟨c, hc, hs, hr⟩ := h.record (by rw [hk]; rfl)
    rw [hk] at hs
    rw [onByte, hk, frameByte, need_eq hc, hk]
    exact enter_some_fits (k := .lenHi) ⟨hs, rfl⟩ hr
  | lenHi =>
    obtain ⟨c, hc, hs, hr⟩ := h.record (by rw [hk]; rfl)
    rw [hk] at hs
    rw [onByte, hk]
    exact lookupByte_fits hk hc hs.1 hs.2 hr
  | hdr | pld | crcLo | crcHi | rspAck | rspCrcLo | rspCrcHi =>
    obtain ⟨c, hc, hs, hr⟩ := h.record (by rw [hk]; rfl)
    obtain ⟨n, hn, hf⟩ := commandByte_fits b hw hs hr (by simp [hk])
    rw [onByte, hk, namedByte, need_eq hc, need_eq hn]
    exact hf

/-! ## Exec (41_framing_fsm.md R155-R157) -/

theorem startResponse_fits {n : Command} {pl : Nat} {f : HdrFields Tagged} {c : Cmd} {s : State}
    (hv : c.Validated s.cfg n pl) (hr : c.RateOk s.cfg) : Res.Fits (startResponse (handlerOf n) f c s) := by
  have hcfg : (if (handlerOf n).query then s.afterDraw else s).cfg = s.cfg := by split <;> simp
  simp only [startResponse]
  refine enter_some_fits (k := .rspAck) ⟨n, pl, ?_, rfl, rfl⟩ ?_ <;> rw [State.tx_cfg, hcfg]
  · exact hv
  · exact hr

/-- The end of an `Exec` gives a next state whose record fits. -/
theorem execDone_fits {n : Command} {pl : Nat} {f : HdrFields Tagged} {c : Cmd} {s : State}
    (hv : c.Validated s.cfg n pl) (hr : c.RateOk s.cfg) : Res.Fits (execDone (handlerOf n) f c s) := by
  unfold execDone
  split
  · exact enter_none_fits rfl _
  · split
    · exact startResponse_fits hv hr
    · exact complete_fits _ _

/-- A queue whose entries meet their preconditions does not stop the machine. -/
theorem runExec_isNext {h : Handler} {f : HdrFields Tagged} {xq : List ExecOp} {c : Cmd} {s : State} (hw : s.cfg.WF)
    (ok : ∀ op ∈ xq, op.ok s.cfg = true) : ∃ t, runExec h f xq c s = .next t := by
  induction xq generalizing c s with
  | nil =>
    rw [runExec_nil, execDone_eq]
    split
    · exact ⟨_, rfl⟩
    · split <;> exact ⟨_, rfl⟩
  | cons op rest ih =>
    have okRest : ∀ o ∈ rest, o.ok s.cfg = true := fun o ho => ok o (.tail _ ho)
    cases hp : op.pure with
    | false =>
      obtain ⟨t, more, e, -⟩ := perform_ok hw (ok op List.mem_cons_self)
      exact ⟨_, runExec_primitive h f rest c hp e⟩
    | true =>
      cases op with
      | setBaud | gpio => exact ih (by exact hw) okRest
      | check read data =>
        rw [runExec_check]
        split
        · exact ih hw okRest
        · exact ⟨_, rfl⟩
      | _ => cases hp

/-- An exec-step leaves a record that fits: the queue it leaves meets its preconditions again. -/
theorem ExecOutcome.cmdWF {n : Command} {pl : Nat} {f : HdrFields Tagged} {xq : List ExecOp} {c : Cmd} {s t : State}
    (o : ExecOutcome (handlerOf n) f xq c s t) (hw : s.cfg.WF) (hv : c.Validated s.cfg n pl) (hr : c.RateOk s.cfg)
    (ok : ∀ op ∈ xq, op.ok s.cfg = true) : t.CmdWF := by
  cases o with
  | ended e =>
    obtain ⟨u, hu, hwf⟩ := execDone_fits (f := f) hv hr
    cases hu.symm.trans e
    exact hwf
  | failed e => cases e; exact .of_none rfl rfl
  | @performed op rest more u mem sub e ht =>
    obtain ⟨hcfg, -⟩ := perform_frame e
    obtain ⟨u', more', e', okMore⟩ := perform_ok hw (ok op mem)
    cases e.symm.trans e'
    subst ht
    refine .of_some rfl ⟨n, pl, more ++ rest, ?_, rfl, fun o ho => ?_⟩ ?_ <;> rw [State.enter_cfg, hcfg]
    · exact hv
    · exact (List.mem_append.mp ho).elim (okMore o) (fun ho => ok o (sub ho))
    · exact hr

theorem baudSupported_iff {cfg : Config} {b : U32} : baudSupported cfg b = true ↔ b ∈ cfg.supportedBauds := by
  simp [baudSupported]

/-- A rate an exec-step may apply is a supported one. -/
theorem pendingRate_supported {cfg : Config} {c : Cmd} {xq : List ExecOp} {b : U32} (hr : c.RateOk cfg)
    (ok : ∀ op ∈ xq, op.ok cfg = true) (h : c.newBaud = some b ∨ ExecOp.setBaud b ∈ xq) : b ∈ cfg.supportedBauds :=
  h.elim (hr b) (fun hm => baudSupported_iff.mp (ok _ hm))

theorem execStep_fits {n : Command} {pl : Nat} {f : HdrFields Tagged} {xq : List ExecOp} {c : Cmd} {s : State}
    (hw : s.cfg.WF) (hv : c.Validated s.cfg n pl) (hf : c.f = some f) (hq : c.xq = some xq)
    (ok : ∀ op ∈ xq, op.ok s.cfg = true) (hr : c.RateOk s.cfg) : Res.Fits (execStep (handlerOf n) c s) := by
  rw [execStep, need_eq hf, need_eq hq]
  obtain ⟨t, e⟩ := runExec_isNext hw ok
  obtain ⟨es, nb, hnb, o⟩ := runExec_next e
  exact ⟨t, e, o.cmdWF hw hv (fun b hb => pendingRate_supported hr ok (hnb b hb)) ok⟩

/-- The engine's own event gives a next state whose record fits. -/
theorem engineStep_fits {s : State} (hw : s.cfg.WF) (h : s.CmdWF) : Res.Fits (engineStep s) := by
  cases engineEvent s with
  | exec hx e =>
    obtain ⟨c, hc, hs, hr⟩ := h.record (by rw [hx]; rfl)
    rw [hx] at hs
    obtain ⟨n, pl, xq, hv, hq, ok⟩ := hs
    obtain ⟨f, hf, -⟩ := hv.2
    rw [e, need_eq hc, need_eq hv.1.1]
    exact execStep_fits hw hv hf hq ok hr
  | byte b hx hj e => exact e ▸ onByte_fits b hw h hx hj
  | send bs e => exact ⟨_, e, h⟩

theorem timeoutEvent_fits {s : State} (h : s.CmdWF) : Res.Fits (timeoutEvent s) := by
  unfold timeoutEvent
  split
  · split
    · exact enter_none_fits rfl _
    · exact raiseAbort_fits _ _
  · exact ⟨_, rfl, h⟩

/-! ## The invariant -/

/-- In `S_EXEC` every entry of the queue meets its precondition. -/
theorem State.CmdWF.queue_ok {s : State} (h : s.CmdWF) (hx : s.ctl = .exec) {c : Cmd} {xq : List ExecOp}
    (hc : s.cmd = some c) (hq : c.xq = some xq) : ∀ op ∈ xq, op.ok s.cfg = true := by
  obtain ⟨c', hc', hs, -⟩ := h.record (by rw [hx]; rfl)
  cases hc.symm.trans hc'
  rw [hx] at hs
  obtain ⟨n, pl, xq', -, hq', ok⟩ := hs
  cases hq.symm.trans hq'
  exact ok

/-- A rate that may come into force is a supported one. -/
theorem State.CmdWF.pendingRate {s : State} (h : s.CmdWF) {b : U32} (hb : s.PendingRate b) : b ∈ s.cfg.supportedBauds := by
  obtain ⟨c, hc, hb⟩ := hb
  rcases hb with hb | ⟨xq, hq, hx, hm⟩
  · exact h.rateOk hc b hb
  · exact pendingRate_supported (h.rateOk hc) (h.queue_ok hx hc hq) (.inr hm)

/-- The primitive a RESET can cut meets its precondition. -/
theorem State.CmdWF.headOp_ok {s : State} (h : s.CmdWF) {op : ExecOp} (e : s.headOp = some op) : op.ok s.cfg = true := by
  unfold State.headOp at e
  split at e
  · rename_i hx
    obtain ⟨c, hc, e⟩ := Option.bind_eq_some_iff.mp e
    obtain ⟨xq, hq, e⟩ := Option.bind_eq_some_iff.mp e
    exact h.queue_ok hx hc hq op (List.mem_of_mem_head? e)
  · cases e

/-- The invariant does not look at `RXQ`, the logs and the environment. -/
theorem State.Inv.congr {s t : State} (h : s.Inv) (hs : s.SameStorage t) (hk : t.ctl = s.ctl) (hc : t.cmd = s.cmd)
    (hb : t.baud = s.baud) : t.Inv where
  cfg := hs.cfg ▸ h.cfg
  mem := hs.memWF h.mem
  space := hs.inSpace h.space
  cmd := by
    have := h.cmd
    unfold State.CmdWF at this ⊢
    rwa [hc, hk, hs.cfg]
  baud := by rw [hb, hs.cfg]; exact h.baud

theorem State.Inv.setEnv {s : State} (h : s.Inv) (es : List EnvEvent) : (s.setEnv es).Inv :=
  h.congr ⟨rfl, rfl, rfl, rfl, rfl⟩ rfl rfl rfl

/-- The engine's own event completes and keeps the invariant. -/
theorem engineStep_inv {s : State} (h : s.Inv) : ∃ t, engineStep s = .next t ∧ t.Inv := by
  obtain ⟨t, e, hc⟩ := engineStep_fits h.cfg h.cmd
  have he := engineStep_effect e
  have hb : t.baud ∈ s.cfg.supportedBauds := by
    rcases he.baud with hb | ⟨-, -, hb⟩
    · exact hb ▸ h.baud
    · exact h.cmd.pendingRate hb
  exact ⟨t, e, he.cfg ▸ h.cfg, engineStep_memWF e h.mem, engineStep_inSpace e h.space, hc, he.cfg ▸ hb⟩

theorem timeoutEvent_inv {s : State} (h : s.Inv) : ∃ t, timeoutEvent s = .next t ∧ t.Inv := by
  obtain ⟨t, e, hc⟩ := timeoutEvent_fits h.cmd
  have he := timeoutEvent_effect (nb := none) e
  have hb : t.baud = s.baud := he.baud.resolve_right fun ⟨_, _, hb⟩ => nomatch hb
  exact ⟨t, e, he.cfg ▸ h.cfg, he.memWF h.mem, he.inSpace h.space, hc, by rw [hb, he.cfg]; exact h.baud⟩

/-- RESET needs of the state before it only the storage and the configuration (10_state.md R43). -/
theorem resetState_inv (ram buf : List Host.Cell) {s : State} (hw : s.cfg.WF) (hm : s.MemWF) (hs : s.InSpace) :
    (resetState ram buf s).Inv :=
  ⟨hw, resetState_memWF ram buf hm, resetState_inSpace ram buf hs, .of_none rfl rfl, hw.baudInit⟩

/-- Every step from a state that meets the invariant completes, in a state that meets it. -/
theorem step_inv {s : State} (h : s.Inv) : ∃ t, step s = .next t ∧ t.Inv := by
  cases stepEvent s with
  | engine es e => exact e ▸ engineStep_inv (h.setEnv es)
  | host es bs e => exact ⟨_, e, (h.setEnv es).congr ⟨rfl, rfl, rfl, rfl, rfl⟩ rfl rfl rfl⟩
  | timeout es e => exact e ▸ timeoutEvent_inv (h.setEnv es)
  | send es bs e => exact ⟨_, e, (h.setEnv es).congr ⟨rfl, rfl, rfl, rfl, rfl⟩ rfl rfl rfl⟩
  | reset es ram buf _ e => exact ⟨_, e, resetState_inv ram buf h.cfg (h.setEnv es).mem (h.setEnv es).space⟩
  | resetCut es ram buf left op _ hop e =>
    have hcfg := (cutOp_frame op left (s.setEnv es)).1
    exact ⟨_, e, resetState_inv ram buf (hcfg ▸ h.cfg) (cutOp_memWF op left (h.setEnv es).mem)
      (cutOp_inSpace left (h.setEnv es).space (h.cmd.headOp_ok hop))⟩

/-- Settles O14: a step from a state that meets the invariant has one outcome, and that meets it. -/
theorem stepKeepsInvariant : Obligations.StepKeepsInvariant := by
  unfold Obligations.StepKeepsInvariant
  intro s t h e
  obtain ⟨u, hu, hi⟩ := step_inv h
  cases hu.symm.trans e
  exact hi

/-- The configuration of the state after reset is well formed (92_eei_decisions.md, TC0). -/
theorem tc0_wf : Config.tc0.WF := by constructor <;> decide

/-- Settles O15: every space is empty, there is no record, and the rate is TC0's `BAUD_INIT`. -/
theorem resetMeetsInvariant : Obligations.ResetMeetsInvariant where
  cfg := tc0_wf
  mem := ⟨Memory.nil_wf _, Memory.nil_wf _, Memory.nil_wf _, Memory.nil_wf _⟩
  space := ⟨nofun, nofun, nofun, nofun⟩
  cmd := .of_none rfl rfl
  baud := tc0_wf.baudInit

end Sys2Proof.Machine
end

section
/-! What the memory operations do, byte by byte: the operand forms and their range checks (20_memory.md R51-R56), the in-place
predicate (R67), and the primitives that read, program and erase (R60-R66). -/

namespace Sys2Proof.Machine

/-! ## Operand forms (20_memory.md R51-R56) -/

theorem flashRangeOk_iff {cfg : Config} {a n : Nat} :
    flashRangeOk cfg a n = true ↔ a + n ≤ cfg.flashSize ∧ a + n ≤ 2 ^ 32 := by
  simp only [flashRangeOk, noWrap, flashFits, Bool.and_eq_true, decide_eq_true_eq, and_comm]

theorem otpRangeOk_iff {cfg : Config} {w k : Nat} :
    otpRangeOk cfg w k = true ↔ w + k ≤ cfg.otpWords ∧ w + k ≤ 2 ^ 32 := by
  simp only [otpRangeOk, noWrap, otpFits, Bool.and_eq_true, decide_eq_true_eq, and_comm]

/-- No region of a well-formed configuration ends past 2^32, so a range inside one does not wrap (20_memory.md R50, R51). -/
theorem ramRangeOk_iff {cfg : Config} (hw : cfg.WF) {a n : Nat} :
    ramRangeOk cfg a n = true ↔ ∃ r ∈ cfg.ramRegions, r.lo ≤ a ∧ a + n ≤ r.hi := by
  simp only [ramRangeOk, noWrap, Bool.and_eq_true, decide_eq_true_eq, List.any_eq_true, and_iff_right_iff_imp]
  rintro ⟨r, hr, -, hhi⟩
  have hwf := hw.regions r hr
  simp only [Region.wf, Bool.and_eq_true, decide_eq_true_eq] at hwf
  exact hhi.trans hwf.2

/-- Partition ids are distinct, so the entry found is the one with the id (00_scope.md R8, 20_memory.md R56). -/
theorem partition_eq_some_iff {cfg : Config} (hw : cfg.WF) {id : Byte} {e : PartEntry} :
    Config.partition cfg id = some e ↔ e ∈ cfg.ptable ∧ e.typ = id := by
  constructor
  · intro h
    exact ⟨List.mem_of_find?_eq_some h, by simpa using List.find?_some h⟩
  · rintro ⟨he, rfl⟩
    exact Laws.EncodeDecode.find?_of_nodup hw.ptableIds he

theorem partitionAddr_eq_some_iff {cfg : Config} {id : Byte} {off n a : Nat} :
    partitionAddr cfg id off n = some a ↔ ∃ e, Config.partition cfg id = some e ∧ off + n ≤ e.size.toNat ∧
      flashRangeOk cfg (e.startAddress.toNat + off) n = true ∧ e.startAddress.toNat + off = a := by
  unfold partitionAddr
  cases Config.partition cfg id <;> simp [and_assoc]

/-- The partition ranges a `Header` stage accepts (20_memory.md R56). -/
theorem partitionAddr_isSome_iff {cfg : Config} (hw : cfg.WF) {id : Byte} {off n : Nat} :
    (partitionAddr cfg id off n).isSome = true ↔ ∃ e ∈ cfg.ptable, e.typ = id ∧ off + n ≤ e.size.toNat ∧
      e.startAddress.toNat + off + n ≤ cfg.flashSize ∧ e.startAddress.toNat + off + n ≤ 2 ^ 32 := by
  simp only [Option.isSome_iff_exists, partitionAddr_eq_some_iff, partition_eq_some_iff hw, flashRangeOk_iff]
  constructor
  · rintro ⟨_, e, ⟨he, hid⟩, hsize, hflash, -⟩
    exact ⟨e, he, hid, hsize, hflash⟩
  · rintro ⟨e, he, hid, hsize, hflash⟩
    exact ⟨_, e, ⟨he, hid⟩, hsize, hflash, rfl⟩

/-- Settles O8: the tests of `classify`, in their order. -/
theorem classifyRamSideAddress : Obligations.ClassifyRamSideAddress := by
  unfold Obligations.ClassifyRamSideAddress
  intro cfg a
  exact ⟨fun h => if_pos h, fun h hwin => (if_neg h).trans (if_pos hwin), fun h hwin => (if_neg h).trans (if_neg hwin)⟩

/-- Settles O9: each `Header` stage is one of the range checks, COPY_TO_FLASH's and READ_OTP's two checks. -/
theorem headerRangeChecks : Obligations.HeaderRangeChecks := by
  unfold Obligations.HeaderRangeChecks
  intro cfg pl hw
  refine ⟨fun o => ?writeBuf, fun a => ?writeRam, fun o len => ?readBuf, fun a len => ?readRam, fun o dst len => ?copyBuf,
    fun a dst len => ?copyRam, fun a len => ?eraseFlash, fun a len => ?readFlash, fun a len => ?isEmptyFlash,
    fun a v => ?directWrite, fun w => ?writeOtp, fun w k => ?readOtp, fun id off len => ?readPartition,
    fun id off => ?writePartition, fun b => ?changeBaud⟩
  case writeBuf | readBuf => exact bufRangeOk_iff
  case writeRam | readRam => exact ramRangeOk_iff hw
  case copyBuf => exact Bool.and_eq_true_iff.trans (and_congr bufRangeOk_iff flashRangeOk_iff)
  case copyRam => exact Bool.and_eq_true_iff.trans (and_congr (ramRangeOk_iff hw) flashRangeOk_iff)
  case eraseFlash | readFlash | isEmptyFlash | directWrite => exact flashRangeOk_iff
  case writeOtp => exact otpRangeOk_iff
  case readOtp => exact (Bool.and_eq_true_iff.trans (and_congr otpRangeOk_iff decide_eq_true_iff)).trans and_assoc
  case readPartition | writePartition => exact partitionAddr_isSome_iff hw
  case changeBaud => exact baudSupported_iff

/-! ## The in-place predicate (20_memory.md R67) -/

/-- Programming a byte only clears bits of it. -/
theorem and_clears (c v : Byte) : (c &&& v) &&& ~~~c = 0 := by
  rw [BitVec.and_comm c v, BitVec.and_assoc]; simp

/-- A byte that raises no bit of `c` is what programming it over `c` leaves. -/
theorem and_eq_of_clears {c v : Byte} (h : v &&& ~~~c = 0) : c &&& v = v := by
  apply BitVec.eq_of_getLsbD_eq
  intro i hi
  have hbit : (v &&& ~~~c).getLsbD i = false := by simp [h]
  simp only [BitVec.getLsbD_and, BitVec.getLsbD_not, hi, decide_true, Bool.true_and, Bool.and_eq_false_imp] at hbit ⊢
  cases hv : v.getLsbD i <;> simp_all

theorem updatePossible_cons (c n : Byte) (cur new : List Byte) :
    updatePossible (c :: cur) (n :: new) = true ↔ n &&& ~~~c = 0 ∧ updatePossible cur new = true := by
  simp [updatePossible]

theorem updatePossible_iff {cur new : List Byte} (h : cur.length = new.length) :
    updatePossible cur new = true ↔ ∀ i < new.length, new.getD i 0 &&& ~~~(cur.getD i 0) = 0 := by
  induction cur generalizing new with
  | nil => cases new <;> simp_all [updatePossible]
  | cons c cs ih =>
    cases new with
    | nil => simp at h
    | cons n ns =>
      rw [updatePossible_cons, ih (by simpa using h), List.length_cons, Nat.forall_lt_succ_left]
      rfl

theorem andBytes_of_updatePossible {cur new : List Byte} (h : cur.length = new.length)
    (hu : updatePossible cur new = true) : andBytes cur new = new := by
  induction cur generalizing new with
  | nil => cases new <;> simp_all [andBytes]
  | cons c cs ih =>
    cases new with
    | nil => simp at h
    | cons n ns =>
      obtain ⟨hn, hns⟩ := (updatePossible_cons c n cs ns).mp hu
      exact congrArg₂ List.cons (and_eq_of_clears hn) (ih (by simpa using h) hns)

/-- Settles O10, by induction over the two ranges. -/
theorem updatePossibleClearsBitsOnly : Obligations.UpdatePossibleClearsBitsOnly := by
  unfold Obligations.UpdatePossibleClearsBitsOnly
  exact fun _ _ h => ⟨updatePossible_iff h, andBytes_of_updatePossible h⟩

/-! ## The canonical form under a step -/

/-- Settles O16: an event of the engine and a RESET each keep the canonical form; the other events change no storage. -/
theorem stepKeepsMemoryCanonical : Obligations.StepKeepsMemoryCanonical := by
  unfold Obligations.StepKeepsMemoryCanonical
  intro s t m e
  have same (es : List EnvEvent) : s.SameStorage (s.setEnv es) := ⟨rfl, rfl, rfl, rfl, rfl⟩
  cases stepEvent s with
  | engine es h => exact engineStep_memWF (h.symm.trans e) ((same es).memWF m)
  | host es bs h => cases h.symm.trans e; exact ⟨m.ram, m.buf, m.flash, m.otp⟩
  | timeout es h => exact (timeoutEvent_effect (nb := none) (h.symm.trans e)).memWF ((same es).memWF m)
  | send es bs h => cases h.symm.trans e; exact ⟨m.ram, m.buf, m.flash, m.otp⟩
  | reset es ram buf _ h => cases h.symm.trans e; exact resetState_memWF ram buf ((same es).memWF m)
  | resetCut es ram buf left op _ _ h =>
    cases h.symm.trans e
    exact resetState_memWF ram buf (cutOp_memWF op left ((same es).memWF m))

/-! ## Bytes read and written -/

/-- Inside a list the default of `getD` does not matter. -/
theorem getD_default {α : Type} {v : List α} {i : Nat} (d d' : α) (h : i < v.length) : v.getD i d = v.getD i d' := by
  rw [List.getD_eq_getElem v d h, List.getD_eq_getElem v d' h]

/-- Read after write, with any default for the byte of the range. -/
theorem Memory.read_writeBytes_getD (blank d : Byte) (m : Memory) (a : Nat) (v : List Byte) (x : Nat) :
    Memory.read blank (Memory.writeBytes blank m a v) x =
      if a ≤ x ∧ x < a + v.length then v.getD (x - a) d else Memory.read blank m x := by
  rw [Memory.read_writeBytes]
  refine ite_congr rfl (fun h => ?_) fun _ => rfl
  exact getD_default _ _ (by omega)

/-- A byte of a programmed range. -/
theorem andBytes_getD {cur v : List Byte} {i : Nat} (d : Byte) (hc : i < cur.length) (hv : i < v.length) :
    (andBytes cur v).getD i d = cur.getD i d &&& v.getD i d := by
  simp [andBytes, List.getD_eq_getElem?_getD, hc, hv]

/-- Programming `v` over `n` bytes from `a` on ANDs each byte that both have, and leaves the others (20_memory.md R64, R65). -/
theorem Memory.read_programmed (blank : Byte) (m : Memory) (a n : Nat) (v : List Byte) (x : Nat) :
    Memory.read blank (Memory.writeBytes blank m a (andBytes (Memory.readBytes blank m a n) v)) x =
      if a ≤ x ∧ x < a + min n v.length then Memory.read blank m x &&& v.getD (x - a) 0 else Memory.read blank m x := by
  rw [Memory.read_writeBytes_getD blank 0, andBytes_length, Memory.readBytes_length]
  refine ite_congr rfl (fun h => ?_) fun _ => rfl
  rw [andBytes_getD 0 (by simp; omega) (by omega), Memory.readBytes_getD _ _ _ _ _ _ (by omega),
    show a + (x - a) = x by omega]

/-- An answer as long as the range replaces all of it. -/
theorem overlay_of_length {left normal : List Byte} (h : left.length = normal.length) : overlay left normal = left := by
  simp [overlay, h, List.take_of_length_le]

/-- Where the storage may fail, a primitive leaves the next answer, if that has the length of its range (20_memory.md R60). -/
theorem State.disturbed_faulty {s : State} {left normal : List Byte} {as : List (List Byte)}
    (hf : s.cfg.storageFaults = true) (ha : s.answers = left :: as) (hl : left.length = normal.length) :
    s.disturbed normal = left := by
  rw [State.disturbed, if_pos hf, (State.drawn_cons ha).1, overlay_of_length hl]

/-! ## One exec-step of a storage primitive (41_framing_fsm.md R155) -/

/-- The exec-step of a primitive does what the primitive does, and leaves the rest of the queue. -/
theorem exec_primitive {s t : State} {c : Cmd} {n : Command} {f : HdrFields Tagged} {op : ExecOp}
    {rest more : List ExecOp} (h : s.Executing c n f (op :: rest)) (hp : op.pure = false)
    (e : perform op s = some (t, more)) :
    exec n.toInstr s = .next { t with cmd := some { c with xq := some (more ++ rest) } } := by
  have hk : t.ctl = .exec := (perform_frame e).2.1.trans h.ctl
  rw [exec_executing h, runExec_primitive (handlerOf n) f rest c hp e, ← hk]
  rfl

/-- The bytes of a read from BUF. -/
theorem State.readBuf_getD (s : State) {o n i : Nat} (h : i < n) : (s.readBuf o n).getD i 0 = s.bufByte (o + i) :=
  Memory.readBytes_getD _ _ _ _ _ _ h

/-- The bytes of a read from RAM. -/
theorem State.readRam_getD (s : State) {a n i : Nat} (h : i < n) : (s.readRam a n).getD i 0 = s.ramByte (a + i) :=
  Memory.readBytes_getD _ _ _ _ _ _ h

/-- Settles O47: the read of `copy`, from either space, and the safety write it leaves. -/
theorem copyToFlashReadsSource : Obligations.CopyToFlashReadsSource := by
  unfold Obligations.CopyToFlashReadsSource
  intro s c f n dst rest
  constructor
  · intro o h hfit
    refine ⟨s.readBuf o n, by simp [State.readBuf], fun i hi => s.readBuf_getD hi, ?_⟩
    have e : perform (.copy (.scratch o) n dst) s = some (s.emit [], safeWrite dst (s.readBuf o n)) :=
      if_pos (bufRangeOk_iff.mpr hfit)
    rw [State.emit_nil] at e
    exact exec_primitive h rfl e
  · intro a h hfit
    refine ⟨s.readRam a n, by simp [State.readRam], fun i hi => s.readRam_getD hi, ?_⟩
    have e : perform (.copy (.concrete a) n dst) s =
        some (s.emit [.read .ram a n], safeWrite dst (s.readRam a n)) := if_pos hfit
    exact exec_primitive h rfl e

/-! ## Programming and erasing (20_memory.md R60, R63-R65) -/

theorem perform_flashWrite {s : State} {a : Nat} {v : List Byte} (h : a + v.length ≤ s.cfg.flashSize) :
    perform (.flashWrite a v) s = some (s.programFlash a v, []) := if_pos (flashFits_iff.mpr h)

theorem perform_erase {s : State} {s₀ : Nat} (hal : s₀ % s.cfg.sectorSize = 0)
    (h : s₀ + s.cfg.sectorSize ≤ s.cfg.flashSize) : perform (.erase s₀) s = some (s.eraseSector s₀, []) :=
  if_pos ⟨hal, flashFits_iff.mpr h⟩

theorem perform_program {s : State} {w : Nat} {v : List Byte} (hw : w < s.cfg.otpWords) (hv : v.length = s.cfg.w8) :
    perform (.program w v) s = some (s.programCell w v, []) := if_pos ⟨otpFits_iff.mpr hw, hv⟩

/-- A range of `n` bytes that a possibly disturbed primitive wrote: no byte outside it changes (20_memory.md R60). -/
theorem State.read_disturbed (s : State) (blank : Byte) (m : Memory) (a : Nat) {normal : List Byte} {n : Nat}
    (hn : normal.length = n) (x : Nat) : Memory.read blank (Memory.writeBytes blank m a (s.disturbed normal)) x =
      if a ≤ x ∧ x < a + n then (s.disturbed normal).getD (x - a) 0 else Memory.read blank m x := by
  rw [Memory.read_writeBytes_getD blank 0, State.disturbed_length, hn]

theorem State.programFlash_byte (s : State) (a : Nat) (v : List Byte) (x : Nat) :
    (s.programFlash a v).flashByte x = if a ≤ x ∧ x < a + v.length then
      (s.disturbed (andBytes (s.readFlash a v.length) v)).getD (x - a) 0 else s.flashByte x :=
  s.read_disturbed _ _ _ (by simp) x

theorem State.eraseSector_byte (s : State) (s₀ x : Nat) :
    (s.eraseSector s₀).flashByte x = if s₀ ≤ x ∧ x < s₀ + s.cfg.sectorSize then
      (s.disturbed (List.replicate s.cfg.sectorSize 0xFF)).getD (x - s₀) 0 else s.flashByte x :=
  s.read_disturbed _ _ _ (by simp) x

theorem State.programCell_byte (s : State) {w : Nat} {v : List Byte} (hv : v.length = s.cfg.w8) (x : Nat) :
    (s.programCell w v).otpByte x = if w * s.cfg.w8 ≤ x ∧ x < w * s.cfg.w8 + s.cfg.w8 then
      (s.disturbed (andBytes (s.readCell w) v)).getD (x - w * s.cfg.w8) 0 else s.otpByte x :=
  s.read_disturbed _ _ _ (by simp [hv]) x

/-- Without faults, programming flash writes the AND and draws nothing (20_memory.md R64). -/
theorem State.programFlash_normal {s : State} (hnf : s.cfg.storageFaults = false) (a : Nat) (v : List Byte) :
    s.programFlash a v = (s.setFlash (Memory.writeBytes Space.flash.blank s.flash a
      (andBytes (s.readFlash a v.length) v))).emit [.write .flash a v.length] := by
  simp only [State.programFlash, State.disturbed_normal hnf, (State.disturbed_normal hnf []).2]

/-- Without faults, an erase writes 0xFF and draws nothing (20_memory.md R63). -/
theorem State.eraseSector_normal {s : State} (hnf : s.cfg.storageFaults = false) (s₀ : Nat) :
    s.eraseSector s₀ = (s.setFlash (Memory.writeBytes Space.flash.blank s.flash s₀
      (List.replicate s.cfg.sectorSize 0xFF))).emit [.erase s₀] := by
  simp only [State.eraseSector, State.disturbed_normal hnf, (State.disturbed_normal hnf []).2]

/-- Without faults, programming a cell writes the AND and draws nothing (20_memory.md R65). -/
theorem State.programCell_normal {s : State} (hnf : s.cfg.storageFaults = false) (w : Nat) (v : List Byte) :
    s.programCell w v = (s.setOtp (Memory.writeBytes Space.otp.blank s.otp (w * s.cfg.w8)
      (andBytes (s.readCell w) v))).emit [.programOtp w] := by
  simp only [State.programCell, State.disturbed_normal hnf, (State.disturbed_normal hnf []).2]

/-- Where the storage may fail, erasing the chip leaves the next answer in the flash. -/
theorem State.eraseChip_byte {s : State} {left : List Byte} {as : List (List Byte)} (hf : s.cfg.storageFaults = true)
    (ha : s.answers = left :: as) (hl : left.length = s.cfg.flashSize) {x : Nat} (hx : x < s.cfg.flashSize) :
    s.eraseChip.flashByte x = left.getD x 0 := by
  have hread := Memory.read_cellsFrom Space.flash.blank left 0 x
  rw [if_pos (by omega), getD_default _ 0 (by omega)] at hread
  have hflash : s.eraseChip.flash = Memory.cellsFrom Space.flash.blank 0 left := by
    simp [State.eraseChip, hf, (State.drawn_cons ha).1, List.take_of_length_le hl.le]
  rw [State.flashByte, hflash]
  exact hread

/-- Settles O48: without faults the range of a write is ANDed, that of an erase 0xFF, and the event alone is logged. -/
theorem flashPrimitiveSteps : Obligations.FlashPrimitiveSteps := by
  unfold Obligations.FlashPrimitiveSteps
  intro s c n f rest hnf _
  constructor
  · intro a v h hfit
    have hp := perform_flashWrite hfit
    rw [State.programFlash_normal hnf] at hp
    refine ⟨_, exec_primitive h rfl hp, rfl, fun x => ?_⟩
    have hread := Memory.read_programmed Space.flash.blank s.flash a v.length v x
    rwa [min_self] at hread
  · intro s₀ h hal hfit
    have hp := perform_erase hal hfit
    rw [State.eraseSector_normal hnf] at hp
    refine ⟨_, exec_primitive h rfl hp, rfl, fun x => ?_⟩
    have hread := Memory.read_writeBytes Space.flash.blank s.flash s₀ (List.replicate s.cfg.sectorSize 0xFF) x
    rw [List.length_replicate] at hread
    exact hread.trans (ite_congr rfl (fun hx => List.getD_replicate _ (by omega)) fun _ => rfl)

/-- Settles O56: each primitive leaves the next answer in its range and every byte outside it. -/
theorem faultsLeaveAnyBytes : Obligations.FaultsLeaveAnyBytes := by
  unfold Obligations.FaultsLeaveAnyBytes
  intro s c n f rest left as hf ha
  refine ⟨fun a v h hfit hl => ?_, fun s₀ h hal hfit hl => ?_, fun h hl => ?_, fun w v h hw hv hl => ?_⟩
  · refine ⟨_, exec_primitive h rfl (perform_flashWrite hfit), fun x => ?_⟩
    rw [← State.disturbed_faulty (normal := andBytes (s.readFlash a v.length) v) hf ha (by simpa using hl)]
    exact s.programFlash_byte a v x
  · refine ⟨_, exec_primitive h rfl (perform_erase hal hfit), fun x => ?_⟩
    rw [← State.disturbed_faulty (normal := List.replicate s.cfg.sectorSize 0xFF) hf ha (by simpa using hl)]
    exact s.eraseSector_byte s₀ x
  · exact ⟨_, exec_primitive (op := .chipErase) h rfl rfl, fun x hx => State.eraseChip_byte hf ha hl hx⟩
  · refine ⟨_, exec_primitive h rfl (perform_program hw hv), fun x => ?_⟩
    rw [← State.disturbed_faulty (normal := andBytes (s.readCell w) v) hf ha (by simpa [hv] using hl)]
    exact s.programCell_byte hv x

/-! ## OTP bits go from 1 to 0 only (20_memory.md R65) -/

/-- No OTP bit that is 0 in `s` is 1 in `t`. -/
def State.OtpClears (s t : State) : Prop := ∀ x, t.otpByte x &&& ~~~(s.otpByte x) = 0

theorem State.OtpClears.of_eq {s t : State} (h : t.otp = s.otp) : s.OtpClears t := by
  intro x
  simp [State.otpByte, h]

/-- A cell that becomes its value ANDed with any bytes only loses bits. -/
theorem State.OtpClears.of_cell {s t : State} (w : Nat) (v : List Byte)
    (h : t.otp = Memory.writeBytes Space.otp.blank s.otp (w * s.cfg.w8) (andBytes (s.readCell w) v)) :
    s.OtpClears t := by
  intro x
  rw [State.otpByte, h, State.readCell, Memory.read_programmed]
  split
  · exact and_clears _ _
  · exact BitVec.and_not_self _

/-- Where the storage does not fail, a primitive only clears OTP bits: `OtpProgram` alone writes the OTP. -/
theorem perform_otpClears {op : ExecOp} {s t : State} {more : List ExecOp} (hf : s.cfg.storageFaults = false)
    (e : perform op s = some (t, more)) : s.OtpClears t := by
  cases op <;> simp only [perform, Option.ite_none_right_eq_some, Option.some.injEq, Prod.mk.injEq] at e
  case write t v => obtain ⟨-, rfl, -⟩ := e; cases t <;> exact .of_eq rfl
  case copy | chunk | sector | verify => obtain ⟨-, rfl, -⟩ := e; exact .of_eq rfl
  case flashWrite | erase => obtain ⟨-, rfl, -⟩ := e; exact .of_eq s.afterFault_otp
  case program w v =>
    obtain ⟨-, rfl, -⟩ := e
    exact .of_cell w v (by rw [State.programCell_normal hf]; rfl)
  case chipErase => obtain ⟨rfl, -⟩ := e; exact .of_eq s.afterFault_otp
  case setBaud | gpio | check => obtain ⟨rfl, -⟩ := e; exact .of_eq rfl

/-- A cut primitive leaves no OTP bit back at 1, whatever `left` is (70_reset_and_hazards.md R332). -/
theorem cutOp_otpClears (op : ExecOp) (left : List Byte) (s : State) : s.OtpClears (cutOp op left s) := by
  cases op with
  | program w v => exact .of_cell w _ rfl
  | _ => exact .of_eq rfl

theorem runExec_otpClears {h : Handler} {f : HdrFields Tagged} {xq : List ExecOp} {c : Cmd} {s t : State}
    (hf : s.cfg.storageFaults = false) (e : runExec h f xq c s = .next t) : s.OtpClears t := by
  obtain ⟨es, _, -, o⟩ := runExec_next e
  cases o with
  | ended e => exact .of_eq (execDone_effect e).2.otp
  | failed e => exact .of_eq (raiseAbort_effect (nb := none) e).otp
  | performed _ _ e ht =>
    have hu := perform_otpClears (s := s.emit es) hf e
    subst ht
    exact hu

theorem engineStep_otpClears {s t : State} (hf : s.cfg.storageFaults = false) (e : engineStep s = .next t) :
    s.OtpClears t := by
  cases engineEvent s with
  | exec hx h =>
    obtain ⟨c, n, f, xq, -, -, e⟩ := execEvent_next (h.symm.trans e)
    exact runExec_otpClears hf e
  | byte b _ _ h => exact .of_eq (onByte_effect (h.symm.trans e)).otp
  | send bs h => cases h.symm.trans e; exact .of_eq rfl

/-- Settles O22: only an exec-step and a cut primitive write the OTP, and both only clear bits. -/
theorem otpBitsNeverReturn : Obligations.OtpBitsNeverReturn := by
  unfold Obligations.OtpBitsNeverReturn
  intro s t x hf e
  suffices h : s.OtpClears t from h x
  cases stepEvent s with
  | engine es h => exact engineStep_otpClears (s := s.setEnv es) hf (h.symm.trans e)
  | host es bs h => cases h.symm.trans e; exact .of_eq rfl
  | timeout es h => exact .of_eq (timeoutEvent_effect (nb := none) (h.symm.trans e)).otp
  | send es bs h => cases h.symm.trans e; exact .of_eq rfl
  | reset es ram buf _ h => cases h.symm.trans e; exact .of_eq rfl
  | resetCut es ram buf left op _ _ h => cases h.symm.trans e; exact cutOp_otpClears op left (s.setEnv es)

end Sys2Proof.Machine
end

section
/-! The encodings: bytes and fields read back from where they were written, the rows of the opcode table, whole frames
(00_scope.md R9; 30_encoding.md R80-R102, R117). -/

namespace Sys2Proof

open Machine

/-! ## Little-endian integers (00_scope.md R9, 20_memory.md R68) -/

@[simp] theorem leBytes_length (k v : Nat) : (leBytes k v).length = k := by
  induction k generalizing v with
  | zero => rfl
  | succ k ih => simp [leBytes, ih]

@[simp] theorem LE16_length (v : U16) : (LE16 v).length = 2 := leBytes_length 2 _

@[simp] theorem LE32_length (v : U32) : (LE32 v).length = 4 := leBytes_length 4 _

/-- The `k` low bytes of a value, read back. -/
theorem leNat_leBytes (k v : Nat) : leNat (leBytes k v) = v % 256 ^ k := by
  induction k generalizing v with
  | zero => simp [leBytes, leNat, Nat.mod_one]
  | succ k ih =>
    rw [leBytes, leNat, ih, BitVec.toNat_ofNat, Nat.pow_succ' (m := 256), Nat.mod_mul (a := 256)]

theorem leNat_leBytes_of_lt {k v : Nat} (h : v < 256 ^ k) : leNat (leBytes k v) = v := by
  rw [leNat_leBytes, Nat.mod_eq_of_lt h]

@[simp] theorem leNat_LE16 (v : U16) : leNat (LE16 v) = v.toNat := leNat_leBytes_of_lt v.isLt

@[simp] theorem leNat_LE32 (v : U32) : leNat (LE32 v) = v.toNat := leNat_leBytes_of_lt v.isLt

theorem joinLE_toNat (lo hi : Byte) : (joinLE lo hi).toNat = lo.toNat + 256 * hi.toNat := by
  have hlo := lo.isLt
  have hhi := hi.isLt
  have hor := Nat.shiftLeft_add_eq_or_of_lt hlo hi.toNat
  simp only [joinLE, BitVec.toNat_or, BitVec.toNat_shiftLeft, BitVec.truncate_eq_setWidth, BitVec.toNat_setWidth]
  rw [Nat.mod_eq_of_lt (a := lo.toNat) (by omega), Nat.mod_eq_of_lt (a := hi.toNat) (by omega), Nat.shiftLeft_eq,
    Nat.mod_eq_of_lt (by omega), Nat.or_comm, ← Nat.shiftLeft_eq, ← hor, Nat.shiftLeft_eq]
  omega

/-- The receiver assembles the two low bytes of a value to that value (40_crc.md R127). -/
theorem joinLE_ofNat (v : Nat) : joinLE (BitVec.ofNat 8 v) (BitVec.ofNat 8 (v / 256)) = BitVec.ofNat 16 v := by
  apply BitVec.eq_of_toNat_eq
  simp only [joinLE_toNat, BitVec.toNat_ofNat]
  omega

/-- The version bytes as numbers, high byte first (30_encoding.md R82). -/
theorem versionBytes_eq (v : U16) : versionBytes v = [BitVec.ofNat 8 (v.toNat / 256), BitVec.ofNat 8 v.toNat] := by
  have hhi : (v >>> 8).truncate 8 = BitVec.ofNat 8 (v.toNat / 256) :=
    BitVec.eq_of_toNat_eq (by simp [Nat.shiftRight_eq_div_pow])
  have hlo : v.truncate 8 = BitVec.ofNat 8 v.toNat := BitVec.eq_of_toNat_eq (by simp)
  rw [versionBytes, hhi, hlo]

/-- The bytes a version was read from are its version bytes. -/
theorem versionBytes_joinLE (lo hi : Byte) : versionBytes (joinLE lo hi) = [hi, lo] := by
  have hlo : BitVec.ofNat 8 (lo.toNat + 256 * hi.toNat) = lo := BitVec.eq_of_toNat_eq (by simp; omega)
  have hhi : BitVec.ofNat 8 ((lo.toNat + 256 * hi.toNat) / 256) = hi := BitVec.eq_of_toNat_eq (by simp; omega)
  rw [versionBytes_eq, joinLE_toNat, hlo, hhi]

/-! ## Ranges of a byte sequence -/

/-- A part of a sequence, read back by its offset and length. -/
theorem slice_eq_of_append {b u v w : List Byte} {p n : Nat} (hb : b = u ++ (v ++ w)) (hp : u.length = p)
    (hn : v.length = n) : slice b p n = v := by
  subst hb hp hn
  simp [slice]

theorem slice_getElem? (s : List Byte) (p n i : Nat) : (slice s p n)[i]? = if i < n then s[p + i]? else none := by
  simp [slice, List.getElem?_take]

theorem splice_getElem? {s v : List Byte} {p : Nat} (h : p + v.length ≤ s.length) (i : Nat) :
    (splice s p v)[i]? = if p ≤ i ∧ i < p + v.length then v[i - p]? else s[i]? := by
  have hp : (s.take p).length = p := by simp; omega
  rw [splice, List.append_assoc]
  by_cases hlo : i < p
  · rw [List.getElem?_append_left (by omega), List.getElem?_take_of_lt hlo, if_neg (by omega)]
  · rw [List.getElem?_append_right (by omega), hp]
    by_cases hhi : i < p + v.length
    · rw [List.getElem?_append_left (by omega), if_pos (by omega)]
    · rw [List.getElem?_append_right (by omega), List.getElem?_drop, if_neg (by omega)]
      congr 1
      omega

/-- The bytes written are the bytes read. -/
theorem slice_splice_same {s v : List Byte} {p : Nat} (h : p + v.length ≤ s.length) :
    slice (splice s p v) p v.length = v :=
  slice_eq_of_append (List.append_assoc ..) (by simp; omega) rfl

/-- A field written leaves every field apart from it. -/
theorem slice_splice_apart {s v : List Byte} {p q n : Nat} (h : p + v.length ≤ s.length)
    (ha : placesApart (p, v.length) (q, n) = true) : slice (splice s p v) q n = slice s q n := by
  simp only [placesApart, Bool.or_eq_true, decide_eq_true_eq] at ha
  apply List.ext_getElem?
  intro i
  simp only [slice_getElem?, splice_getElem? h]
  split
  · exact if_neg (by omega)
  · rfl

/-! ## The rows of the opcode table -/

theorem encode_toInstr (cfg : Config) (n : Command) : encode cfg n.toInstr = [cfg.cmdCode n] := by cases n <;> rfl

theorem toInstr_pos (n : Command) : n.toInstr.pos = .commandType := by cases n <;> rfl

/-- `DISPATCH` answers a command at its own code only (30_encoding.md R91). -/
theorem cmdCode_of_dispatch {cfg : Config} (hw : cfg.WF) {t : Byte} {n : Command} (h : cfg.dispatch t = some n) :
    cfg.cmdCode n = t := by
  obtain ⟨r, hr, rfl⟩ := Option.map_eq_some_iff.mp h
  have hrow : cfg.row r.name = some r := Laws.EncodeDecode.find?_of_nodup hw.names (List.mem_of_find?_eq_some hr)
  simpa [Config.cmdCode, hrow] using List.find?_some hr

theorem decodeType_reencodes {cfg : Config} (hw : cfg.WF) (t : Byte) :
    (decodeType cfg t).pos = .commandType ∧ encode cfg (decodeType cfg t) = [t] := by
  unfold decodeType
  split
  · rename_i n hd
    exact ⟨toInstr_pos n, by rw [encode_toInstr, cmdCode_of_dispatch hw hd]⟩
  · exact ⟨rfl, rfl⟩

/-- The four control bytes, told apart by their values (30_encoding.md R80). -/
theorem decodeControl_eq_some {b : Byte} {i : Instr} (h : decodeControl b = some i) :
    (b = SOH ∧ i = .soh) ∨ (b = STX ∧ i = .stx) ∨ (b = ACK ∧ i = .ack) ∨ (b = NAK ∧ i = .nak) := by
  unfold decodeControl at h
  split_ifs at h <;> cases h <;> simp_all

theorem decodeControl_reencodes (cfg : Config) {b : Byte} {i : Instr} (h : decodeControl b = some i) :
    i.pos = .control ∧ encode cfg i = [b] := by
  rcases decodeControl_eq_some h with ⟨rfl, rfl⟩ | ⟨rfl, rfl⟩ | ⟨rfl, rfl⟩ | ⟨rfl, rfl⟩ <;> exact ⟨rfl, rfl⟩

/-- Settles O2, position by position: the codes are distinct, the control bytes and the announcement's first two are fixed,
and the version is its two bytes. -/
theorem decodedBytesReencode : Obligations.DecodedBytesReencode := by
  unfold Obligations.DecodedBytesReencode
  intro cfg pos bytes i hw h
  unfold decode at h
  split at h
  case h_1 t => cases h; exact decodeType_reencodes hw t
  case h_3 b =>
    split at h <;> cases h
    rename_i hd
    exact decodeControl_reencodes cfg hd
  case h_5 a b hi lo =>
    split at h <;> cases h
    rename_i hab
    obtain ⟨rfl, rfl⟩ := hab
    exact ⟨rfl, by simp [encode, announceBytes, versionBytes_joinLE]⟩
  all_goals cases h

/-- Settles O3, by decoding the six words. -/
theorem wordsDecodeAsWritten : Obligations.WordsDecodeAsWritten := ⟨rfl, rfl, rfl, rfl, rfl, rfl⟩

/-- Settles O4: the version bytes as numbers, and the decoding of an announcement's own bytes. -/
theorem announcementHighByteFirst : Obligations.AnnouncementHighByteFirst := by
  unfold Obligations.AnnouncementHighByteFirst
  intro s v hk
  have hbytes : announceBytes v = [0x02, 0x01, BitVec.ofNat 8 (v.toNat / 256), BitVec.ofNat 8 v.toNat] := by
    rw [announceBytes, versionBytes_eq]; rfl
  rw [← hbytes]
  constructor
  · rw [exec, execAnnounce, if_pos hk, hbytes]
    rfl
  · simp [decode, announceBytes, versionBytes, Laws.EncodeDecode.joinLE_versionBytes]

end Sys2Proof
end

section
/-! The header fields of a command and its whole frame, read back from their bytes (30_encoding.md R84, R86, R94, R95, R117). -/

namespace Sys2Proof

open Machine

/-! ## Header fields (30_encoding.md R92, R95) -/

/-- One header field written at its place, little-endian. -/
def putField (acc : List Byte) (pwv : (Nat × Nat) × Nat) : List Byte := splice acc pwv.1.1 (leBytes pwv.1.2 pwv.2)

theorem encodeHdr_eq (cfg : Config) (f : HdrFields U32) :
    encodeHdr cfg f = ((cfg.fieldPlaces f.command).zip f.values).foldl putField (List.replicate (cfg.hdrSize f.command) 0) :=
  rfl

theorem putField_length {acc : List Byte} {pwv : (Nat × Nat) × Nat} (h : pwv.1.1 + pwv.1.2 ≤ acc.length) :
    (putField acc pwv).length = acc.length := splice_length (by simpa using h)

theorem foldl_putField_length {fields : List ((Nat × Nat) × Nat)} {acc : List Byte}
    (h : ∀ x ∈ fields, x.1.1 + x.1.2 ≤ acc.length) : (fields.foldl putField acc).length = acc.length := by
  induction fields generalizing acc with
  | nil => rfl
  | cons x fields ih =>
    obtain ⟨hx, hrest⟩ := List.forall_mem_cons.mp h
    have hl := putField_length hx
    rw [List.foldl_cons, ih (by rwa [hl]), hl]

/-- Writing fields leaves every field apart from them. -/
theorem slice_foldl_putField {fields : List ((Nat × Nat) × Nat)} {acc : List Byte} {q n : Nat}
    (h : ∀ x ∈ fields, x.1.1 + x.1.2 ≤ acc.length) (ha : ∀ x ∈ fields, placesApart (q, n) x.1 = true) :
    slice (fields.foldl putField acc) q n = slice acc q n := by
  induction fields generalizing acc with
  | nil => rfl
  | cons x fields ih =>
    obtain ⟨hx, hrest⟩ := List.forall_mem_cons.mp h
    obtain ⟨hax, harest⟩ := List.forall_mem_cons.mp ha
    have hapart : placesApart (x.1.1, (leBytes x.1.2 x.2).length) (q, n) = true := by
      simpa [placesApart, or_comm] using hax
    rw [List.foldl_cons, ih (by rwa [putField_length hx]) harest]
    exact slice_splice_apart (by simpa using hx) hapart

/-- Fields written at places apart from each other are all read back. -/
theorem leNat_slice_foldl_putField {places : List (Nat × Nat)} {vals : List Nat} {acc : List Byte}
    (hv : List.Forall₂ (fun pw v => v < 256 ^ pw.2) places vals) (hp : ∀ pw ∈ places, pw.1 + pw.2 ≤ acc.length)
    (ha : places.Pairwise (fun x y => placesApart x y = true)) :
    places.map (fun pw => leNat (slice ((places.zip vals).foldl putField acc) pw.1 pw.2)) = vals := by
  induction hv generalizing acc with
  | nil => rfl
  | @cons pw v places vals hlt _ ih =>
    obtain ⟨hx, hrest⟩ := List.forall_mem_cons.mp hp
    obtain ⟨hax, harest⟩ := List.pairwise_cons.mp ha
    have hl : (putField acc (pw, v)).length = acc.length := putField_length hx
    have hfirst : slice ((places.zip vals).foldl putField (putField acc (pw, v))) pw.1 pw.2 = leBytes pw.2 v := by
      rw [slice_foldl_putField (fun x h => hl ▸ hrest _ (List.of_mem_zip h).1) (fun x h => hax _ (List.of_mem_zip h).1)]
      simpa [putField] using slice_splice_same (s := acc) (v := leBytes pw.2 v) (p := pw.1) (by simpa using hx)
    rw [List.zip_cons_cons, List.foldl_cons, List.map_cons, hfirst, leNat_leBytes_of_lt hlt, ih (by rwa [hl]) harest]

/-- The values of a field record fit the widths of its fields (30_encoding.md R92). -/
theorem values_lt (f : HdrFields U32) : List.Forall₂ (fun w v => v < 256 ^ w) f.command.fieldWidths f.values := by
  cases f <;> simp [HdrFields.command, Command.fieldWidths, HdrFields.values] <;> omega

/-- A field record is the one its values give. -/
theorem ofValues_values (f : HdrFields U32) : HdrFields.ofValues f.command f.values = f := by
  cases f <;> simp [HdrFields.command, HdrFields.values, HdrFields.ofValues]

/-- The row of a command, its name and what its well-formedness says (30_encoding.md R91, R92). -/
theorem exists_row {cfg : Config} (hw : cfg.WF) (n : Command) : ∃ r, cfg.row n = some r ∧ r.name = n ∧ r.wf = true := by
  obtain ⟨r, hr, rfl⟩ := List.mem_map.mp (hw.complete n (Laws.EncodeDecode.mem_all n))
  exact ⟨r, Laws.EncodeDecode.find?_of_nodup hw.names hr, rfl, hw.rows r hr⟩

/-- The fields of a command's header: one place for each, all inside the header, no two sharing a byte. -/
structure PlacesOk (n : Command) (hs : Nat) (places : List (Nat × Nat)) : Prop where
  widths : places.map Prod.snd = n.fieldWidths
  inside : ∀ pw ∈ places, pw.1 + pw.2 ≤ hs
  apart : places.Pairwise (fun x y => placesApart x y = true)

theorem fieldPlaces_ok {cfg : Config} (hw : cfg.WF) (n : Command) :
    PlacesOk n (cfg.hdrSize n) (cfg.fieldPlaces n) := by
  obtain ⟨r, hr, rfl, hwf⟩ := exists_row hw n
  have hplaces : cfg.fieldPlaces r.name = r.layout.zip r.name.fieldWidths := by
    simp [Config.fieldPlaces, Config.layout, hr]
  have hsize : cfg.hdrSize r.name = r.hdrSize := by simp [Config.hdrSize, hr]
  simp only [CmdRow.wf, Bool.and_eq_true, decide_eq_true_eq, List.all_eq_true] at hwf
  obtain ⟨⟨⟨-, hlen⟩, hin⟩, hap⟩ := hwf
  rw [hplaces, hsize]
  exact ⟨List.map_snd_zip hlen.ge, hin, hap⟩

theorem encodeHdr_length {cfg : Config} (hw : cfg.WF) (f : HdrFields U32) :
    (encodeHdr cfg f).length = cfg.hdrSize f.command := by
  rw [encodeHdr_eq, foldl_putField_length, List.length_replicate]
  intro x hx
  rw [List.length_replicate]
  exact (fieldPlaces_ok hw f.command).inside _ (List.of_mem_zip hx).1

/-- Every header field is read back from the header it was written to. -/
theorem decodeHdr_encodeHdr {cfg : Config} (hw : cfg.WF) (f : HdrFields U32) :
    decodeHdr cfg f.command (encodeHdr cfg f) = f := by
  obtain ⟨hwidths, hin, hap⟩ := fieldPlaces_ok hw f.command
  have hvals : List.Forall₂ (fun pw v => v < 256 ^ pw.2) (cfg.fieldPlaces f.command) f.values := by
    have h := values_lt f
    rwa [← hwidths, List.forall₂_map_left_iff] at h
  rw [decodeHdr, encodeHdr_eq, leNat_slice_foldl_putField hvals (by simpa using hin) hap, ofValues_values]

theorem decodeFields_encodeHdr {cfg : Config} (hw : cfg.WF) (f : HdrFields U32) :
    decodeFields cfg f.command (encodeHdr cfg f) = f.map (classify cfg) := by
  rw [decodeFields, decodeHdr_encodeHdr hw]

/-! ## Whole frames (30_encoding.md R84, R86, R94, R117) -/

theorem dispatch_cmdCode {cfg : Config} (hw : cfg.WF) (n : Command) : cfg.dispatch (cfg.cmdCode n) = some n :=
  Laws.EncodeDecode.dispatch_cmdCode hw (Laws.EncodeDecode.mem_all n)

/-- What a well-formed frame meets: a payload of the command's kind, within `PLD_MAX`, and a data phase the length field can
count (30_encoding.md R103). -/
theorem Frame.wf_iff {cfg : Config} (hw : cfg.WF) {fr : Frame} : fr.wf cfg = true ↔
    cfg.payloadOk fr.fields.command fr.payload.length = true ∧ fr.payload.length ≤ cfg.pldMax ∧
      cfg.hdrSize fr.fields.command + fr.payload.length ≤ 65535 := by
  obtain ⟨r, hr, -⟩ := exists_row hw fr.fields.command
  simp [Frame.wf, hr, and_assoc]

theorem Frame.data_length {cfg : Config} (hw : cfg.WF) (fr : Frame) :
    (fr.data cfg).length = cfg.hdrSize fr.fields.command + fr.payload.length := by
  rw [Frame.data, List.length_append, encodeHdr_length hw]

/-- The bytes of a frame, the four of its header apart. -/
theorem encodeFrame_eq (cfg : Config) (fr : Frame) : encodeFrame cfg fr =
    let t := cfg.cmdCode fr.fields.command
    let lo := BitVec.ofNat 8 (fr.data cfg).length
    let hi := BitVec.ofNat 8 ((fr.data cfg).length / 256)
    SOH :: t :: lo :: hi :: (fr.data cfg ++ LE16 (cfg.crcInbound [SOH, t, lo, hi] (fr.data cfg))) := rfl

/-- The length field of a frame the 16 bits can count. -/
theorem joinLE_toNat_of_le {len : Nat} (h : len ≤ 65535) :
    (joinLE (BitVec.ofNat 8 len) (BitVec.ofNat 8 (len / 256))).toNat = len := by
  rw [joinLE_ofNat, BitVec.toNat_ofNat, Nat.mod_eq_of_lt (by omega)]

/-- The reader passes every check on the bytes of a frame whose length field, payload and CRC are right. -/
theorem decodeFrame_of_fields {cfg : Config} {t lo hi : Byte} {n : Command} {hdr pld : List Byte}
    (hd : cfg.dispatch t = some n) (hlen : (joinLE lo hi).toNat = hdr.length + pld.length)
    (hhdr : hdr.length = cfg.hdrSize n) (hmax : pld.length ≤ cfg.pldMax) (hok : cfg.payloadOk n pld.length = true) :
    decodeFrame cfg (SOH :: t :: lo :: hi :: ((hdr ++ pld) ++ LE16 (cfg.crcInbound [SOH, t, lo, hi] (hdr ++ pld)))) =
      .ok ⟨decodeHdr cfg n hdr, pld⟩ := by
  have htake (v : List Byte) : ((hdr ++ pld) ++ v).take (hdr.length + pld.length) = hdr ++ pld :=
    List.take_left' (by simp)
  have hdrop (v : List Byte) : ((hdr ++ pld) ++ v).drop (hdr.length + pld.length) = v := List.drop_left' (by simp)
  have hrest (v : U16) : ((hdr ++ pld) ++ LE16 v).length = hdr.length + pld.length + 2 := by simp [Nat.add_assoc]
  simp only [decodeFrame, hlen, hd, ← hhdr, Nat.add_sub_cancel_left, hok, htake, hdrop, hrest, leNat_LE16]
  simp [hmax.not_gt]

/-- Settles O1: the length field counts the data phase, which splits at `HDR_SIZE` into the header's own bytes and the
payload. -/
theorem frameRoundTrip : Obligations.FrameRoundTrip := by
  unfold Obligations.FrameRoundTrip
  intro cfg fr hw hwf
  obtain ⟨hok, hmax, hcount⟩ := (Frame.wf_iff hw).mp hwf
  have hlen := joinLE_toNat_of_le (len := (fr.data cfg).length) (by rwa [Frame.data_length hw])
  rw [Frame.data, List.length_append] at hlen
  have h := decodeFrame_of_fields (dispatch_cmdCode hw _) hlen (encodeHdr_length hw _) hmax hok
  rw [decodeHdr_encodeHdr hw] at h
  rw [encodeFrame_eq, Frame.data, List.length_append]
  exact h

end Sys2Proof
end

section
/-! The partition-table response and its reader (30_encoding.md R98, R99). -/

namespace Sys2Proof

open Machine

/-! ## One entry -/

/-- The fields of an entry in the order of R98, extension bytes at the end (30_encoding.md R99). -/
theorem PartEntry.body_append (e : PartEntry) (ext : List Byte) : e.body ++ ext =
    LE32 e.startAddress ++ (LE32 e.size ++ (LE16 e.sectorSize ++
      (e.typ :: BitVec.ofNat 8 (e.name.length + 1) :: (e.name ++ 0 :: ext)))) := by
  simp [PartEntry.body]

theorem PartEntry.body_length (e : PartEntry) : e.body.length = 12 + (e.name.length + 1) := by
  simp only [PartEntry.body, List.length_append, LE32_length, LE16_length, List.length_cons, List.length_nil]
  omega

theorem PartEntry.encode_length (e : PartEntry) : e.encode.length = 2 + (12 + (e.name.length + 1)) := by
  simp [PartEntry.encode, PartEntry.body_length]

theorem PartEntry.name_length_le {e : PartEntry} (h : e.wf = true) : e.name.length ≤ 254 := by
  simp only [PartEntry.wf, Bool.and_eq_true, decide_eq_true_eq] at h
  exact h.1

/-- An entry's fields stand where the reader looks for them, whatever follows the terminator. -/
theorem PartEntry.ofBody_body_append {e : PartEntry} (h : e.wf = true) (ext : List Byte) :
    PartEntry.ofBody (e.body ++ ext) = e := by
  have hn := PartEntry.name_length_le h
  rw [PartEntry.body_append]
  generalize hb : LE32 e.startAddress ++ (LE32 e.size ++ (LE16 e.sectorSize ++
      (e.typ :: BitVec.ofNat 8 (e.name.length + 1) :: (e.name ++ 0 :: ext)))) = b
  have hstart : slice b 0 4 = LE32 e.startAddress := slice_eq_of_append (u := []) hb.symm rfl (by simp)
  have hsize : slice b 4 4 = LE32 e.size := slice_eq_of_append hb.symm (by simp) (by simp)
  have hsector : slice b 8 2 = LE16 e.sectorSize :=
    slice_eq_of_append (u := LE32 e.startAddress ++ LE32 e.size) (v := LE16 e.sectorSize)
      (by rw [← hb, List.append_assoc]) (by simp) (by simp)
  have htyp : b.getD 10 0 = e.typ := by simp [← hb, List.getD_eq_getElem?_getD, List.getElem?_append]
  have hlen : b.getD 11 0 = BitVec.ofNat 8 (e.name.length + 1) := by
    simp [← hb, List.getD_eq_getElem?_getD, List.getElem?_append]
  have hcount : (b.getD 11 0).toNat - 1 = e.name.length := by rw [hlen, BitVec.toNat_ofNat]; omega
  have hname : slice b 12 e.name.length = e.name :=
    slice_eq_of_append (u := LE32 e.startAddress ++ LE32 e.size ++ LE16 e.sectorSize ++
      [e.typ, BitVec.ofNat 8 (e.name.length + 1)]) (w := 0 :: ext) (by rw [← hb]; simp) (by simp) rfl
  rw [PartEntry.ofBody, hstart, hsize, hsector, htyp, hcount, hname]
  simp

/-! ## The table -/

/-- The reader takes the first entry and goes on behind it, by the length the entry begins with. -/
theorem readEntries_encode_append {e : PartEntry} (h : e.wf = true) (fuel : Nat) (rest : List Byte) :
    readEntries (fuel + 1) (e.encode ++ rest) = e :: readEntries fuel rest := by
  have hn := PartEntry.name_length_le h
  have hlen := e.body_length
  have hpre : (e.encode ++ rest).take 2 = leBytes 2 e.body.length := by
    rw [PartEntry.encode, List.append_assoc]
    exact List.take_left' (by simp)
  have hval : leNat (leBytes 2 e.body.length) = e.body.length := leNat_leBytes_of_lt (by omega)
  have hbody : slice (e.encode ++ rest) 2 e.body.length = e.body :=
    slice_eq_of_append (List.append_assoc ..) (by simp) rfl
  have hrest : (e.encode ++ rest).drop (2 + e.body.length) = rest := List.drop_left' (by simp [PartEntry.encode])
  have hentry : PartEntry.ofBody e.body = e := by simpa using PartEntry.ofBody_body_append h []
  have hlong : ¬ (e.encode ++ rest).length < 2 := by
    rw [List.length_append, PartEntry.encode_length]
    omega
  simp only [readEntries, if_neg hlong, hpre, hval, hbody, hrest, hentry]

theorem readEntries_flatMap_encode {pt : List PartEntry} (h : ∀ e ∈ pt, e.wf = true) {fuel : Nat}
    (hf : pt.length ≤ fuel) : readEntries fuel (pt.flatMap PartEntry.encode) = pt := by
  induction pt generalizing fuel with
  | nil => cases fuel <;> rfl
  | cons e pt ih =>
    obtain ⟨he, hpt⟩ := List.forall_mem_cons.mp h
    obtain ⟨fuel, rfl⟩ : ∃ k, fuel = k + 1 := ⟨fuel - 1, by simp at hf; omega⟩
    rw [List.flatMap_cons, readEntries_encode_append he, ih hpt (by simpa using hf)]

/-- No entry is empty. -/
theorem length_le_flatMap_encode (pt : List PartEntry) : pt.length ≤ (pt.flatMap PartEntry.encode).length := by
  induction pt with
  | nil => simp
  | cons e pt ih => simp only [List.flatMap_cons, List.length_append, List.length_cons, PartEntry.encode_length]; omega

theorem readTable_encodeTable {pt : List PartEntry} (h : ∀ e ∈ pt, e.wf = true)
    (hsize : (encodeTable pt).length ≤ 65535) : readTable (encodeTable pt) = pt := by
  simp only [encodeTable, List.length_append, leBytes_length] at hsize
  have hval : leNat (leBytes 2 (pt.flatMap PartEntry.encode).length) = (pt.flatMap PartEntry.encode).length :=
    leNat_leBytes_of_lt (by omega)
  have hcount := length_le_flatMap_encode pt
  simp only [readTable, encodeTable, List.take_left' (leBytes_length 2 _), hval]
  rw [slice_eq_of_append (w := []) (by rw [List.append_nil]) (leBytes_length 2 _) rfl]
  exact readEntries_flatMap_encode h (hcount.trans (by simp only [List.length_append]; omega))

/-- Settles O59: the entries one after the other, and one entry with what may follow its terminator. -/
theorem partitionTableRoundTrip : Obligations.PartitionTableRoundTrip := by
  unfold Obligations.PartitionTableRoundTrip
  exact fun pt h => ⟨readTable_encodeTable h, fun e he => ⟨e.encode_length, PartEntry.ofBody_body_append (h e he)⟩⟩

end Sys2Proof
end

section
/-! The CRC of a frame, taken in as its bytes come (40_crc.md R121-R125). -/

namespace Sys2Proof

theorem crc_append (poly seed : U16) (m₁ m₂ : List Byte) : crc poly seed (m₁ ++ m₂) = crc poly (crc poly seed m₁) m₂ :=
  List.foldl_append

/-- The CRC of a frame's own bytes up to the data phase, where it covers them (40_crc.md R124). -/
def Config.crcStart (cfg : Config) (frameHdr : List Byte) : U16 :=
  if cfg.crcCoversFrameHdr then cfg.crcOf frameHdr else cfg.crcSeed

theorem crcInbound_eq (cfg : Config) (frameHdr data : List Byte) :
    cfg.crcInbound frameHdr data = crc cfg.crcPoly (cfg.crcStart frameHdr) data := by
  unfold Config.crcInbound Config.crcStart Config.crcOf
  split
  · exact crc_append ..
  · rfl

end Sys2Proof
end

section
/-! A whole frame through the block: the stages of a command that is accepted, the bytes of each phase, and the run from an
idle state to `S_EXEC` (41_framing_fsm.md R143-R153). -/

namespace Sys2Proof.Machine

/-! ## Unassigned codes (30_encoding.md R102) -/

/-- A type byte with no dispatch entry: the abort `UNKNOWN_CMD` on the byte that completes the frame header. -/
theorem unknownByte_eq {b : Byte} {s : State} {c : Cmd} {lo : U16} {r : List Byte} (hc : s.cmd = some c)
    (hl : c.length = some lo) (hr : s.rxq = b :: r) : unknownByte b s = .next (s.nakked r) := by
  rw [unknownByte, need_eq hc, need_eq hl, raiseAbort_eq]
  simp [State.nakked, Abort.sent, State.sent, State.popRx, State.enter, hr]

/-- Settles O32: the byte that completes the frame header, and the abort it raises. -/
theorem unassignedCodeNaks : Obligations.UnassignedCodeNaks := by
  unfold Obligations.UnassignedCodeNaks
  intro s c t b lo r hk hc ht hl hd hr
  have hexec : exec (.unassigned t) s = unknownByte b s := by simp [exec, execUnassigned, hc, hk, ht, hd, hr]
  rw [hexec, unknownByte_eq hc hl hr]

/-! ## The stages of an accepted command (41_framing_fsm.md R147-R150) -/

/-- No command's `Data` refuses a payload (42_commands.md R191). -/
@[simp] theorem handlerOf_data (n : Command) (cfg : Config) (f : HdrFields Tagged) (pld : List Byte) :
    (handlerOf n).data cfg f pld = true := by
  cases n <;> rfl

/-- `Init` is the payload column of R92 (42_commands.md R190). -/
@[simp] theorem handlerOf_init (n : Command) (cfg : Config) (pl : Nat) :
    (handlerOf n).init cfg pl = cfg.payloadOk n pl := by
  cases n <;> rfl

section
variable {n : Command} {c : Cmd} {s : State} {f : HdrFields Tagged} {hdr pld : List Byte} {pl : Nat}

theorem afterPayload_eq (hf : c.f = some f) (hp : c.pld = some pld) :
    afterPayload (handlerOf n) c s = .next ((s.tx [ACK]).enter .crcLo (some c)) := by
  rw [afterPayload, need_eq hf, need_eq hp, handlerOf_data, if_pos rfl]

/-- `Header` passes: the payload is awaited, or where there is none it is acknowledged at once (41_framing_fsm.md R149). -/
theorem afterHeader_pass (hh : c.hdr = some hdr) (hpl : c.pl = some (pl : Int)) (hp : c.pld = some pld)
    (hok : (handlerOf n).header s.cfg (decodeFields s.cfg n hdr) pl = true) :
    afterHeader (handlerOf n) c s =
      let c' := { c with f := some (decodeFields s.cfg n hdr) }
      .next (if 0 < pl then s.enter .pld (some c') else (s.tx [ACK]).enter .crcLo (some c')) := by
  rw [afterHeader, need_eq hh, need_eq hpl]
  simp only [handlerOf_name, Int.toNat_natCast, hok, if_true, Int.natCast_pos]
  split
  · rfl
  · exact afterPayload_eq rfl hp

/-- The byte that completes the frame header of a known command, where the length leaves a payload of the command's kind
within `PLD_MAX`: the frame header is acknowledged (41_framing_fsm.md R146, R147). -/
theorem lenHiByte_pass {lo hi : Byte} (hl : c.length = some (lo.zeroExtend 16))
    (hlen : (joinLE lo hi).toNat = s.cfg.hdrSize n + pl) (hmax : pl ≤ s.cfg.pldMax) (hok : s.cfg.payloadOk n pl = true) :
    lenHiByte (handlerOf n) hi c s = headerAck (handlerOf n) (s.cfg.hdrSize n)
      { c with
        name := some n, length := some (joinLE lo hi), hs := some (s.cfg.hdrSize n), pl := some (pl : Int)
        crc := foldFrame s.cfg c.crc hi } s.popRx := by
  have hpl : ((joinLE lo hi).toNat : Int) - (s.cfg.hdrSize n : Int) = (pl : Int) := by omega
  rw [lenHiByte, need_eq hl, handlerOf_name]
  change checkLengthAndInit (handlerOf n) (joinLE lo hi) _ s.popRx = _
  simp only [checkLengthAndInit, handlerOf_name, State.popRx_cfg, hpl, Int.toNat_natCast, handlerOf_init, hok, if_true]
  rw [if_neg (by omega), if_neg (by omega)]
  rfl

/-- A header byte is kept and folded into the CRC; the last one is looked at by `Header` (41_framing_fsm.md R149). -/
theorem hdrByte_eq {h : Handler} {hs : Nat} (hh : c.hdr = some hdr) (hhs : c.hs = some hs) (b : Byte) :
    hdrByte h b c s =
      let c' := { c with hdr := some (hdr ++ [b]), crc := foldData s.cfg c.crc b }
      if hdr.length + 1 = hs then afterHeader h c' s.popRx else .next (s.popRx.enter .hdr (some c')) := by
  rw [hdrByte, need_eq hh, need_eq hhs]

/-- A payload byte is kept and folded into the CRC; the last one is acknowledged (41_framing_fsm.md R150). -/
theorem pldByte_eq (hf : c.f = some f) (hp : c.pld = some pld) (hpl : c.pl = some (pl : Int)) (b : Byte) :
    pldByte (handlerOf n) b c s =
      let c' := { c with pld := some (pld ++ [b]), crc := foldData s.cfg c.crc b }
      .next (if pld.length + 1 = pl then (s.popRx.tx [ACK]).enter .crcLo (some c')
        else s.popRx.enter .pld (some c')) := by
  rw [pldByte, need_eq hp, need_eq hpl]
  simp only [Int.natCast_inj]
  split
  · exact afterPayload_eq hf rfl
  · rfl

/-- The high CRC byte, where the CRC is the block's own: `Exec` is queued (41_framing_fsm.md R153). -/
theorem crcHiByte_match {lo hi : Byte} (hlo : c.rcrcLo = some lo) (hf : c.f = some f) (hp : c.pld = some pld)
    (hcrc : joinLE lo hi = c.crc) : crcHiByte (handlerOf n) hi c s =
      .next ((s.popRx.tx [ACK]).enter .exec (some { c with xq := some ((handlerOf n).program s.cfg f pld) })) := by
  rw [crcHiByte, need_eq hlo, need_eq hf, need_eq hp, if_pos (by simp [crcMatches, hcrc])]

end

/-! ## Runs of steps -/

theorem stepTimes_succ {s t : State} (h : step s = .next t) (k : Nat) : stepTimes (k + 1) s = stepTimes k t := by
  rw [stepTimes, h]

theorem stepTimes_add {j : Nat} {s t : State} (h : stepTimes j s = .next t) (k : Nat) :
    stepTimes (j + k) s = stepTimes k t := by
  induction j generalizing s with
  | zero => cases h; rw [Nat.zero_add]
  | succ j ih =>
    rw [stepTimes] at h
    split at h
    · rename_i u hu
      rw [Nat.add_right_comm, stepTimes_succ hu, ih h]
    all_goals cases h

/-- A wait that collects the bytes `whole` one a step, and is skipped where `whole` is empty. -/
theorem stepTimes_collect {wait : List Byte → List Byte → State} {done : List Byte → State} {whole : List Byte}
    (hstep : ∀ pre b r, pre.length + 1 ≠ whole.length → step (wait pre (b :: r)) = .next (wait (pre ++ [b]) r))
    (hlast : ∀ pre b r, pre ++ [b] = whole → step (wait pre (b :: r)) = .next (done r)) (r : List Byte) :
    stepTimes whole.length (if 0 < whole.length then wait [] (whole ++ r) else done r) = .next (done r) := by
  have collect (rest pre : List Byte) (hne : rest ≠ []) (hw : pre ++ rest = whole) :
      stepTimes rest.length (wait pre (rest ++ r)) = .next (done r) := by
    induction rest generalizing pre with
    | nil => exact absurd rfl hne
    | cons b rest ih =>
      cases rest with
      | nil => exact stepTimes_succ (hlast pre b r hw) 0
      | cons b' rest =>
        have hlen : pre.length + 1 ≠ whole.length := by simp [← hw]
        rw [List.length_cons, List.cons_append, stepTimes_succ (hstep pre b _ hlen)]
        exact ih (pre ++ [b]) (List.cons_ne_nil _ _) (by simpa using hw)
  split
  · rename_i hpos
    exact collect whole [] (List.ne_nil_of_length_pos hpos) rfl
  · rename_i hnil
    rw [Nat.eq_zero_of_not_pos hnil]
    rfl

/-- With nothing pending in the environment, a step takes the waiting byte (41_framing_fsm.md R140). -/
theorem step_byte {s : State} {b : Byte} {r : List Byte} (he : s.env = []) (hr : s.rxq = b :: r) (hx : s.ctl ≠ .exec)
    (hj : s.ctl ≠ .jumped) : step s = onByte b s := by
  simp only [step, nextStep, he]
  exact engineStep_byte hr hx hj

/-! ## The block inside a frame -/

/-- The block of `s` inside a command: at control state `k` with record `c`, the bytes `r` waiting and `acks` sent since. -/
def State.receiving (s : State) (k : Ctl) (c : Cmd) (r acks : List Byte) : State :=
  { s with ctl := k, cmd := some c, rxq := r, txl := s.txl ++ s.sent acks }

/-- The record `c` with the data phase so far: header bytes, payload bytes, the fields once `Header` has passed, and the CRC
begun with `c.crc` (40_crc.md R123). -/
def Cmd.received (c : Cmd) (cfg : Config) (hdr pld : List Byte) (f : Option (HdrFields Tagged)) : Cmd :=
  { c with hdr := some hdr, pld := some pld, f := f, crc := Sys2Proof.crc cfg.crcPoly c.crc (hdr ++ pld) }

section
variable (s : State) (k k' : Ctl) (c c' : Cmd) (b : Byte) (r a bs : List Byte)

@[simp] theorem State.receiving_cfg : (s.receiving k c r a).cfg = s.cfg := rfl
@[simp] theorem State.receiving_popRx : (s.receiving k c (b :: r) a).popRx = s.receiving k c r a := rfl
@[simp] theorem State.receiving_enter : (s.receiving k c r a).enter k' (some c') = s.receiving k' c' r a := rfl
@[simp] theorem State.receiving_tx : (s.receiving k c r a).tx bs = s.receiving k c r (a ++ bs) := by
  simp [State.receiving, State.tx, State.sent]

end

theorem foldFrame_crcStart (cfg : Config) (frameHdr : List Byte) (b : Byte) :
    foldFrame cfg (cfg.crcStart frameHdr) b = cfg.crcStart (frameHdr ++ [b]) := by
  unfold foldFrame Config.crcStart Config.crcOf
  split
  · exact (crc_append _ _ _ [b]).symm
  · rfl

theorem foldData_crc (cfg : Config) (seed : U16) (m : List Byte) (b : Byte) :
    foldData cfg (crc cfg.crcPoly seed m) b = crc cfg.crcPoly seed (m ++ [b]) := (crc_append _ _ _ [b]).symm

/-- Where the CRC does not cover the frame header, it begins with the data phase (41_framing_fsm.md R148). -/
theorem ite_crcStart (cfg : Config) (frameHdr : List Byte) :
    (if cfg.crcCoversFrameHdr then cfg.crcStart frameHdr else cfg.crcSeed) = cfg.crcStart frameHdr := by
  unfold Config.crcStart
  split <;> rfl

/-- One more header byte. -/
theorem Cmd.received_hdr (c : Cmd) (cfg : Config) (hdr : List Byte) (b : Byte) :
    { c.received cfg hdr [] none with
      hdr := some (hdr ++ [b]), crc := foldData cfg (c.received cfg hdr [] none).crc b } =
      c.received cfg (hdr ++ [b]) [] none := by
  simp [Cmd.received, foldData_crc]

/-- One more payload byte. -/
theorem Cmd.received_pld (c : Cmd) (cfg : Config) (hdr pld : List Byte) (f : Option (HdrFields Tagged)) (b : Byte) :
    { c.received cfg hdr pld f with pld := some (pld ++ [b]), crc := foldData cfg (c.received cfg hdr pld f).crc b } =
      c.received cfg hdr (pld ++ [b]) f := by
  simp [Cmd.received, foldData_crc]

/-- The header acknowledgement: the data phase begins with no byte of it received (41_framing_fsm.md R148). -/
theorem headerAck_eq {h : Handler} {c : Cmd} {s : State} {frameHdr : List Byte} (hf : c.f = none)
    (hcrc : c.crc = s.cfg.crcStart frameHdr) (hs : Nat) : headerAck h hs c s =
      if 0 < hs then .next ((s.tx [ACK]).enter .hdr (some (c.received s.cfg [] [] none)))
      else afterHeader h (c.received s.cfg [] [] none) (s.tx [ACK]) := by
  have hc : { c with
      crc := if s.cfg.crcCoversFrameHdr then c.crc else s.cfg.crcSeed, hdr := some [], pld := some [] } =
      c.received s.cfg [] [] none := by
    rw [hcrc, ite_crcStart, ← hcrc, ← hf]
    rfl
  rw [headerAck, hc]

section
variable {s : State} {n : Command} {c : Cmd} {f : HdrFields Tagged} {hdr pld r a : List Byte} {pl : Nat} {b : Byte}

/-- From the lookup on, a byte goes to the command the record names. -/
theorem step_named (he : s.env = []) (hn : c.name = some n) {k : Ctl} (hk : k ∈ [Ctl.hdr, .pld, .crcLo, .crcHi]) :
    step (s.receiving k c (b :: r) a) = commandByte (handlerOf n) b c (s.receiving k c (b :: r) a) := by
  simp only [List.mem_cons, List.not_mem_nil, or_false] at hk
  have hx : k ≠ .exec ∧ k ≠ .jumped := by rcases hk with rfl | rfl | rfl | rfl <;> simp
  rw [step_byte (s := s.receiving k c (b :: r) a) he rfl hx.1 hx.2]
  rcases hk with rfl | rfl | rfl | rfl <;> simp [onByte, namedByte, State.receiving, hn]

/-! ## The frame header (41_framing_fsm.md R143-R148) -/

/-- The record once the type and the low length byte are in. -/
def lenHiCmd (cfg : Config) (t lo : Byte) : Cmd :=
  { typ := some t, length := some (lo.zeroExtend 16), crc := cfg.crcStart [SOH, t, lo] }

/-- The record of command `n` once its frame header is accepted. -/
def acceptedCmd (cfg : Config) (n : Command) (pl : Nat) (t lo hi : Byte) : Cmd :=
  { typ := some t, name := some n, length := some (joinLE lo hi), hs := some (cfg.hdrSize n), pl := some (pl : Int)
    crc := cfg.crcStart [SOH, t, lo, hi] }

theorem acceptedCmd_eq (cfg : Config) (n : Command) (pl : Nat) (t lo hi : Byte) :
    { lenHiCmd cfg t lo with
      name := some n, length := some (joinLE lo hi), hs := some (cfg.hdrSize n), pl := some (pl : Int)
      crc := foldFrame cfg (lenHiCmd cfg t lo).crc hi } = acceptedCmd cfg n pl t lo hi := by
  simp [lenHiCmd, acceptedCmd, foldFrame_crcStart]

theorem freshCmd_eq (cfg : Config) : freshCmd cfg = { crc := cfg.crcStart [SOH] } := rfl

/-- The first three bytes, from an idle state. -/
theorem stepTimes_lenHi {t lo : Byte} (he : s.env = []) (hk : s.ctl = .announce ∨ s.ctl = .waitSoh)
    (hr : s.rxq = SOH :: t :: lo :: r) : stepTimes 3 s = .next (s.receiving .lenHi (lenHiCmd s.cfg t lo) r []) := by
  have hsoh : step s = .next (s.receiving .typ (freshCmd s.cfg) (t :: lo :: r) []) := by
    rw [step_byte he hr (by rcases hk with hk | hk <;> simp [hk]) (by rcases hk with hk | hk <;> simp [hk])]
    have hidle : onByte SOH s = idleByte SOH s := by rcases hk with hk | hk <;> simp [onByte, hk]
    rw [hidle, idleByte, if_pos rfl, startCommand_eq]
    simp [State.receiving, State.popRx, State.sent, hr]
  have htyp (c : Cmd) : step (s.receiving .typ c (t :: lo :: r) []) =
      .next (s.receiving .lenLo { c with typ := some t, crc := foldFrame s.cfg c.crc t } (lo :: r) []) :=
    step_byte (s := s.receiving .typ c (t :: lo :: r) []) he rfl nofun nofun
  have hlo (c : Cmd) : step (s.receiving .lenLo c (lo :: r) []) = .next (s.receiving .lenHi
      { c with length := some (lo.zeroExtend 16), crc := foldFrame s.cfg c.crc lo } r []) :=
    step_byte (s := s.receiving .lenLo c (lo :: r) []) he rfl nofun nofun
  rw [stepTimes_succ hsoh, stepTimes_succ (htyp _), stepTimes_succ (hlo _)]
  simp only [freshCmd_eq, foldFrame_crcStart]
  rfl

/-- Where the block stands once `Header` has passed: at the payload, or past it where there is none. -/
def State.headed (s : State) (c : Cmd) (pl : Nat) (r : List Byte) : State :=
  if 0 < pl then s.receiving .pld c r [ACK] else s.receiving .crcLo c r [ACK, ACK]

theorem afterHeader_receiving {k : Ctl} {c₀ : Cmd} (hpl : c.pl = some (pl : Int))
    (hok : (handlerOf n).header s.cfg (decodeFields s.cfg n hdr) pl = true) :
    afterHeader (handlerOf n) (c.received s.cfg hdr [] none) (s.receiving k c₀ r [ACK]) =
      .next (s.headed (c.received s.cfg hdr [] (some (decodeFields s.cfg n hdr))) pl r) := by
  rw [afterHeader_pass (s := s.receiving k c₀ r [ACK]) (c := c.received s.cfg hdr [] none) rfl hpl rfl hok]
  simp only [State.headed, State.receiving_cfg, State.receiving_enter, State.receiving_tx]
  rfl

/-- The byte that completes the frame header of an accepted command: on to the header, or past it where it is empty. -/
theorem step_lenHi {t lo hi : Byte} (he : s.env = []) (hd : s.cfg.dispatch t = some n)
    (hlen : (joinLE lo hi).toNat = s.cfg.hdrSize n + pl) (hmax : pl ≤ s.cfg.pldMax) (hok : s.cfg.payloadOk n pl = true)
    (hhdr : hdr.length = s.cfg.hdrSize n)
    (hh : (handlerOf n).header s.cfg (decodeFields s.cfg n hdr) pl = true) :
    let c := acceptedCmd s.cfg n pl t lo hi
    step (s.receiving .lenHi (lenHiCmd s.cfg t lo) (hi :: (hdr ++ r)) []) = .next
      (if 0 < hdr.length then s.receiving .hdr (c.received s.cfg [] [] none) (hdr ++ r) [ACK]
      else s.headed (c.received s.cfg hdr [] (some (decodeFields s.cfg n hdr))) pl r) := by
  intro c
  have hbyte : step (s.receiving .lenHi (lenHiCmd s.cfg t lo) (hi :: (hdr ++ r)) []) =
      lenHiByte (handlerOf n) hi (lenHiCmd s.cfg t lo) (s.receiving .lenHi (lenHiCmd s.cfg t lo) (hi :: (hdr ++ r)) []) := by
    rw [step_byte (s := s.receiving .lenHi _ (hi :: (hdr ++ r)) []) he rfl nofun nofun]
    simp [onByte, lookupByte, State.receiving, lenHiCmd, hd, commandByte]
  rw [hbyte, lenHiByte_pass (s := s.receiving .lenHi (lenHiCmd s.cfg t lo) (hi :: (hdr ++ r)) []) rfl hlen hmax hok]
  simp only [State.receiving_cfg, State.receiving_popRx, acceptedCmd_eq]
  rw [headerAck_eq (frameHdr := [SOH, t, lo, hi]) rfl rfl, State.receiving_cfg, State.receiving_tx, List.nil_append, hhdr]
  split
  · rfl
  · rename_i hz
    obtain rfl : hdr = [] := List.eq_nil_of_length_eq_zero (by omega)
    exact afterHeader_receiving (c := acceptedCmd s.cfg n pl t lo hi) rfl hh

/-! ## The data phase (41_framing_fsm.md R149, R150) -/

/-- The header bytes, up to `Header`. -/
theorem stepTimes_header (he : s.env = []) (hn : c.name = some n) (hhs : c.hs = some hdr.length)
    (hpl : c.pl = some (pl : Int)) (hh : (handlerOf n).header s.cfg (decodeFields s.cfg n hdr) pl = true) :
    let u := s.headed (c.received s.cfg hdr [] (some (decodeFields s.cfg n hdr))) pl r
    stepTimes hdr.length (if 0 < hdr.length then s.receiving .hdr (c.received s.cfg [] [] none) (hdr ++ r) [ACK] else u) =
      .next u := by
  have hbyte (pre : List Byte) (b : Byte) (r : List Byte) :
      step (s.receiving .hdr (c.received s.cfg pre [] none) (b :: r) [ACK]) =
        if pre.length + 1 = hdr.length then
          afterHeader (handlerOf n) (c.received s.cfg (pre ++ [b]) [] none)
            (s.receiving .hdr (c.received s.cfg pre [] none) r [ACK])
        else .next (s.receiving .hdr (c.received s.cfg (pre ++ [b]) [] none) r [ACK]) := by
    rw [step_named (c := c.received s.cfg pre [] none) he hn (by simp)]
    refine (hdrByte_eq (c := c.received s.cfg pre [] none) rfl hhs b).trans ?_
    simp only [State.receiving_cfg, State.receiving_popRx, State.receiving_enter, Cmd.received_hdr]
  refine stepTimes_collect (wait := fun pre r => s.receiving .hdr (c.received s.cfg pre [] none) r [ACK])
    (done := fun r => s.headed (c.received s.cfg hdr [] (some (decodeFields s.cfg n hdr))) pl r) ?_ ?_ r
  · intro pre b r hlen
    rw [hbyte, if_neg hlen]
  · intro pre b r hlast
    rw [hbyte, hlast, if_pos (by simp [← hlast]), afterHeader_receiving hpl hh]

/-- The payload bytes, up to their acknowledgement. -/
theorem stepTimes_payload (he : s.env = []) (hn : c.name = some n) (hpl : c.pl = some (pld.length : Int)) :
    stepTimes pld.length (s.headed (c.received s.cfg hdr [] (some f)) pld.length (pld ++ r)) =
      .next (s.receiving .crcLo (c.received s.cfg hdr pld (some f)) r [ACK, ACK]) := by
  have hbyte (pre : List Byte) (b : Byte) (r : List Byte) :
      step (s.receiving .pld (c.received s.cfg hdr pre (some f)) (b :: r) [ACK]) =
        .next (if pre.length + 1 = pld.length then
            s.receiving .crcLo (c.received s.cfg hdr (pre ++ [b]) (some f)) r [ACK, ACK]
          else s.receiving .pld (c.received s.cfg hdr (pre ++ [b]) (some f)) r [ACK]) := by
    rw [step_named (c := c.received s.cfg hdr pre (some f)) he hn (by simp)]
    refine (pldByte_eq (c := c.received s.cfg hdr pre (some f)) rfl rfl hpl b).trans ?_
    simp only [State.receiving_cfg, State.receiving_popRx, State.receiving_tx, State.receiving_enter, Cmd.received_pld]
    rfl
  have hcollect := stepTimes_collect (whole := pld)
    (wait := fun pre r => s.receiving .pld (c.received s.cfg hdr pre (some f)) r [ACK])
    (done := fun r => s.receiving .crcLo (c.received s.cfg hdr pld (some f)) r [ACK, ACK])
    (fun pre b r hlen => by rw [hbyte, if_neg hlen])
    (fun pre b r hlast => by rw [hbyte, hlast, if_pos (by simp [← hlast])]) r
  rw [← hcollect, State.headed]
  congr 1
  split
  · rfl
  · rename_i hz
    obtain rfl : pld = [] := List.eq_nil_of_length_eq_zero (by omega)
    rfl

/-! ## The CRC (41_framing_fsm.md R152, R153) -/

/-- The two CRC bytes, where they are the CRC of the record: `Exec` starts. -/
theorem stepTimes_crc {crc : U16} (he : s.env = []) (hn : c.name = some n) (hf : c.f = some f) (hp : c.pld = some pld)
    (hcrc : c.crc = crc) : stepTimes 2 (s.receiving .crcLo c (LE16 crc ++ r) a) =
      .next (s.receiving .exec { c with
        rcrcLo := some (BitVec.ofNat 8 crc.toNat), xq := some ((handlerOf n).program s.cfg f pld) } r (a ++ [ACK])) := by
  have hbytes : LE16 crc ++ r = BitVec.ofNat 8 crc.toNat :: BitVec.ofNat 8 (crc.toNat / 256) :: r := rfl
  have hjoin : joinLE (BitVec.ofNat 8 crc.toNat) (BitVec.ofNat 8 (crc.toNat / 256)) = crc := by
    rw [joinLE_ofNat, BitVec.ofNat_toNat, BitVec.setWidth_eq]
  have hlo (b : Byte) (r : List Byte) : step (s.receiving .crcLo c (b :: r) a) =
      .next (s.receiving .crcHi { c with rcrcLo := some b } r a) := step_named he hn (by simp)
  have hhi (lo hi : Byte) (h : joinLE lo hi = crc) :
      step (s.receiving .crcHi { c with rcrcLo := some lo } (hi :: r) a) = .next (s.receiving .exec
        { c with rcrcLo := some lo, xq := some ((handlerOf n).program s.cfg f pld) } r (a ++ [ACK])) := by
    rw [step_named (c := { c with rcrcLo := some lo }) he hn (by simp)]
    refine (crcHiByte_match (c := { c with rcrcLo := some lo }) rfl hf hp (h.trans hcrc.symm)).trans ?_
    simp only [State.receiving_cfg, State.receiving_popRx, State.receiving_tx, State.receiving_enter]
  rw [hbytes, stepTimes_succ (hlo _ _), stepTimes_succ (hhi _ _ hjoin)]
  rfl

/-! ## The whole frame -/

/-- The bytes of an accepted frame, phase by phase. -/
theorem stepTimes_frame {t lo hi : Byte} {crc : U16} (he : s.env = []) (hk : s.ctl = .announce ∨ s.ctl = .waitSoh)
    (hr : s.rxq = SOH :: t :: lo :: hi :: (hdr ++ (pld ++ (LE16 crc ++ r)))) (hd : s.cfg.dispatch t = some n)
    (hhs : hdr.length = s.cfg.hdrSize n) (hlen : (joinLE lo hi).toNat = s.cfg.hdrSize n + pld.length)
    (hmax : pld.length ≤ s.cfg.pldMax) (hok : s.cfg.payloadOk n pld.length = true)
    (hf : decodeFields s.cfg n hdr = f) (hh : (handlerOf n).header s.cfg f pld.length = true)
    (hcrc : s.cfg.crcInbound [SOH, t, lo, hi] (hdr ++ pld) = crc) :
    stepTimes (3 + (hdr.length + (pld.length + 2) + 1)) s = .next (s.receiving .exec
      { (acceptedCmd s.cfg n pld.length t lo hi).received s.cfg hdr pld (some f) with
        rcrcLo := some (BitVec.ofNat 8 crc.toNat), xq := some ((handlerOf n).program s.cfg f pld) }
      r [ACK, ACK, ACK]) := by
  subst hf
  rw [crcInbound_eq] at hcrc
  rw [stepTimes_add (stepTimes_lenHi he hk hr), stepTimes_succ (step_lenHi he hd hlen hmax hok hhs hh),
    stepTimes_add (stepTimes_header he rfl (congrArg some hhs.symm) rfl hh), stepTimes_add (stepTimes_payload he rfl rfl)]
  exact stepTimes_crc he rfl rfl rfl hcrc

end

theorem encodeFrame_length (cfg : Config) (fr : Frame) :
    (encodeFrame cfg fr).length = 3 + ((encodeHdr cfg fr.fields).length + (fr.payload.length + 2) + 1) := by
  simp only [encodeFrame_eq, Frame.data, List.length_cons, List.length_append, LE16_length]
  omega

/-- Settles O25: the frame's own length field, fields and CRC are the ones its bytes are checked against. -/
theorem frameReachesExec : Obligations.FrameReachesExec := by
  unfold Obligations.FrameReachesExec
  intro s fr r hw hwf he hk hr hh
  obtain ⟨hok, hmax, hcount⟩ := (Frame.wf_iff hw).mp hwf
  have hdata := fr.data_length hw
  have hlen := joinLE_toNat_of_le (len := (fr.data s.cfg).length) (by rwa [hdata])
  have hrun := stepTimes_frame (pld := fr.payload) (r := r) he hk
    (by rw [hr, encodeFrame_eq, Frame.data]; simp) (dispatch_cmdCode hw _) (encodeHdr_length hw fr.fields)
    (hlen.trans hdata) hmax hok (decodeFields_encodeHdr hw _) hh rfl
  rw [← encodeFrame_length] at hrun
  exact ⟨_, _, hrun, ⟨rfl, rfl, rfl, rfl, rfl⟩, rfl, rfl, rfl⟩

end Sys2Proof.Machine
end

section
/-! The CRC step: linear, so that a table can hold it (40_crc.md R122), and injective for a generator with its constant term, so
that one changed byte changes the CRC (40_crc.md R121). -/

namespace Sys2Proof

section
variable (poly : U16)

/-! ## The step is linear (40_crc.md R121) -/

theorem crcShift_of_clear {c : U16} (hc : c.getLsbD 15 = false) : crcShift poly c = c <<< 1 := by
  rw [crcShift, hc]
  rfl

theorem crcShift_of_set {c : U16} (hc : c.getLsbD 15 = true) : crcShift poly c = (c <<< 1) ^^^ poly := by
  rw [crcShift, hc]
  rfl

theorem crcShift_xor (c d : U16) : crcShift poly (c ^^^ d) = crcShift poly c ^^^ crcShift poly d := by
  unfold crcShift
  rw [BitVec.getLsbD_xor, BitVec.shiftLeft_xor_distrib]
  cases c.getLsbD 15 <;> cases d.getLsbD 15
  case false.false => rfl
  case false.true => exact BitVec.xor_assoc ..
  case true.false =>
    have hmove : (c <<< 1 ^^^ d <<< 1) ^^^ poly = (c <<< 1 ^^^ poly) ^^^ d <<< 1 := by ac_rfl
    exact hmove
  case true.true =>
    have hcancel : (c <<< 1 ^^^ poly) ^^^ (d <<< 1 ^^^ poly) = (c <<< 1 ^^^ d <<< 1) ^^^ (poly ^^^ poly) := by ac_rfl
    simp [hcancel]

theorem crcShifts_xor (k : Nat) (c d : U16) :
    crcShifts poly k (c ^^^ d) = crcShifts poly k c ^^^ crcShifts poly k d := by
  induction k generalizing c d with
  | zero => rfl
  | succ k ih => simp only [crcShifts, crcShift_xor, ih]

/-- Where the `k` bits shifted out are all zero, the generator never enters. -/
theorem crcShifts_of_high_clear {k : Nat} {c : U16} (hk : k ≤ 16) (hc : ∀ i, 16 - k ≤ i → c.getLsbD i = false) :
    crcShifts poly k c = c <<< k := by
  induction k generalizing c with
  | zero => exact (BitVec.shiftLeft_zero c).symm
  | succ k ih =>
    have hnext (i : Nat) (hi : 16 - k ≤ i) : (c <<< 1).getLsbD i = false := by
      simp [BitVec.getLsbD_shiftLeft, hc (i - 1) (by omega)]
    rw [crcShifts, crcShift_of_clear poly (hc 15 (by omega)), ih (by omega) hnext, ← BitVec.shiftLeft_add, Nat.add_comm]

/-- The parts of a CRC and of a byte can be stepped apart and their results XORed: the table form rests on this. -/
theorem crcUpdate_xor (c d : U16) (a b : Byte) :
    crcUpdate poly (c ^^^ d) (a ^^^ b) = crcUpdate poly c a ^^^ crcUpdate poly d b := by
  unfold crcUpdate
  rw [← crcShifts_xor, BitVec.zeroExtend_eq_setWidth, BitVec.setWidth_xor, BitVec.shiftLeft_xor_distrib]
  exact congrArg (crcShifts poly 8) (by ac_rfl)

/-! ## The table (40_crc.md R122) -/

theorem low_xor_high (c : U16) :
    (c.truncate 8).zeroExtend 16 ^^^ ((c >>> 8).truncate 8).zeroExtend 16 <<< 8 = c := by
  ext i hi
  by_cases h : i < 8
  · simp [h, BitVec.getLsbD_eq_getElem hi]
  · have hback : 8 + (i - 8) = i := by omega
    have hlt : i - 8 < 8 := by omega
    simp [h, hback, hlt, BitVec.getLsbD_eq_getElem hi]

/-- The low byte of the CRC is only moved up. -/
theorem crcUpdate_low (c : U16) : crcUpdate poly ((c.truncate 8).zeroExtend 16) 0 = c <<< 8 := by
  have harg : (c.truncate 8).zeroExtend 16 ^^^ (0 : Byte).zeroExtend 16 <<< 8 = (c.truncate 8).zeroExtend 16 := by simp
  rw [crcUpdate, harg, crcShifts_of_high_clear poly (by omega) fun i hi => by simp; omega]
  ext i hi
  have hlow : i - 8 < 8 := by omega
  have hwide : i - 8 < 16 := by omega
  simp [hlow, hwide]

/-- The high byte of the CRC and the byte of the message select the table's entry. -/
theorem crcUpdate_high (high b : Byte) : crcUpdate poly (high.zeroExtend 16 <<< 8) b = crcTable poly (high ^^^ b) := by
  simp [crcTable, crcUpdate, BitVec.setWidth_xor, BitVec.shiftLeft_xor_distrib]

theorem crcUpdateByTable_eq_crcUpdate (c : U16) (b : Byte) : crcUpdateByTable poly c b = crcUpdate poly c b := by
  calc crcUpdateByTable poly c b
    _ = crcUpdate poly ((c.truncate 8).zeroExtend 16) 0 ^^^
          crcUpdate poly (((c >>> 8).truncate 8).zeroExtend 16 <<< 8) b := by
        rw [crcUpdate_low, crcUpdate_high, crcUpdateByTable]
    _ = crcUpdate poly c b := by simp [← crcUpdate_xor, low_xor_high]

end

/-- Settles O5: the step is linear, and the table holds it for the high byte. -/
theorem crcTableForm : Obligations.CrcTableForm := by
  unfold Obligations.CrcTableForm
  exact ⟨crcUpdateByTable_eq_crcUpdate, by decide, by decide⟩

/-! ## The check values (40_crc.md R132) -/

/-- Settles O6, by running the model on the four messages. -/
theorem crcCheckValues : Obligations.CrcCheckValues := by
  unfold Obligations.CrcCheckValues
  decide +kernel

/-! ## The step is injective (40_crc.md R121) -/

section
variable {poly : U16}

/-- The bit shifted out comes back as the generator's constant term. -/
theorem crcShift_getLsbD_zero (hp : poly.getLsbD 0 = true) (c : U16) : (crcShift poly c).getLsbD 0 = c.getLsbD 15 := by
  cases hc : c.getLsbD 15 with
  | false => simp [crcShift_of_clear poly hc]
  | true => rw [crcShift_of_set poly hc, BitVec.getLsbD_xor, hp]; simp

theorem shiftLeft_one_inj {c d : U16} (htop : c.getLsbD 15 = d.getLsbD 15) (h : c <<< 1 = d <<< 1) : c = d := by
  ext i hi
  by_cases hi15 : i = 15
  · subst hi15
    simpa using htop
  · have hbit := congrArg (BitVec.getLsbD · (i + 1)) h
    have hlt : i + 1 < 16 := by omega
    simpa [hlt] using hbit

theorem crcShift_injective (hp : poly.getLsbD 0 = true) : Function.Injective (crcShift poly) := by
  intro c d h
  have htop : c.getLsbD 15 = d.getLsbD 15 := by rw [← crcShift_getLsbD_zero hp, h, crcShift_getLsbD_zero hp]
  refine shiftLeft_one_inj htop ?_
  cases hc : c.getLsbD 15 with
  | false => rwa [crcShift_of_clear poly hc, crcShift_of_clear poly (htop ▸ hc)] at h
  | true => rwa [crcShift_of_set poly hc, crcShift_of_set poly (htop ▸ hc), BitVec.xor_left_inj] at h

theorem crcShifts_injective (hp : poly.getLsbD 0 = true) (k : Nat) : Function.Injective (crcShifts poly k) := by
  induction k with
  | zero => exact Function.injective_id
  | succ k ih => exact ih.comp (crcShift_injective hp)

theorem crcUpdate_left_injective (hp : poly.getLsbD 0 = true) (b : Byte) :
    Function.Injective fun c => crcUpdate poly c b :=
  fun _ _ h => (BitVec.xor_left_inj _).mp (crcShifts_injective hp 8 h)

/-- A byte moved to the high half of a 16-bit value is still all there. -/
theorem highByte_injective : Function.Injective fun b : Byte => b.zeroExtend 16 <<< 8 := by
  intro b b' h
  refine BitVec.eq_of_getLsbD_eq fun i hi => ?_
  have hbit := congrArg (BitVec.getLsbD · (i + 8)) h
  have hhigh : i + 8 < 16 := by omega
  have hwide : i < 16 := by omega
  simpa [hhigh, hwide] using hbit

theorem crcUpdate_right_injective (hp : poly.getLsbD 0 = true) (c : U16) : Function.Injective (crcUpdate poly c) :=
  fun _ _ h => highByte_injective ((BitVec.xor_right_inj c).mp (crcShifts_injective hp 8 h))

theorem crc_seed_injective (hp : poly.getLsbD 0 = true) (m : List Byte) :
    Function.Injective fun seed => crc poly seed m := by
  induction m with
  | nil => exact Function.injective_id
  | cons b m ih => exact ih.comp (crcUpdate_left_injective hp b)

end

/-- Settles O7: the byte that differs makes the CRCs differ, and the bytes after it keep them apart. -/
theorem crcDetectsOneByteChange : Obligations.CrcDetectsOneByteChange := by
  unfold Obligations.CrcDetectsOneByteChange
  intro poly seed m₁ m₂ b b' hp hb h
  rw [crc_append, crc_append] at h
  exact hb (crcUpdate_right_injective hp _ (crc_seed_injective hp m₂ h))

end Sys2Proof
end

section
/-! What a step is: the environment's event at the head of its queue, else the instruction that the control state and the bytes
waiting select (41_framing_fsm.md R140-R146, R161; 30_encoding.md R81, R91, R102). -/

namespace Sys2Proof.Machine

/-! ## The environment's events (41_framing_fsm.md R140, R142, R143) -/

theorem step_of_env_nil {s : State} (he : s.env = []) : step s = engineStep s := by simp [step, nextStep, he]

/-- A pending event is taken off the queue and occurs. -/
theorem step_of_env_cons {s : State} {e : EnvEvent} {es : List EnvEvent} (he : s.env = e :: es) :
    step s = envStep e (s.setEnv es) := by simp [step, nextStep, he]

/-- In `S_JUMPED` the engine has no event of its own, and every other event but RESET leaves it there; the host's bytes join
`RXQ` (41_framing_fsm.md R161). -/
theorem step_jumped {s : State} (hk : s.ctl = .jumped) (hr : s.resetNext = false) :
    step s = .next { s with
      rxq := s.rxq ++ (match s.env with
        | .host b rate seen :: _ => if rate = s.baud then [b] else seen
        | _ => [])
      env := s.env.tail } := by
  cases he : s.env with
  | nil =>
    rw [step_of_env_nil he, engineStep_jumped hk, List.append_nil, List.tail_nil, ← he]
  | cons e es =>
    rw [step_of_env_cons he]
    cases e with
    | go => rw [envStep, engineStep_jumped (s := s.setEnv es) hk, List.append_nil]; rfl
    | host b rate seen => rfl
    | timeout =>
      rw [envStep, timeoutEvent_eq, if_neg (by simp [hk, Ctl.bounded]), List.append_nil]
      rfl
    | announce => rw [envStep, if_neg (by simp [hk]), List.append_nil]; rfl
    | reset | resetCut => simp [State.resetNext, he, EnvEvent.isReset] at hr

/-- Settles O24: each event off the queue, one that is not enabled changing nothing else. -/
theorem jumpedUntilReset : Obligations.JumpedUntilReset := by
  unfold Obligations.JumpedUntilReset
  intro s
  refine ⟨fun b rate seen es he => ?host, fun es he hoff => ?timeout, fun es he => ?announce, step_jumped⟩
  case host => rw [step_of_env_cons he]; rfl
  case timeout =>
    have hno : ¬(s.ctl.bounded = true ∧ s.rxq = []) := by
      rintro ⟨hb, hq⟩
      rcases hoff with hoff | hoff
      · exact hoff hq
      · simp only [List.mem_cons, List.not_mem_nil, or_false] at hoff
        rcases hoff with hk | hk | hk <;> simp [hk, Ctl.bounded] at hb
    rw [step_of_env_cons he, envStep, timeoutEvent_eq]
    exact congrArg _ (if_neg hno)
  case announce => rw [step_of_env_cons he]; rfl

/-- Settles O38: the bounded waits, `S_WAIT_SOH` apart from the others. -/
theorem timeoutAtBoundedWait : Obligations.TimeoutAtBoundedWait := by
  unfold Obligations.TimeoutAtBoundedWait
  intro s es he hq
  have hstep (hb : s.ctl.bounded = true) : step s = .next { s with
      env := es, ctl := if s.ctl = .waitSoh then .announce else .waitSoh, cmd := none } := by
    rw [step_of_env_cons he, envStep, timeoutEvent_eq]
    exact congrArg _ (if_pos ⟨hb, hq⟩)
  constructor
  · intro hk
    rw [hstep (by rw [hk]; rfl), if_pos hk]
  · intro hk
    have hwait : s.ctl.bounded = true ∧ s.ctl ≠ .waitSoh := by
      simp only [List.mem_cons, List.not_mem_nil, or_false] at hk
      rcases hk with hk | hk | hk | hk | hk | hk | hk | hk | hk | hk <;> simp [hk, Ctl.bounded]
    rw [hstep hwait.1, if_neg hwait.2]

/-! ## The instruction the engine fetches (41_framing_fsm.md R140-R146) -/

theorem engineStep_of_fetch {s : State} {i : Instr} (h : fetch s = some i) : engineStep s = exec i s := by
  rw [engineStep, h]

theorem fetch_of_decode {s : State} {pos : Pos} {bytes : List Byte} {i : Instr} (hb : fetchBytes s = some (pos, bytes))
    (hd : decode s.cfg pos bytes = .ok i) : fetch s = some i := by
  simp [fetch, hb, hd, Except.toOption]

theorem fetch_of_currentCommand {s : State} (hb : fetchBytes s = none) : fetch s = currentCommand s := by
  simp [fetch, hb]

/-- The fetched instruction is run whether the engine moves by itself or is told to; the queue does not bear on the fetch. -/
theorem step_of_fetch {s : State} {i : Instr} (h : fetch s = some i) :
    (s.env = [] → step s = exec i s) ∧ (∀ es, s.env = .go :: es → step s = exec i (s.setEnv es)) := by
  refine ⟨fun he => ?_, fun es he => ?_⟩
  · rw [step_of_env_nil he, engineStep_of_fetch h]
  · rw [step_of_env_cons he, envStep, engineStep_of_fetch (s := s.setEnv es) h]

/-- Settles O11: bytes that decode are the instruction fetched, else the command in flight is. -/
theorem stepRunsDecodedInstruction : Obligations.StepRunsDecodedInstruction := by
  unfold Obligations.StepRunsDecodedInstruction
  intro s i
  exact ⟨fun _ _ hb hd => step_of_fetch (fetch_of_decode hb hd),
    fun hb hc => step_of_fetch ((fetch_of_currentCommand hb).trans hc)⟩

theorem fetch_announce {s : State} (hk : s.ctl = .announce) (hr : s.rxq = []) :
    fetch s = some (.announce s.cfg.version) := by
  refine fetch_of_decode (pos := .announcement) (bytes := announceBytes s.cfg.version) (by simp [fetchBytes, hk, hr]) ?_
  simp [decode, announceBytes, versionBytes, Laws.EncodeDecode.joinLE_versionBytes]

theorem fetch_control {s : State} {b : Byte} {r : List Byte} {i : Instr}
    (hk : s.ctl = .announce ∨ s.ctl = .waitSoh ∨ s.ctl = .rspAck) (hr : s.rxq = b :: r) (hd : decodeControl b = some i) :
    fetch s = some i := by
  refine fetch_of_decode (pos := .control) (bytes := [b]) ?_ (by simp [decode, hd])
  rcases hk with hk | hk | hk <;> simp [fetchBytes, hk, hr]

theorem fetch_type {s : State} {b t : Byte} {r : List Byte} {c : Cmd} (hk : s.ctl = .lenHi) (hr : s.rxq = b :: r)
    (hc : s.cmd = some c) (ht : c.typ = some t) : fetch s = some (decodeType s.cfg t) :=
  fetch_of_decode (pos := .commandType) (bytes := [t]) (by simp [fetchBytes, hk, hr, hc, ht]) (by simp [decode])

theorem fetch_exec {s : State} {c : Cmd} {n : Command} (hk : s.ctl = .exec) (hc : s.cmd = some c) (hn : c.name = some n) :
    fetch s = some n.toInstr := by
  rw [fetch_of_currentCommand (by simp [fetchBytes, hk])]
  simp [currentCommand, hk, hc, hn]

theorem fetch_waiting {s : State} {k : Ctl} {c : Cmd} {n : Command} {b : Byte} {r : List Byte}
    (hk : k ∈ [Ctl.hdr, .pld, .crcLo, .crcHi, .rspCrcLo, .rspCrcHi]) (h : s.Waiting k c n b r) :
    fetch s = some n.toInstr := by
  obtain ⟨rfl, hc, hn, hr⟩ := h
  simp only [List.mem_cons, List.not_mem_nil, or_false] at hk
  rcases hk with hk | hk | hk | hk | hk | hk <;> simp [fetch, fetchBytes, currentCommand, hk, hc, hn, hr]

/-- Settles O12: with nothing pending, the step is the instruction fetched at each control state. -/
theorem stepFetchPoints : Obligations.StepFetchPoints := by
  unfold Obligations.StepFetchPoints
  intro s he
  have run {i : Instr} (h : fetch s = some i) : step s = exec i s := (step_of_fetch h).1 he
  exact ⟨fun hk hr => run (fetch_announce hk hr), fun _ _ _ hk hr hd => run (fetch_control hk hr hd),
    fun _ _ _ _ hk hr hc ht => run (fetch_type hk hr hc ht), fun _ _ hk hc hn => run (fetch_exec hk hc hn),
    fun _ _ _ _ _ hk h => run (fetch_waiting hk h)⟩

end Sys2Proof.Machine
end

section
/-! The bytes of a command, wait by wait: the idle states, the frame header, the data phase and the CRC (41_framing_fsm.md
R143-R153). -/

namespace Sys2Proof.Machine

/-! ## The byte taken -/

/-- The byte at the head of `RXQ` taken. -/
theorem State.popRx_of_rx {s : State} {b : Byte} {r : List Byte} (hr : s.rxq = b :: r) : s.popRx = { s with rxq := r } := by
  simp [State.popRx, hr]

/-- A byte that leaves the command at its wait changes `RXQ` and the record alone. -/
theorem State.Waiting.popRx_enter {s : State} {k : Ctl} {c : Cmd} {n : Command} {b : Byte} {r : List Byte}
    (h : s.Waiting k c n b r) (c' : Cmd) : s.popRx.enter k (some c') = { s with rxq := r, cmd := some c' } := by
  rw [State.popRx_of_rx h.rx, ← h.ctl]
  rfl

/-- An abort on a byte taken, with the `NAK` of the code's row (60_exceptions.md R300, R301). -/
theorem raiseAbort_popRx {s : State} {b : Byte} {r : List Byte} (hr : s.rxq = b :: r) {code : Abort}
    (hcode : code.sent = [NAK]) : raiseAbort code s.popRx = .next (s.nakked r) := by
  rw [State.popRx_of_rx hr, raiseAbort_eq, hcode]
  rfl

/-! ## The idle states (41_framing_fsm.md R143-R145) -/

theorem onByte_idle {s : State} (hk : s.ctl = .announce ∨ s.ctl = .waitSoh) (b : Byte) : onByte b s = idleByte b s := by
  rcases hk with hk | hk <;> simp [onByte, hk]

theorem idleByte_discards {s : State} {b : Byte} {r : List Byte} (hr : s.rxq = b :: r) (hb : b ≠ SOH) :
    idleByte b s = .next { s with rxq := r } := by
  rw [idleByte, if_neg hb, State.popRx_of_rx hr]

/-- Settles O29: `SOH` as the byte that starts a command. -/
theorem sohStartsCommand : Obligations.SohStartsCommand := by
  unfold Obligations.SohStartsCommand
  intro s r hk hr
  refine ⟨(freshCmd s.cfg).crc, ?_, fun hcov => if_pos hcov⟩
  rw [exec_control hr rfl, onByte_idle hk, idleByte, if_pos rfl, State.popRx_of_rx hr, startCommand_eq]
  rfl

/-- Settles O30: a byte other than `SOH`, taken as a control byte or as a plain one. -/
theorem idleBytesDiscarded : Obligations.IdleBytesDiscarded := by
  unfold Obligations.IdleBytesDiscarded
  intro s b r hk hr
  have discard (hb : b ≠ SOH) : onByte b s = .next { s with rxq := r } := by
    rw [onByte_idle hk, idleByte_discards hr hb]
  refine ⟨?stx, ?ack, ?nak, fun hb he => ?other⟩
  case stx | ack | nak =>
    rintro rfl
    exact (exec_control hr rfl).trans (discard (by decide))
  case other =>
    have hx : s.ctl ≠ .exec ∧ s.ctl ≠ .jumped := by rcases hk with hk | hk <;> simp [hk]
    rw [step_byte he hr hx.1 hx.2, discard hb]

/-! ## The frame header (41_framing_fsm.md R146-R148) -/

/-- Settles O31: the two bytes before the lookup, folded into the CRC where it covers the frame header. -/
theorem typeAndLengthBytes : Obligations.TypeAndLengthBytes := by
  unfold Obligations.TypeAndLengthBytes
  intro s c b r he hc hr
  have hstep (hk : s.ctl = .typ ∨ s.ctl = .lenLo) : step s = frameByte b s := by
    rcases hk with hk | hk <;> simp [step_byte he hr, onByte, hk]
  refine ⟨fun hk => ?_, fun hk => ?_⟩
  · rw [hstep (.inl hk), frameByte, need_eq hc, hk, State.popRx_of_rx hr]
    rfl
  · rw [hstep (.inr hk), frameByte, need_eq hc, hk, State.popRx_of_rx hr]
    rfl

/-- The high length byte completes the length, and the command's length check takes over (41_framing_fsm.md R146, R147). -/
theorem lenHiByte_eq {n : Command} {b : Byte} {c : Cmd} {s : State} {lo : U16} (hl : c.length = some lo) :
    lenHiByte (handlerOf n) b c s = checkLengthAndInit (handlerOf n) (lo ||| ((b.zeroExtend 16) <<< 8))
      { c.withLenHi s.cfg lo b with name := some n } s.popRx := by
  rw [lenHiByte, need_eq hl, handlerOf_name]

section
variable {n : Command} {len : U16} {c : Cmd} {s : State}

theorem checkLengthAndInit_short (h : len.toNat < s.cfg.hdrSize n) :
    checkLengthAndInit (handlerOf n) len c s = raiseAbort .lenShort s := by
  simp only [checkLengthAndInit, handlerOf_name]
  rw [if_pos (by omega)]

theorem checkLengthAndInit_refused (h : s.cfg.hdrSize n ≤ len.toNat)
    (hbad : s.cfg.pldMax < len.toNat - s.cfg.hdrSize n ∨ s.cfg.payloadOk n (len.toNat - s.cfg.hdrSize n) = false) :
    checkLengthAndInit (handlerOf n) len c s = raiseAbort .initFail s := by
  have hpl : ((len.toNat : Int) - (s.cfg.hdrSize n : Int)).toNat = len.toNat - s.cfg.hdrSize n := by omega
  simp only [checkLengthAndInit, handlerOf_name, handlerOf_init, hpl]
  rw [if_neg (by omega)]
  split
  · rfl
  · rw [if_neg]
    rw [hbad.resolve_left (by omega)]
    exact Bool.false_ne_true

theorem checkLengthAndInit_pass (h : s.cfg.hdrSize n ≤ len.toNat) (hmax : len.toNat - s.cfg.hdrSize n ≤ s.cfg.pldMax)
    (hok : s.cfg.payloadOk n (len.toNat - s.cfg.hdrSize n) = true) :
    checkLengthAndInit (handlerOf n) len c s = headerAck (handlerOf n) (s.cfg.hdrSize n)
      { c with hs := some (s.cfg.hdrSize n), pl := some ((len.toNat - s.cfg.hdrSize n : Nat) : Int) } s := by
  have hpl : (len.toNat : Int) - (s.cfg.hdrSize n : Int) = ((len.toNat - s.cfg.hdrSize n : Nat) : Int) := by omega
  simp only [checkLengthAndInit, handlerOf_name, handlerOf_init, hpl, Int.toNat_natCast, hok, if_true]
  rw [if_neg (by omega), if_neg (by omega)]

/-- The record at the header acknowledgement: no byte of the data phase received (41_framing_fsm.md R148). -/
def Cmd.dataPhase (c : Cmd) (cfg : Config) : Cmd :=
  { c with crc := if cfg.crcCoversFrameHdr then c.crc else cfg.crcSeed, hdr := some [], pld := some [] }

theorem headerAck_dataPhase (h : Handler) (hs : Nat) (c : Cmd) (s : State) : headerAck h hs c s =
    if 0 < hs then .next ((s.tx [ACK]).enter .hdr (some (c.dataPhase s.cfg)))
    else afterHeader h (c.dataPhase s.cfg) (s.tx [ACK]) := rfl

/-- `Header` refuses (41_framing_fsm.md R149). -/
theorem afterHeader_fail {hdr : List Byte} {pl : Nat} (hh : c.hdr = some hdr) (hpl : c.pl = some (pl : Int))
    (hbad : (handlerOf n).header s.cfg (decodeFields s.cfg n hdr) pl = false) :
    afterHeader (handlerOf n) c s = raiseAbort .headerFail s := by
  rw [afterHeader, need_eq hh, need_eq hpl]
  simp only [handlerOf_name, Int.toNat_natCast, hbad, Bool.false_eq_true, if_false]

/-- `Header` passes, and a payload is to come (41_framing_fsm.md R149). -/
theorem afterHeader_payload {hdr pld : List Byte} {pl : Nat} (hh : c.hdr = some hdr) (hpl : c.pl = some (pl : Int))
    (hp : c.pld = some pld) (hok : (handlerOf n).header s.cfg (decodeFields s.cfg n hdr) pl = true) (hpos : 0 < pl) :
    afterHeader (handlerOf n) c s = .next (s.enter .pld (some { c with f := some (decodeFields s.cfg n hdr) })) :=
  (afterHeader_pass hh hpl hp hok).trans (congrArg _ (if_pos hpos))

/-- `Header` passes, and there is no payload (41_framing_fsm.md R149, R150). -/
theorem afterHeader_noPayload {hdr pld : List Byte} (hh : c.hdr = some hdr) (hpl : c.pl = some ((0 : Nat) : Int))
    (hp : c.pld = some pld) (hok : (handlerOf n).header s.cfg (decodeFields s.cfg n hdr) 0 = true) :
    afterHeader (handlerOf n) c s =
      .next ((s.tx [ACK]).enter .crcLo (some { c with f := some (decodeFields s.cfg n hdr) })) :=
  (afterHeader_pass hh hpl hp hok).trans (congrArg _ (if_neg (Nat.lt_irrefl 0)))

end

/-- Settles O33: the checks of R147 in their order, and past them the header acknowledgement. -/
theorem lengthCheckAndInit : Obligations.LengthCheckAndInit := by
  unfold Obligations.LengthCheckAndInit
  intro s c n lo b r hk hc hn hl hr len hs pl crc₁ c₁
  have hexec : exec n.toInstr s =
      checkLengthAndInit (handlerOf n) len { c.withLenHi s.cfg lo b with name := some n } s.popRx := by
    rw [exec_lookup hk hc hn hr, lenHiByte_eq hl]
  have hc₁ : c₁ = Cmd.dataPhase
      { c.withLenHi s.cfg lo b with name := some n, hs := some hs, pl := some (pl : Int) } s.cfg := by
    simp only [Cmd.dataPhase, Cmd.withLenHi, foldFrame, c₁, crc₁, len]
    split <;> rfl
  refine ⟨fun hshort => ?short, fun hle hbad => ?refused, fun hle hmax hok => ?passed⟩
  case short => rw [hexec, checkLengthAndInit_short (s := s.popRx) hshort, raiseAbort_popRx hr rfl]
  case refused => rw [hexec, checkLengthAndInit_refused (s := s.popRx) hle hbad, raiseAbort_popRx hr rfl]
  case passed =>
    have hack : exec n.toInstr s = if 0 < hs then .next ((s.popRx.tx [ACK]).enter .hdr (some c₁))
        else afterHeader (handlerOf n) c₁ (s.popRx.tx [ACK]) := by
      rw [hexec, checkLengthAndInit_pass (s := s.popRx) hle hmax hok, headerAck_dataPhase, hc₁]
      rfl
    have hpop := State.popRx_of_rx hr
    refine ⟨fun hpos => ?_, fun hz hbad => ?_, fun hz hh hpos => ?_, fun hz hh hpl => ?_⟩
    · rw [hack, if_pos hpos, hpop]
      rfl
    · rw [hack, if_neg (by omega), afterHeader_fail (s := s.popRx.tx [ACK]) (c := c₁) rfl rfl hbad, raiseAbort_eq, hpop]
      simp [State.nakked, State.sent, Abort.sent]
    · rw [hack, if_neg (by omega), afterHeader_payload (s := s.popRx.tx [ACK]) (c := c₁) rfl rfl rfl hh hpos, hpop]
      rfl
    · rw [hpl] at hh
      rw [hack, if_neg (by omega), afterHeader_noPayload (s := s.popRx.tx [ACK]) (c := c₁) rfl
        (congrArg (fun k : Nat => some (k : Int)) hpl) rfl hh, hpop]
      simp [State.sent, State.tx, State.enter]

/-! ## The data phase (41_framing_fsm.md R149-R151) -/

/-- Settles O34: one more header byte, and `Header` on the last one. -/
theorem headerBytes : Obligations.HeaderBytes := by
  unfold Obligations.HeaderBytes
  intro s c n hdr pld hs pl b r h hhdr hpld hhs hpl c₁ f
  have hexec : exec n.toInstr s = if hdr.length + 1 = hs then afterHeader (handlerOf n) c₁ s.popRx
      else .next (s.popRx.enter .hdr (some c₁)) := by
    rw [exec_waiting h nofun nofun, commandByte, h.ctl]
    exact hdrByte_eq hhdr hhs b
  refine ⟨fun hmore => ?_, fun hlast hbad => ?_, fun hlast hh hpos => ?_, fun hlast hh hz => ?_⟩
  · rw [hexec, if_neg hmore, h.popRx_enter]
  · rw [hexec, if_pos hlast, afterHeader_fail (s := s.popRx) (c := c₁) rfl hpl hbad, raiseAbort_popRx h.rx rfl]
  · rw [hexec, if_pos hlast, afterHeader_payload (s := s.popRx) (c := c₁) rfl hpl hpld hh hpos, State.popRx_of_rx h.rx]
    rfl
  · subst hz
    rw [hexec, if_pos hlast, afterHeader_noPayload (s := s.popRx) (c := c₁) rfl hpl hpld hh, State.popRx_of_rx h.rx]
    rfl

/-- Settles O35: one more payload byte, and the acknowledgement on the last one. -/
theorem payloadBytes : Obligations.PayloadBytes := by
  unfold Obligations.PayloadBytes
  intro s c n f pld pl b r h hf hpld hpl c₁
  have hexec : exec n.toInstr s = .next (if pld.length + 1 = pl then (s.popRx.tx [ACK]).enter .crcLo (some c₁)
      else s.popRx.enter .pld (some c₁)) := by
    rw [exec_waiting h nofun nofun, commandByte, h.ctl]
    exact pldByte_eq hf hpld hpl b
  refine ⟨fun hmore => ?_, fun hlast => ?_⟩
  · rw [hexec, if_neg hmore, h.popRx_enter]
  · rw [hexec, if_pos hlast, State.popRx_of_rx h.rx]
    rfl

/-! ## The CRC (41_framing_fsm.md R152, R153, R159; 40_crc.md R127-R129) -/

/-- The CRC check compares numbers. -/
theorem crcMatches_iff {c : Cmd} {lo hi : Byte} : crcMatches c lo hi = true ↔ lo.toNat + 256 * hi.toNat = c.crc.toNat := by
  rw [crcMatches, beq_iff_eq, ← joinLE_toNat, BitVec.toNat_inj]

/-- Settles O36: the low byte kept, and the comparison on the high byte. -/
theorem crcConfirmation : Obligations.CrcConfirmation := by
  unfold Obligations.CrcConfirmation
  intro s c n b r
  refine ⟨fun h => ?_, fun f pld lo h hf hp hlo => ?_⟩
  · rw [exec_waiting h nofun nofun, commandByte, h.ctl, State.popRx_of_rx h.rx]
    rfl
  · have hexec : exec n.toInstr s = crcHiByte (handlerOf n) b c s := by
      rw [exec_waiting h nofun nofun, commandByte, h.ctl]
    rw [hexec, crcHiByte, need_eq hlo, need_eq hf, need_eq hp]
    refine ⟨fun hm => ?_, fun hm => ?_⟩
    · rw [if_pos (crcMatches_iff.mpr hm), State.popRx_of_rx h.rx]
      rfl
    · rw [if_neg (mt crcMatches_iff.mp hm), raiseAbort_popRx h.rx rfl]

end Sys2Proof.Machine
end

section
/-! The response of a command: the end of `Exec`, the length, the data and the host's CRC; and WRITE_RAM's one primitive
(41_framing_fsm.md R155-R163; 42_commands.md R192-R211). -/

namespace Sys2Proof.Machine

/-! ## The end of Exec (41_framing_fsm.md R156, R157, R160) -/

/-- RUN alone ends in a jump (42_commands.md R197). -/
theorem handlerOf_jump {n : Command} (hn : n ≠ .run) (f : HdrFields Tagged) : (handlerOf n).jump f = none := by
  cases n
  case run => exact absurd rfl hn
  all_goals rfl

/-- The end of a command without a response: `ACK` at the rate in force, then a pending rate applied. -/
theorem execDone_noResponse {n : Command} (hr : n.hasResponse = false) (hn : n ≠ .run) (f : HdrFields Tagged) (c : Cmd)
    (s : State) : execDone (handlerOf n) f c s = .next { s with
      ctl := .waitSoh, cmd := none, txl := s.txl ++ s.sent [ACK], baud := c.newBaud.getD s.baud } := by
  rw [execDone_eq, handlerOf_jump hn, handlerOf_name, hr]
  rfl

/-- The end of a command with a response: `ACK`, then `SendLen`. -/
theorem exec_startResponse {s : State} {c : Cmd} {n : Command} {f : HdrFields Tagged} (hr : n.hasResponse = true)
    (h : s.Executing c n f []) : exec n.toInstr s = startResponse (handlerOf n) f c (s.tx [ACK]) := by
  have hn : n ≠ .run := by rintro rfl; cases hr
  rw [exec_executing h, runExec_nil, execDone_eq, handlerOf_jump hn, handlerOf_name, hr]
  rfl

/-- Settles O58: an empty queue ends the command; the queues of CHANGE_BAUD and GPIO_WD hold pure work only. -/
theorem noResponseCommandsComplete : Obligations.NoResponseCommandsComplete := by
  unfold Obligations.NoResponseCommandsComplete
  intro s c f done
  refine ⟨fun n hn h => ?_, fun b h => ?_, fun v h hnb => ?_⟩
  · have hcmd : n.hasResponse = false ∧ n ≠ .run := by
      simp only [List.mem_cons, List.not_mem_nil, or_false] at hn
      rcases hn with rfl | rfl | rfl | rfl | rfl | rfl | rfl | rfl | rfl | rfl <;> exact ⟨rfl, nofun⟩
    rw [exec_executing h, runExec_nil, execDone_noResponse hcmd.1 hcmd.2]
  · refine (exec_executing h).trans ?_
    rw [runExec_setBaud, runExec_nil, execDone_noResponse (n := .changeBaud) rfl nofun]
    rfl
  · refine (exec_executing h).trans ?_
    rw [runExec_gpio, runExec_nil, execDone_noResponse (n := .gpioWd) rfl nofun, hnb]
    rfl

/-! ## The response length (41_framing_fsm.md R157; 30_encoding.md R88) -/

/-- The length on the wire, low byte first; both bytes are those of the number itself. -/
theorem LE16_ofNat (v : Nat) : LE16 (BitVec.ofNat 16 v) = [BitVec.ofNat 8 v, BitVec.ofNat 8 (v / 256)] := by
  have hlo : BitVec.ofNat 8 (v % 65536) = BitVec.ofNat 8 v := BitVec.eq_of_toNat_eq (by simp)
  have hhi : BitVec.ofNat 8 (v % 65536 / 256) = BitVec.ofNat 8 (v / 256) := BitVec.eq_of_toNat_eq (by simp; omega)
  simp only [LE16, leBytes, BitVec.toNat_ofNat, Nat.reducePow, hlo, hhi]

/-- `SendLen` of a command whose length is its fields' or its configuration's: no draw is made. -/
theorem exec_sendLen {s : State} {c : Cmd} {n : Command} {f : HdrFields Tagged} {len : Nat} (hr : n.hasResponse = true)
    (hq : (handlerOf n).query = false) (hlen : (handlerOf n).sendLen s.cfg f [] = (len, true)) (h : s.Executing c n f []) :
    exec n.toInstr s = .next { s with
      ctl := .rspAck, txl := s.txl ++ s.sent [ACK, BitVec.ofNat 8 len, BitVec.ofNat 8 (len / 256)]
      cmd := some { c with rspLen := some (BitVec.ofNat 16 len), q := some [] } } := by
  rw [exec_startResponse hr h]
  simp [startResponse, hq, hlen, LE16_ofNat, State.tx, State.enter, State.sent]

/-- A draw of a collaborator: one answer of the environment used, or one free value (log 4). -/
theorem State.afterDraw_eq (s : State) : s.afterDraw =
    { s with answers := s.answers.tail, draws := if s.answers = [] then s.draws + 1 else s.draws } := by
  unfold State.afterDraw
  split <;> rename_i h <;> simp [h]

/-- `SendLen` of GET_FLASH_STATE: the length of the draw, cut to what the length field can hold (42_commands.md R206). -/
theorem exec_getFlashState {s : State} {c : Cmd} {f : HdrFields Tagged} (h : s.Executing c .getFlashState f []) :
    let q := s.drawn.take 65535
    exec .getFlashState s = .next { s with
      answers := s.answers.tail, draws := if s.answers = [] then s.draws + 1 else s.draws
      ctl := .rspAck, txl := s.txl ++ s.sent [ACK, BitVec.ofNat 8 q.length, BitVec.ofNat 8 (q.length / 256)]
      cmd := some { c with rspLen := some (BitVec.ofNat 16 q.length), q := some q } } := by
  intro q
  have hdrawn : (s.tx [ACK]).drawn = s.drawn := rfl
  refine (exec_startResponse rfl h).trans ?_
  simp only [startResponse, handlerOf, getFlashStateHandler, if_true, hdrawn, State.afterDraw_eq, LE16_ofNat]
  simp [State.tx, State.enter, State.sent, q]

/-- Settles O42: eight lengths without a draw, and GET_FLASH_STATE's. -/
theorem responseLengths : Obligations.ResponseLengths := by
  unfold Obligations.ResponseLengths
  intro s c f tells
  refine ⟨?readRam, ?readOtp, ?readFlash, ?readPtable, ?readPartition, ?getVersion, ?isEmptyFlash, ?getProductInfo,
    ?getFlashState⟩
  case readRam | readFlash | isEmptyFlash => rintro _ _ rfl h; exact exec_sendLen rfl rfl rfl h
  case readOtp => rintro _ _ rfl _ h; exact exec_sendLen rfl rfl rfl h
  case readPartition => rintro _ _ _ rfl h; exact exec_sendLen rfl rfl rfl h
  case readPtable | getVersion | getProductInfo => exact fun _ h => exec_sendLen rfl rfl rfl h
  case getFlashState =>
    refine fun h => ⟨s.drawn.take 65535, List.length_take_le _ _, fun a as ha hlen => ?_, exec_getFlashState h⟩
    rw [(State.drawn_cons ha).1, List.take_of_length_le hlen]

/-! ## The host's answer to the length (41_framing_fsm.md R158) -/

/-- At `S_RSP_ACK` the byte goes to the command the record names, whichever way it is taken (41_framing_fsm.md R158). -/
theorem onByte_rspAck {s : State} {c : Cmd} {n : Command} {b : Byte} {r : List Byte} (h : s.Waiting .rspAck c n b r) :
    onByte b s = rspAckByte (handlerOf n) b c s := by
  simp [onByte, namedByte, commandByte, h.ctl, h.cmd, h.name]

theorem exec_rspAck {s : State} {c : Cmd} {n : Command} {b : Byte} {r : List Byte} (h : s.Waiting .rspAck c n b r) :
    exec n.toInstr s = rspAckByte (handlerOf n) b c s := by
  rw [exec_waiting h nofun nofun, commandByte, h.ctl]

section
variable {n : Command} {b : Byte} {r : List Byte} {c : Cmd} {s : State} {len : U16} {f : HdrFields Tagged} {q : List Byte}

/-- Any byte but ACK refuses the response: no byte is sent (60_exceptions.md R300). -/
theorem rspAckByte_refused (hlen : c.rspLen = some len) (hf : c.f = some f) (hq : c.q = some q) (hr : s.rxq = b :: r)
    (hb : b ≠ ACK) : rspAckByte (handlerOf n) b c s = .next { s with rxq := r, ctl := .waitSoh, cmd := none } := by
  rw [rspAckByte, need_eq hlen, need_eq hf, need_eq hq]
  simp only [if_pos hb, raiseAbort_eq, State.popRx_of_rx hr]
  simp [Abort.sent, State.sent]

/-- A response of length 0 completes the command. -/
theorem rspAckByte_zero (hlen : c.rspLen = some 0) (hf : c.f = some f) (hq : c.q = some q) (hr : s.rxq = ACK :: r) :
    rspAckByte (handlerOf n) ACK c s = .next { s with
      rxq := r, ctl := .waitSoh, cmd := none, baud := c.newBaud.getD s.baud } := by
  rw [rspAckByte, need_eq hlen, need_eq hf, need_eq hq]
  simp only [ne_eq, not_true_eq_false, if_false, if_true, complete_eq, State.popRx_of_rx hr]

/-- An accepted length is answered with what `SendData` gives. -/
theorem rspAckByte_data {bytes : List Byte} {reads : List Event} (hlen : c.rspLen = some len) (hpos : len ≠ 0)
    (hf : c.f = some f) (hq : c.q = some q) (hr : s.rxq = ACK :: r)
    (hd : (handlerOf n).sendData s.popRx f q = .data bytes reads) :
    rspAckByte (handlerOf n) ACK c s = .next (s.answered c r reads bytes) := by
  rw [rspAckByte, need_eq hlen, need_eq hf, need_eq hq]
  simp only [ne_eq, not_true_eq_false, if_false, if_neg hpos, hd]
  rw [State.popRx_of_rx hr]
  rfl

end

/-- Settles O40: the byte at `S_RSP_ACK`, taken as a control byte, by the command, and in a step. -/
theorem responseLengthAnswer : Obligations.ResponseLengthAnswer := by
  unfold Obligations.ResponseLengthAnswer
  intro s c n b r len f q h hlen hf hq
  have hcontrol {i : Instr} (hd : decodeControl b = some i) : exec i s = rspAckByte (handlerOf n) b c s :=
    (exec_control h.rx hd).trans (onByte_rspAck h)
  refine ⟨?_, ?_, ?_, ?_, fun hb => ?_, fun hb he => ?_⟩
  · rintro rfl
    rw [hcontrol rfl, exec_rspAck h]
  · rintro rfl rfl
    rw [hcontrol rfl, rspAckByte_zero hlen hf hq h.rx]
  · rintro rfl hpos rfl
    rw [hcontrol rfl, rspAckByte_data hlen hpos hf hq h.rx rfl]
    rfl
  · rintro rfl
    rw [hcontrol rfl, rspAckByte_refused hlen hf hq h.rx (by decide)]
  · rw [exec_rspAck h, rspAckByte_refused hlen hf hq h.rx hb]
  · rw [step_byte he h.rx (by rw [h.ctl]; nofun) (by rw [h.ctl]; nofun), onByte_rspAck h,
      rspAckByte_refused hlen hf hq h.rx hb]

/-! ## The host's CRC (41_framing_fsm.md R159) -/

/-- Settles O41: the low byte kept, and the comparison on the high byte. -/
theorem responseCrc : Obligations.ResponseCrc := by
  unfold Obligations.ResponseCrc
  intro s c n b r
  refine ⟨fun h => ?_, fun lo h hlo => ?_⟩
  · rw [exec_waiting h nofun nofun, commandByte, h.ctl, State.popRx_of_rx h.rx]
    rfl
  · have hexec : exec n.toInstr s = rspCrcHiByte b c s := by rw [exec_waiting h nofun nofun, commandByte, h.ctl]
    rw [hexec, rspCrcHiByte, need_eq hlo]
    refine ⟨fun hm => ?_, fun hm => ?_⟩
    · rw [if_pos (crcMatches_iff.mpr hm), complete_eq, State.popRx_of_rx h.rx]
      rfl
    · rw [if_neg (mt crcMatches_iff.mp hm), raiseAbort_popRx h.rx rfl]

/-! ## The length and the data (41_framing_fsm.md R163) -/

theorem readCells_length (s : State) (cell count : Nat) : (readCells s cell count).length = count * s.cfg.w8 := by
  simp [readCells, List.length_flatMap]

/-- Settles O45, command by command: each range read is as long as its length field says, each constant as its table. -/
theorem lengthMatchesData : Obligations.LengthMatchesData := by
  unfold Obligations.LengthMatchesData
  intro s n f q pl hw hr hn hh hq
  subst hn
  have le16 (len : U16) : len.toNat ≤ 65535 := by have := len.isLt; omega
  cases f
  case readRam src len =>
    exact ⟨_, _, if_pos hh, by simp [HdrFields.command, handlerOf, readRamHandler], by simpa using le16 len⟩
  case readFlash addr len =>
    exact ⟨_, _, if_pos (flashRangeOk_fits hh), by simp [HdrFields.command, handlerOf, readFlashHandler],
      by simpa using le16 len⟩
  case readPartition id off len =>
    obtain ⟨a, ha⟩ := Option.isSome_iff_exists.mp hh
    have hdata : readPartitionHandler.sendData s (.readPartition id off len) q =
        .data (s.readFlash a len.toNat) [.read .flash a len.toNat] := by simp only [readPartitionHandler, ha]
    exact ⟨_, _, hdata, by simp [HdrFields.command, handlerOf, readPartitionHandler], by simpa using le16 len⟩
  case isEmptyFlash addr len =>
    exact ⟨_, _, if_pos (flashRangeOk_fits hh), by simp [HdrFields.command, handlerOf, isEmptyFlashHandler], by simp⟩
  case readOtp cell count =>
    obtain ⟨hrange, hlen⟩ := Bool.and_eq_true_iff.mp hh
    exact ⟨_, _, if_pos (otpRangeOk_fits hrange), by simp [HdrFields.command, handlerOf, readOtpHandler, readCells_length],
      by rw [readCells_length]; exact of_decide_eq_true hlen⟩
  case readPtable => exact ⟨_, _, rfl, rfl, hw.ptableSize⟩
  case getVersion => exact ⟨_, _, rfl, rfl, hw.versionString.2⟩
  case getProductInfo => exact ⟨_, _, rfl, rfl, hw.productInfo⟩
  case getFlashState => exact ⟨_, _, rfl, rfl, hq⟩
  all_goals cases hr

/-! ## WRITE_RAM (42_commands.md R192) -/

/-- Settles O46: the one primitive, in either space, byte by byte. -/
theorem writeRamResult : Obligations.WriteRamResult := by
  unfold Obligations.WriteRamResult
  intro s c f v rest
  constructor
  · intro o h hfit
    have e : perform (.write (.scratch o) v) s =
        some (s.setBuf (Memory.writeBytes Space.buf.blank s.buf o v), []) := if_pos (bufRangeOk_iff.mpr hfit)
    exact ⟨_, exec_primitive h rfl e, rfl, Memory.read_writeBytes_getD _ 0 _ _ _⟩
  · intro a h hfit
    have e : perform (.write (.concrete a) v) s =
        some ((s.setRam (Memory.writeBytes Space.ram.blank s.ram a v)).emit [.write .ram a v.length], []) := if_pos hfit
    exact ⟨_, exec_primitive h rfl e, rfl, Memory.read_writeBytes_getD _ 0 _ _ _⟩

end Sys2Proof.Machine
end

section
/-! What a step leaves alone outside `S_EXEC`, the waits at which it is silent, and the one way into `S_EXEC`
(41_framing_fsm.md R141, R153, R161, R164, R166). -/

namespace Sys2Proof.Machine

/-! ## Outside S_EXEC (41_framing_fsm.md R141, R164) -/

theorem State.ByteEffect.of_setEnv {nb : Option U32} {es : List EnvEvent} {s t : State}
    (h : (s.setEnv es).ByteEffect nb t) : s.ByteEffect nb t :=
  ⟨⟨h.cfg, h.ram, h.buf, h.flash, h.otp⟩, h.sent, h.logged, h.baud⟩

/-- Outside `S_EXEC` the engine has no more effect than a byte. -/
theorem engineStep_byteEffect {s t : State} (hx : s.ctl ≠ .exec) (e : engineStep s = .next t) :
    s.ByteEffect (s.cmd.bind Cmd.newBaud) t := by
  cases engineEvent s with
  | exec hk => exact absurd hk hx
  | byte b _ _ h => exact onByte_effect (h.symm.trans e)
  | send bs h => cases h.symm.trans e; exact (State.ByteEffect.refl _ _).of_tx

/-- Outside `S_EXEC` no event but RESET has more effect than a byte. -/
theorem step_byteEffect {s t : State} (hx : s.ctl ≠ .exec) (hn : s.resetNext = false) (e : step s = .next t) :
    s.ByteEffect (s.cmd.bind Cmd.newBaud) t := by
  cases stepEvent s with
  | engine es h => exact (engineStep_byteEffect (s := s.setEnv es) hx (h.symm.trans e)).of_setEnv
  | host es bs h =>
    cases h.symm.trans e
    exact ⟨⟨rfl, rfl, rfl, rfl, rfl⟩, ⟨[], by simp [State.sent]⟩, ⟨[], by simp⟩, .inl rfl⟩
  | timeout es h => exact (timeoutEvent_effect (h.symm.trans e)).of_setEnv
  | send es bs h => cases h.symm.trans e; exact ((State.ByteEffect.refl _ _).of_tx (bs := bs)).of_setEnv
  | reset _ _ _ hr => rw [hr] at hn; cases hn
  | resetCut _ _ _ _ _ hr => rw [hr] at hn; cases hn

/-- Settles O20: no more effect than a byte means no storage written, and only reads logged. -/
theorem storageChangesOnlyInExec : Obligations.StorageChangesOnlyInExec := by
  unfold Obligations.StorageChangesOnlyInExec
  intro s t hx hn e
  have h := step_byteEffect hx hn e
  exact ⟨h.ram, h.buf, h.flash, h.otp, h.logged⟩

/-! ## Silent waits (41_framing_fsm.md R161, R166) -/

/-- The waits of R166 with no sending point. -/
def Ctl.silent (k : Ctl) : Prop := k ∈ [Ctl.waitSoh, .typ, .lenLo, .crcLo, .rspCrcLo, .jumped]

/-- A silent wait is neither `S_ANNOUNCE`, which announces, nor `S_EXEC`. -/
theorem Ctl.silent.ne {k : Ctl} (h : k.silent) : k ≠ .announce ∧ k ≠ .exec := by
  constructor <;> rintro rfl <;> simp [Ctl.silent] at h

/-- Neither log has grown. -/
def State.SameLogs (s t : State) : Prop := t.txl = s.txl ∧ t.evl = s.evl

theorem onByte_sameLogs {s t : State} {b : Byte} (hk : s.ctl.silent) (e : onByte b s = .next t) : s.SameLogs t := by
  cases hctl : s.ctl <;> simp only [onByte, hctl] at e
  case waitSoh =>
    unfold idleByte at e
    split at e <;> cases e <;> exact ⟨rfl, rfl⟩
  case typ | lenLo =>
    obtain ⟨c, -, e⟩ := need_next.mp e
    rw [hctl] at e
    cases e
    exact ⟨rfl, rfl⟩
  case crcLo | rspCrcLo =>
    obtain ⟨c, -, e⟩ := need_next.mp e
    obtain ⟨n, -, e⟩ := need_next.mp e
    rw [commandByte, hctl] at e
    cases e
    exact ⟨rfl, rfl⟩
  case jumped => cases e
  all_goals simp [Ctl.silent, hctl] at hk

theorem engineStep_sameLogs {s t : State} (hk : s.ctl.silent) (e : engineStep s = .next t) : s.SameLogs t := by
  by_cases hj : s.ctl = .jumped
  · cases (engineStep_jumped hj).symm.trans e
    exact ⟨rfl, rfl⟩
  · cases hr : s.rxq with
    | cons b r => exact onByte_sameLogs hk ((engineStep_byte hr hk.ne.2 hj).symm.trans e)
    | nil =>
      have hwait := engineStep_noByte hr hk.ne.2
      rw [if_neg hk.ne.1] at hwait
      cases hwait.symm.trans e
      exact ⟨rfl, rfl⟩

/-- A timeout sends no byte and logs nothing, wherever it occurs (60_exceptions.md R300). -/
theorem timeoutEvent_sameLogs {s t : State} (e : timeoutEvent s = .next t) : s.SameLogs t := by
  rw [timeoutEvent_eq] at e
  cases e
  split <;> exact ⟨rfl, rfl⟩

/-- RESET leaves both logs, cut primitive or not (10_state.md R43, log 12). -/
theorem resetCutState_sameLogs (ram buf : List Host.Cell) (left : List Byte) (s : State) :
    s.SameLogs (resetCutState ram buf left s) := by
  unfold resetCutState
  cases s.headOp with
  | none => exact ⟨rfl, rfl⟩
  | some op => exact (cutOp_frame op left s).2

/-- Settles O19, event by event. -/
theorem silentWaits : Obligations.SilentWaits := by
  unfold Obligations.SilentWaits
  intro s t hk e
  cases he : s.env with
  | nil => exact engineStep_sameLogs hk ((step_of_env_nil he).symm.trans e)
  | cons ev es =>
    rw [step_of_env_cons he] at e
    cases ev with
    | go => exact engineStep_sameLogs (s := s.setEnv es) hk e
    | host b rate seen => cases e; exact ⟨rfl, rfl⟩
    | timeout => exact timeoutEvent_sameLogs (s := s.setEnv es) e
    | announce =>
      have ha : (s.setEnv es).ctl ≠ .announce := (Ctl.silent.ne hk).1
      rw [envStep, if_neg ha] at e
      cases e
      exact ⟨rfl, rfl⟩
    | reset ram buf => cases e; exact ⟨rfl, rfl⟩
    | resetCut ram buf left => cases e; exact resetCutState_sameLogs ram buf left (s.setEnv es)

/-! ## The way into S_EXEC (41_framing_fsm.md R153, R164) -/

/-- The byte waiting completes an inbound CRC equal to the engine's own, with the fields `Header` left in the record. -/
def State.CrcConfirmed (s : State) : Prop :=
  s.ctl = .crcHi ∧ ∃ c n f lo b r, s.Waiting .crcHi c n b r ∧ c.f = some f ∧ c.rcrcLo = some lo ∧ joinLE lo b = c.crc

section
variable {h : Handler} {b : Byte} {c : Cmd} {s t : State}

theorem raiseAbort_ctl {code : Abort} (e : raiseAbort code s = .next t) : t.ctl = .waitSoh := by
  cases e; rfl

theorem complete_ctl (e : complete c s = .next t) : t.ctl = .waitSoh := by
  rw [complete_eq] at e
  cases e; rfl

theorem afterPayload_ctl (e : afterPayload h c s = .next t) : t.ctl ∈ [Ctl.crcLo, .waitSoh] := by
  obtain ⟨f, -, e⟩ := need_next.mp e
  obtain ⟨pld, -, e⟩ := need_next.mp e
  split at e
  · cases e; simp
  · simp [raiseAbort_ctl e]

theorem afterHeader_ctl (e : afterHeader h c s = .next t) : t.ctl ∈ [Ctl.pld, .crcLo, .waitSoh] := by
  obtain ⟨hdr, -, e⟩ := need_next.mp e
  obtain ⟨pl, -, e⟩ := need_next.mp e
  simp only at e
  split at e
  · split at e
    · cases e; simp
    · exact .tail _ (afterPayload_ctl e)
  · simp [raiseAbort_ctl e]

theorem lenHiByte_ctl (e : lenHiByte h b c s = .next t) : t.ctl ∈ [Ctl.hdr, .pld, .crcLo, .waitSoh] := by
  obtain ⟨lo, -, e⟩ := need_next.mp e
  simp only [checkLengthAndInit, headerAck_dataPhase] at e
  split at e
  · simp [raiseAbort_ctl e]
  · split at e
    · simp [raiseAbort_ctl e]
    · split at e
      · split at e
        · cases e; simp
        · exact .tail _ (afterHeader_ctl e)
      · simp [raiseAbort_ctl e]

theorem hdrByte_ctl (e : hdrByte h b c s = .next t) : t.ctl ∈ [Ctl.hdr, .pld, .crcLo, .waitSoh] := by
  obtain ⟨hdr, -, e⟩ := need_next.mp e
  obtain ⟨hs, -, e⟩ := need_next.mp e
  simp only at e
  split at e
  · exact .tail _ (afterHeader_ctl e)
  · cases e; simp

theorem pldByte_ctl (e : pldByte h b c s = .next t) : t.ctl ∈ [Ctl.pld, .crcLo, .waitSoh] := by
  obtain ⟨pld, -, e⟩ := need_next.mp e
  obtain ⟨pl, -, e⟩ := need_next.mp e
  simp only at e
  split at e
  · exact .tail _ (afterPayload_ctl e)
  · cases e; simp

theorem rspAckByte_ctl (e : rspAckByte h b c s = .next t) : t.ctl ∈ [Ctl.rspCrcLo, .waitSoh] := by
  obtain ⟨len, -, e⟩ := need_next.mp e
  obtain ⟨f, -, e⟩ := need_next.mp e
  obtain ⟨q, -, e⟩ := need_next.mp e
  simp only at e
  split at e
  · simp [raiseAbort_ctl e]
  · split at e
    · simp [complete_ctl e]
    · split at e
      · simp [complete_ctl e]
      · cases e
      · cases e; simp

theorem rspCrcHiByte_ctl (e : rspCrcHiByte b c s = .next t) : t.ctl = .waitSoh := by
  obtain ⟨lo, -, e⟩ := need_next.mp e
  split at e
  · exact complete_ctl e
  · exact raiseAbort_ctl e

/-- `S_CRC_HI` is left for `S_EXEC` on an equal CRC only, with the fields and the low byte in the record. -/
theorem crcHiByte_exec (e : crcHiByte h b c s = .next t) (hx : t.ctl = .exec) :
    ∃ f lo, c.f = some f ∧ c.rcrcLo = some lo ∧ joinLE lo b = c.crc := by
  obtain ⟨lo, hlo, e⟩ := need_next.mp e
  obtain ⟨f, hf, e⟩ := need_next.mp e
  obtain ⟨pld, -, e⟩ := need_next.mp e
  split at e
  · rename_i hm
    exact ⟨f, lo, hf, hlo, beq_iff_eq.mp hm⟩
  · rw [raiseAbort_ctl e] at hx
    cases hx

/-- Of a command's bytes, only the one at `S_CRC_HI` starts `Exec`. -/
theorem commandByte_exec (e : commandByte h b c s = .next t) (hx : t.ctl = .exec) :
    s.ctl = .crcHi ∧ ∃ f lo, c.f = some f ∧ c.rcrcLo = some lo ∧ joinLE lo b = c.crc := by
  cases hk : s.ctl <;> simp only [commandByte, hk] at e
  case crcHi => exact ⟨rfl, crcHiByte_exec e hx⟩
  case lenHi => simpa [hx] using lenHiByte_ctl e
  case hdr => simpa [hx] using hdrByte_ctl e
  case pld => simpa [hx] using pldByte_ctl e
  case rspAck => simpa [hx] using rspAckByte_ctl e
  case rspCrcHi => simpa [hx] using rspCrcHiByte_ctl e
  all_goals cases e
  all_goals cases hx

/-- Of all bytes, only the one that completes an equal CRC starts `Exec`. -/
theorem onByte_exec {r : List Byte} (hr : s.rxq = b :: r) (e : onByte b s = .next t) (hx : t.ctl = .exec) :
    s.CrcConfirmed := by
  cases hk : s.ctl <;> simp only [onByte, hk] at e
  case announce | waitSoh =>
    unfold idleByte at e
    split at e <;> cases e
    · cases hx
    · cases hk.symm.trans hx
  case typ | lenLo =>
    obtain ⟨c, -, e⟩ := need_next.mp e
    rw [hk] at e
    cases e
    cases hx
  case lenHi =>
    obtain ⟨c, -, e⟩ := need_next.mp e
    obtain ⟨ty, -, e⟩ := need_next.mp e
    split at e
    · cases hk.symm.trans (commandByte_exec e hx).1
    · obtain ⟨c, -, e⟩ := need_next.mp e
      obtain ⟨lo, -, e⟩ := need_next.mp e
      cases (raiseAbort_ctl e).symm.trans hx
  case exec | jumped => cases e
  all_goals
    obtain ⟨c, hc, e⟩ := need_next.mp e
    obtain ⟨n, hn, e⟩ := need_next.mp e
    obtain ⟨hcrc, f, lo, hf, hlo, hm⟩ := commandByte_exec e hx
    exact ⟨hcrc, c, n, f, lo, b, r, ⟨hcrc, hc, hn, hr⟩, hf, hlo, hm⟩

end

/-- The engine's own event starts `Exec` only on the byte that completes an equal CRC. -/
theorem engineStep_crcConfirmed {s t : State} (e : engineStep s = .next t) (ht : t.ctl = .exec) (hx : s.ctl ≠ .exec) :
    s.CrcConfirmed := by
  by_cases hj : s.ctl = .jumped
  · cases (engineStep_jumped hj).symm.trans e
    exact absurd ht hx
  · cases hr : s.rxq with
    | cons b r => exact onByte_exec hr ((engineStep_byte hr hx hj).symm.trans e) ht
    | nil =>
      cases (engineStep_noByte hr hx).symm.trans e
      split at ht <;> exact absurd ht hx

/-- Settles O21: the other events stay outside `S_EXEC`. -/
theorem execStartsAfterCrcMatch : Obligations.ExecStartsAfterCrcMatch := by
  unfold Obligations.ExecStartsAfterCrcMatch
  intro s t e ht hx
  cases stepEvent s with
  | engine es h =>
    obtain ⟨hk, c, n, f, lo, b, r, hw, hcrc⟩ := engineStep_crcConfirmed (s := s.setEnv es) (h.symm.trans e) ht hx
    exact ⟨hk, c, n, f, lo, b, r, ⟨hw.ctl, hw.cmd, hw.name, hw.rx⟩, hcrc⟩
  | host es bs h => cases h.symm.trans e; exact absurd ht hx
  | timeout es h =>
    rw [h, timeoutEvent_eq] at e
    cases e
    split at ht
    · simp only at ht
      split at ht <;> cases ht
    · exact absurd ht hx
  | send es bs h => cases h.symm.trans e; exact absurd ht hx
  | reset es ram buf _ h => cases h.symm.trans e; cases ht
  | resetCut es ram buf left op _ _ h => cases h.symm.trans e; cases ht

end Sys2Proof.Machine
end

section
/-! What the commands do: the bytes each response carries, and the queue of `Exec` run to its end for the erases, the
OTP write, the read-back and RUN (41_framing_fsm.md R155-R158; 42_commands.md R191-R211). -/

namespace Sys2Proof.Machine

/-! ## Bytes read -/

/-- The bytes of a read from FLASH. -/
theorem State.readFlash_getD (s : State) {a n i : Nat} (h : i < n) : (s.readFlash a n).getD i 0 = s.flashByte (a + i) :=
  Memory.readBytes_getD _ _ _ _ _ _ h

/-- Two adjacent ranges read together. -/
theorem Memory.readBytes_add (blank : Byte) (m : Memory) (a n k : Nat) :
    Memory.readBytes blank m a (n + k) = Memory.readBytes blank m a n ++ Memory.readBytes blank m (a + n) k := by
  simp [Memory.readBytes, List.range_add, Nat.add_assoc, Function.comp_def]

/-- Consecutive cells are one range of OTP bytes (20_memory.md R69). -/
theorem readCells_eq_readBytes (s : State) (cell count : Nat) :
    readCells s cell count = Memory.readBytes Space.otp.blank s.otp (cell * s.cfg.w8) (count * s.cfg.w8) := by
  induction count with
  | zero => simp [readCells, Memory.readBytes]
  | succ k ih =>
    have hsplit : readCells s cell (k + 1) = readCells s cell k ++ s.readCell (cell + k) := by
      simp [readCells, List.range_succ]
    rw [hsplit, ih, State.readCell, Nat.succ_mul, Memory.readBytes_add, Nat.add_mul]

theorem readCells_getD (s : State) {cell count i : Nat} (h : i < count * s.cfg.w8) :
    (readCells s cell count).getD i 0 = s.otpByte (cell * s.cfg.w8 + i) := by
  rw [readCells_eq_readBytes]
  exact Memory.readBytes_getD _ _ _ _ _ _ h

/-- A flash range is the data exactly when it is byte by byte. -/
theorem State.readFlash_eq_iff (s : State) (a : Nat) (data : List Byte) :
    s.readFlash a data.length = data ↔ ∀ i < data.length, s.flashByte (a + i) = data.getD i 0 := by
  constructor
  · intro h i hi
    rw [← s.readFlash_getD hi, h]
  · intro h
    refine List.ext_getElem (by simp) fun i hi hd => ?_
    rw [← List.getD_eq_getElem _ 0 hi, ← List.getD_eq_getElem _ 0 hd, s.readFlash_getD hd, h i hd]

/-- The offset IS_EMPTY_FLASH answers: erased bytes before it, and there, inside the range, a programmed one
(30_encoding.md R101). -/
theorem State.firstProgrammed_readFlash (s : State) (a n : Nat) :
    let k := firstProgrammed (s.readFlash a n)
    k ≤ n ∧ (∀ i < k, s.flashByte (a + i) = 0xFF) ∧ (k < n → s.flashByte (a + k) ≠ 0xFF) := by
  intro k
  have hk : k ≤ n := List.findIdx_le_length.trans (s.readFlash_length a n).le
  have hget {i : Nat} (hi : i < n) : (s.readFlash a n)[i]'(by simpa using hi) = s.flashByte (a + i) := by
    rw [← s.readFlash_getD hi, List.getD_eq_getElem]
  refine ⟨hk, fun i hi => ?_, fun hlt => ?_⟩
  · have hnot := List.not_of_lt_findIdx hi
    rw [hget (by omega)] at hnot
    simpa using hnot
  · have hat : ((s.readFlash a n)[k]'(by simpa using hlt) != 0xFF) = true :=
      List.findIdx_getElem (p := fun b => b != 0xFF) (w := by rw [State.readFlash_length]; exact hlt)
    rw [hget hlt] at hat
    simpa using hat

/-! ## The responses (41_framing_fsm.md R158; 42_commands.md R193, R199-R206, R209) -/

/-- The host's ACK of a length that is not 0 is answered with what `SendData` gives. -/
theorem exec_sendData {s : State} {c : Cmd} {n : Command} {r bytes q : List Byte} {reads : List Event} {len : U16}
    {f : HdrFields Tagged} (h : s.Waiting .rspAck c n ACK r) (hlen : c.rspLen = some len) (hpos : len ≠ 0)
    (hf : c.f = some f) (hq : c.q = some q) (hd : (handlerOf n).sendData s.popRx f q = .data bytes reads) :
    exec n.toInstr s = .next (s.answered c r reads bytes) := by
  rw [exec_rspAck h, rspAckByte_data hlen hpos hf hq h.rx hd]

/-- Settles O43: each range is inside its storage, and its bytes are those `SendData` reads. -/
theorem readResponses : Obligations.ReadResponses := by
  unfold Obligations.ReadResponses
  intro s c r rlen q hlen hpos hq
  refine ⟨fun o len h hf hfit => ?readBuf, fun a len h hf hfit => ?readRam, fun a len h hf hfit => ?readFlash,
    fun w k h hf hfit => ?readOtp, fun id off len a h hf ha => ?readPartition, fun a len h hf hfit => ?isEmptyFlash⟩
  case readBuf =>
    exact ⟨s.readBuf o len.toNat, by simp [State.readBuf], fun i hi => s.readBuf_getD hi,
      exec_sendData h hlen hpos hf hq (if_pos (bufRangeOk_iff.mpr hfit))⟩
  case readRam =>
    exact ⟨s.readRam a len.toNat, by simp [State.readRam], fun i hi => s.readRam_getD hi,
      exec_sendData h hlen hpos hf hq (if_pos hfit)⟩
  case readFlash =>
    exact ⟨s.readFlash a.toNat len.toNat, s.readFlash_length _ _, fun i hi => s.readFlash_getD hi,
      exec_sendData h hlen hpos hf hq (if_pos (flashFits_iff.mpr hfit))⟩
  case readOtp =>
    exact ⟨readCells s w.toNat k.toNat, readCells_length s _ _, fun i hi => readCells_getD s hi,
      exec_sendData h hlen hpos hf hq (if_pos (otpFits_iff.mpr hfit))⟩
  case readPartition =>
    have hdata : readPartitionHandler.sendData s.popRx (.readPartition id off len) q =
        .data (s.readFlash a len.toNat) [.read .flash a len.toNat] := by
      simp only [readPartitionHandler, State.popRx_cfg, ha]
      rfl
    exact ⟨s.readFlash a len.toNat, s.readFlash_length _ _, fun i hi => s.readFlash_getD hi,
      exec_sendData h hlen hpos hf hq hdata⟩
  case isEmptyFlash =>
    obtain ⟨hk, hbefore, hat⟩ := s.firstProgrammed_readFlash a.toNat len.toNat
    exact ⟨_, hk, hbefore, hat, exec_sendData h hlen hpos hf hq (if_pos (flashFits_iff.mpr hfit))⟩

/-- Settles O44: `SendData` of these commands is the configuration's bytes or the draw kept in the record. -/
theorem constantResponses : Obligations.ConstantResponses := by
  unfold Obligations.ConstantResponses
  intro s c r rlen f q hlen hpos hf hq
  exact ⟨fun h => exec_sendData h hlen hpos hf hq rfl, fun h => exec_sendData h hlen hpos hf hq rfl,
    fun h => exec_sendData h hlen hpos hf hq rfl, fun h => exec_sendData h hlen hpos hf hq rfl⟩

/-! ## What a command queues (41_framing_fsm.md R154) -/

/-- A command with a response, RUN and DUMMY queue nothing. -/
theorem program_nil {n : Command} (h : n.hasResponse = true ∨ n = .run ∨ n = .dummy) (cfg : Config)
    (f : HdrFields Tagged) (pld : List Byte) : (handlerOf n).program cfg f pld = [] := by
  cases n
  case writeRam | copyToFlash | eraseFlash | chipEraseFlash | writeOtp | writePartition | directWriteFlash | changeBaud
    | gpioWd => exact absurd h (by decide)
  all_goals rfl

/-- Settles O37, command by command. -/
theorem execPrograms : Obligations.ExecPrograms := by
  unfold Obligations.ExecPrograms
  intro cfg pld
  refine ⟨fun _ => rfl, fun _ _ _ => rfl, fun _ _ => rfl, rfl, fun _ => rfl, fun id off a ha => ?_, fun a => ?_,
    fun a v hv => ?_, fun _ => rfl, fun _ => rfl, fun n f h => program_nil h cfg f pld⟩
  · simp only [handlerOf, writePartitionHandler, ha]
  · exact List.append_nil _
  · exact congrArg (safeWrite a.toNat pld ++ ·) (if_neg hv)

/-! ## A queue run to its end (41_framing_fsm.md R155) -/

/-- The storage primitives of the queue `xq`, each with the work it leaves in front of the rest, take `s` to `t`. -/
inductive Performs : List ExecOp → State → State → Prop
  | nil (s : State) : Performs [] s s
  | cons {op : ExecOp} {more rest : List ExecOp} {s t u : State} (hp : op.pure = false)
      (e : perform op s = some (t, more)) (h : Performs (more ++ rest) t u) : Performs (op :: rest) s u

/-- A primitive that leaves no work. -/
theorem Performs.single {op : ExecOp} {s t : State} (hp : op.pure = false) (e : perform op s = some (t, [])) :
    Performs [op] s t := .cons hp e (.nil t)

theorem Performs.append {xq yq : List ExecOp} {s t u : State} (h : Performs xq s t) (h' : Performs yq t u) :
    Performs (xq ++ yq) s u := by
  induction h with
  | nil s => exact h'
  | cons hp e _ ih =>
    have ih := ih h'
    rw [List.append_assoc] at ih
    exact .cons hp e ih

theorem execTimes_succ {i : Instr} {s t : State} (h : exec i s = .next t) (k : Nat) :
    execTimes i (k + 1) s = execTimes i k t := by simp only [execTimes, h]

/-- `Performs` speaks of no record, so the exec-steps follow it from any record that holds the queue. -/
theorem Performs.run_record {n : Command} {f : HdrFields Tagged} {xq rest : List ExecOp} {s t : State}
    (h : Performs xq s t) : ∀ c, { s with cmd := some c }.Executing c n f (xq ++ rest) →
    ∃ k, execTimes n.toInstr k { s with cmd := some c } = .next { t with cmd := some { c with xq := some rest } } := by
  induction h with
  | nil s =>
    intro c hs
    have hc : { c with xq := some rest } = c := by rw [← List.nil_append rest, ← hs.queue]
    exact ⟨0, by rw [hc]; rfl⟩
  | @cons op more xs s t u hp e _ ih =>
    intro c hs
    have hstep := exec_primitive (t := { t with cmd := some c }) (more := more) hs hp (by rw [perform_cmd, e]; rfl)
    have hk : t.ctl = .exec := (perform_frame e).2.1.trans hs.ctl
    obtain ⟨k, hrun⟩ := ih { c with xq := some (more ++ (xs ++ rest)) }
      ⟨hk, rfl, hs.name, hs.fields, by rw [List.append_assoc]⟩
    exact ⟨k + 1, (execTimes_succ hstep k).trans hrun⟩

/-- The exec-steps of a command do what the primitives at the head of its queue do, and leave the rest of the queue. -/
theorem Performs.run {n : Command} {f : HdrFields Tagged} {xq rest : List ExecOp} {s t : State} {c : Cmd}
    (h : Performs xq s t) (hs : s.Executing c n f (xq ++ rest)) :
    ∃ k, execTimes n.toInstr k s = .next { t with cmd := some { c with xq := some rest } } := by
  have hc : { s with cmd := some c } = s := by rw [← hs.cmd]
  have hrun := h.run_record (n := n) (f := f) (rest := rest) c (by rw [hc]; exact hs)
  rwa [hc] at hrun

theorem Performs.run_all {n : Command} {f : HdrFields Tagged} {xq : List ExecOp} {s t : State} {c : Cmd}
    (h : Performs xq s t) (hs : s.Executing c n f xq) :
    ∃ k, execTimes n.toInstr k s = .next { t with cmd := some { c with xq := some [] } } :=
  h.run (by rwa [List.append_nil])

/-! ## Erasing flash (42_commands.md R195, R196; 43_flash_safety.md R250) -/

/-- Without faults, erasing the chip leaves no flash byte programmed and draws nothing (20_memory.md R63). -/
theorem State.eraseChip_normal {s : State} (hnf : s.cfg.storageFaults = false) :
    s.eraseChip = (s.setFlash []).emit [.chipErase] := by
  simp [State.eraseChip, State.afterFault, hnf, Memory.cellsFrom]

/-- Settles O54: the one primitive of the program, on an empty list of programmed bytes. -/
theorem chipEraseResult : Obligations.ChipEraseResult := by
  unfold Obligations.ChipEraseResult
  intro s c f rest hnf h
  have hp : perform .chipErase s = some (s.eraseChip, []) := rfl
  rw [State.eraseChip_normal hnf] at hp
  exact ⟨_, exec_primitive h rfl hp, rfl, fun _ => rfl⟩

/-- A sector erased without faults. -/
theorem State.eraseSector_byte_normal {s : State} (hnf : s.cfg.storageFaults = false) (s₀ x : Nat) :
    (s.eraseSector s₀).flashByte x = if s₀ ≤ x ∧ x < s₀ + s.cfg.sectorSize then 0xFF else s.flashByte x := by
  rw [State.eraseSector_byte, (State.disturbed_normal hnf _).1]
  exact ite_congr rfl (fun hx => List.getD_replicate _ (by omega)) fun _ => rfl

/-- `k` sectors from `first` on erased in order: they are one erased range, and each logs its event. -/
theorem performs_erases {s : State} (hnf : s.cfg.storageFaults = false) {first : Nat} (hal : s.cfg.sectorSize ∣ first)
    (k : Nat) (hfit : first + k * s.cfg.sectorSize ≤ s.cfg.flashSize) :
    ∃ t, Performs ((List.range k).map fun i => .erase (first + i * s.cfg.sectorSize)) s t ∧
      t = { s with
        flash := t.flash
        evl := s.evl ++ (List.range k).map fun i => Event.erase (first + i * s.cfg.sectorSize) } ∧
      ∀ x, t.flashByte x = if first ≤ x ∧ x < first + k * s.cfg.sectorSize then 0xFF else s.flashByte x := by
  induction k with
  | zero => exact ⟨s, .nil s, by simp, fun x => (if_neg (by omega)).symm⟩
  | succ k ih =>
    rw [Nat.succ_mul] at hfit
    obtain ⟨t, hrun, ht, hbytes⟩ := ih (by omega)
    have hcfg : t.cfg = s.cfg := by rw [ht]
    have hnext : s.cfg.sectorSize ∣ first + k * s.cfg.sectorSize := hal.add (Nat.dvd_mul_left _ _)
    have hp : perform (.erase (first + k * s.cfg.sectorSize)) t = some (t.eraseSector _, []) :=
      perform_erase (by rw [hcfg]; exact Nat.mod_eq_zero_of_dvd hnext) (by rw [hcfg]; omega)
    refine ⟨t.eraseSector (first + k * s.cfg.sectorSize), ?_, ?_, fun x => ?_⟩
    · rw [List.range_succ, List.map_append]
      exact hrun.append (.single rfl hp)
    · rw [State.eraseSector_normal (hcfg ▸ hnf), ht]
      simp [State.setFlash, State.emit, List.range_succ]
    · rw [State.eraseSector_byte_normal (hcfg ▸ hnf), hbytes, hcfg, Nat.succ_mul]
      by_cases hlast : first + k * s.cfg.sectorSize ≤ x ∧ x < first + k * s.cfg.sectorSize + s.cfg.sectorSize
      · rw [if_pos hlast, if_pos (by omega)]
      · rw [if_neg hlast]
        exact if_congr (by omega) rfl rfl

theorem sectorOf_mono (cfg : Config) {x y : Nat} (h : x ≤ y) : sectorOf cfg x ≤ sectorOf cfg y := by
  have hdiv (z : Nat) : sectorOf cfg z = z / cfg.sectorSize * cfg.sectorSize := Nat.div_mul_self_eq_mod_sub_self.symm
  rw [hdiv, hdiv]
  exact Nat.mul_le_mul_right _ (Nat.div_le_div_right h)

/-- The sectors from that of `x` to that of `y`, counted, end with the latter. -/
theorem sectors_between (cfg : Config) {x y : Nat} (h : x ≤ y) :
    sectorOf cfg x + ((sectorOf cfg y - sectorOf cfg x) / cfg.sectorSize + 1) * cfg.sectorSize =
      sectorOf cfg y + cfg.sectorSize := by
  have hmono := sectorOf_mono cfg h
  have hdvd := Nat.dvd_sub (sectorSize_dvd_sectorOf cfg y) (sectorSize_dvd_sectorOf cfg x)
  rw [Nat.succ_mul, Nat.div_mul_cancel hdvd]
  omega

/-- Settles O53: the sectors of the queue are one range, from the first byte's sector to the end of the last byte's. -/
theorem eraseFlashResult : Obligations.EraseFlashResult := by
  unfold Obligations.EraseFlashResult
  intro s c f a len hw hnf hfit h
  by_cases hlen : len = 0
  · have hq : eraseRange s.cfg a len = [] := if_pos hlen
    obtain ⟨k, hk⟩ := (Performs.nil s).run_all (n := .eraseFlash) (hq ▸ h)
    exact ⟨k, _, [], hk, by simp, fun x => (if_neg (by omega)).symm, (if_pos hlen).symm⟩
  · have hend := sectors_between s.cfg (x := a) (y := a + len - 1) (by omega)
    have hlast : sectorOf s.cfg (a + len - 1) ≤ a + len - 1 := (sector_rest hw.sectorSize _).1
    have hin := sector_fits hw (sectorSize_dvd_sectorOf s.cfg (a + len - 1)) (by omega)
    obtain ⟨t, hrun, ht, hbytes⟩ := performs_erases hnf (sectorSize_dvd_sectorOf s.cfg a) _ (hend.trans_le hin)
    have hq : eraseRange s.cfg a len = _ := if_neg hlen
    obtain ⟨k, hk⟩ := hrun.run_all (n := .eraseFlash) (hq ▸ h)
    refine ⟨k, _, _, hk, by rw [ht], fun x => ?_, (if_neg hlen).symm⟩
    exact (hbytes x).trans (if_congr (by omega) rfl rfl)

/-! ## Programming OTP (42_commands.md R198) -/

/-- A cell programmed without faults: each byte of it ANDed, whatever it held (20_memory.md R65; 44_otp_safety.md R280). -/
theorem State.programCell_byte_normal {s : State} (hnf : s.cfg.storageFaults = false) {w : Nat} {v : List Byte}
    (hv : v.length = s.cfg.w8) (x : Nat) :
    (s.programCell w v).otpByte x = if w * s.cfg.w8 ≤ x ∧ x < w * s.cfg.w8 + s.cfg.w8 then
      s.otpByte x &&& v.getD (x - w * s.cfg.w8) 0 else s.otpByte x := by
  rw [State.programCell_normal hnf]
  have hread := Memory.read_programmed Space.otp.blank s.otp (w * s.cfg.w8) s.cfg.w8 v x
  rwa [hv, min_self] at hread

theorem slice_getD {v : List Byte} {p n i : Nat} (h : i < n) : (slice v p n).getD i 0 = v.getD (p + i) 0 := by
  rw [List.getD_eq_getElem?_getD, slice_getElem?, if_pos h, List.getD_eq_getElem?_getD]

/-- The first `k` cells of a payload programmed in order: they are one ANDed range, and each logs its event. -/
theorem performs_programs {s : State} (hnf : s.cfg.storageFaults = false) {cell : Nat} {pld : List Byte} (k : Nat)
    (hpld : k * s.cfg.w8 ≤ pld.length) (hfit : cell + k ≤ s.cfg.otpWords) :
    ∃ t, Performs ((List.range k).map fun j => .program (cell + j) (slice pld (j * s.cfg.w8) s.cfg.w8)) s t ∧
      t = { s with otp := t.otp, evl := s.evl ++ (List.range k).map fun j => Event.programOtp (cell + j) } ∧
      ∀ x, t.otpByte x = if cell * s.cfg.w8 ≤ x ∧ x < cell * s.cfg.w8 + k * s.cfg.w8
        then s.otpByte x &&& pld.getD (x - cell * s.cfg.w8) 0 else s.otpByte x := by
  induction k with
  | zero => exact ⟨s, .nil s, by simp, fun x => (if_neg (by omega)).symm⟩
  | succ k ih =>
    rw [Nat.succ_mul] at hpld
    obtain ⟨t, hrun, ht, hbytes⟩ := ih (by omega) (by omega)
    have hcfg : t.cfg = s.cfg := by rw [ht]
    have hv : (slice pld (k * s.cfg.w8) s.cfg.w8).length = t.cfg.w8 := by rw [slice_length, hcfg]; omega
    have hp := perform_program (s := t) (w := cell + k) (by rw [hcfg]; omega) hv
    refine ⟨t.programCell (cell + k) (slice pld (k * s.cfg.w8) s.cfg.w8), ?_, ?_, fun x => ?_⟩
    · rw [List.range_succ, List.map_append]
      exact hrun.append (.single rfl hp)
    · rw [State.programCell_normal (hcfg ▸ hnf), ht]
      simp [State.setOtp, State.emit, List.range_succ]
    · rw [State.programCell_byte_normal (hcfg ▸ hnf) hv, hbytes, hcfg, Nat.add_mul, Nat.succ_mul]
      by_cases hlast : cell * s.cfg.w8 + k * s.cfg.w8 ≤ x ∧ x < cell * s.cfg.w8 + k * s.cfg.w8 + s.cfg.w8
      · rw [if_pos hlast, if_neg (by omega), if_pos (by omega), slice_getD (by omega)]
        congr 3
        omega
      · rw [if_neg hlast]
        exact if_congr (by omega) rfl rfl

/-- Settles O55: the exec-step of one cell, and the cells of the payload one after the other. -/
theorem writeOtpResult : Obligations.WriteOtpResult := by
  unfold Obligations.WriteOtpResult
  intro s c f hnf
  refine ⟨fun w v rest h hw hv => ?_, fun cell pld hmod hfit h => ?_⟩
  · refine ⟨_, exec_primitive h rfl (perform_program hw hv), ?_, State.programCell_byte_normal hnf hv⟩
    rw [State.programCell_normal hnf]
    rfl
  · have hlen := Nat.div_mul_cancel (Nat.dvd_of_mod_eq_zero hmod)
    obtain ⟨t, hrun, ht, hbytes⟩ := performs_programs hnf _ hlen.le hfit
    obtain ⟨k, hk⟩ := hrun.run_all (n := .writeOtp) h
    rw [hlen] at hbytes
    exact ⟨k, _, hk, by rw [ht], hbytes⟩

/-! ## The read-back of DIRECT_WRITE_FLASH (43_flash_safety.md R252) -/

/-- Settles O52: the comparison of what the flash holds with the data, in the step after the read. -/
theorem verifyMismatchFails : Obligations.VerifyMismatchFails := by
  unfold Obligations.VerifyMismatchFails
  intro s c f a data rest h hfit
  refine ⟨s.readFlash a data.length, s.readFlash_length _ _, fun i hi => s.readFlash_getD hi, ?_⟩
  intro after
  have hp : perform (.verify a data) s =
      some (s.emit [.read .flash a data.length], [.check (s.readFlash a data.length) data]) :=
    if_pos (flashFits_iff.mpr hfit)
  have hexec (xq : List ExecOp) : exec .directWriteFlash (after xq) =
      runExec directWriteFlashHandler f xq { c with xq := some xq } (after xq) :=
    exec_executing (n := .directWriteFlash) ⟨h.ctl, rfl, h.name, h.fields, rfl⟩
  refine ⟨exec_primitive h rfl hp, fun hsame => ?_, fun hdiff => ?_⟩
  · rw [hexec, hexec, runExec_check, if_pos ((s.readFlash_eq_iff a data).mpr hsame)]
    exact runExec_record (h := directWriteFlashHandler) rfl f rest { c with xq := some rest } (after rest) _ _
  · have hne : s.readFlash a data.length ≠ data := by simpa [s.readFlash_eq_iff] using hdiff
    rw [hexec, runExec_check, if_neg hne, raiseAbort_eq]
    rfl

/-! ## RUN (42_commands.md R197) -/

/-- Settles O57: RUN's program is empty, and its end is the jump. -/
theorem runAcknowledgesThenJumps : Obligations.RunAcknowledgesThenJumps := by
  unfold Obligations.RunAcknowledgesThenJumps
  intro s c target h
  refine (exec_executing h).trans ?_
  rw [runExec_nil, execDone_eq]
  rfl

end Sys2Proof.Machine
end

section
/-! The flash safety write run to its end: the ways one chunk is written, the chunks one after the other, and from them the
bytes it leaves, the sectors it erases and the events of a write that changes nothing (43_flash_safety.md R240-R254). -/

namespace Sys2Proof.Machine

/-! ## Programming and erasing: the configuration and the log -/

@[simp] theorem State.programFlash_cfg (s : State) (a : Nat) (v : List Byte) : (s.programFlash a v).cfg = s.cfg := by
  simp [State.programFlash]

@[simp] theorem State.programFlash_evl (s : State) (a : Nat) (v : List Byte) :
    (s.programFlash a v).evl = s.evl ++ [.write .flash a v.length] := by
  simp [State.programFlash]

@[simp] theorem State.eraseSector_cfg (s : State) (s₀ : Nat) : (s.eraseSector s₀).cfg = s.cfg := by
  simp [State.eraseSector]

@[simp] theorem State.eraseSector_evl (s : State) (s₀ : Nat) : (s.eraseSector s₀).evl = s.evl ++ [.erase s₀] := by
  simp [State.eraseSector]

/-- Without faults, programming ANDs each byte of its range (20_memory.md R64). -/
theorem State.programFlash_byte_normal {s : State} (hnf : s.cfg.storageFaults = false) (a : Nat) (v : List Byte)
    (x : Nat) : (s.programFlash a v).flashByte x =
      if a ≤ x ∧ x < a + v.length then s.flashByte x &&& v.getD (x - a) 0 else s.flashByte x := by
  rw [State.programFlash_normal hnf]
  have hread := Memory.read_programmed Space.flash.blank s.flash a v.length v x
  rwa [min_self] at hread

/-! ## The bytes to compare, to test and to merge (20_memory.md R67; 43_flash_safety.md R242) -/

theorem diffs_getElem {cur new : List Byte} (hlen : cur.length = new.length) {i : Nat} (hi : i < (diffs cur new).length) :
    (diffs cur new)[i] = (cur.getD i 0 != new.getD i 0) := by
  have hnew : i < new.length := by simp [diffs] at hi; omega
  simp [diffs, List.getD_eq_getElem?_getD, hnew, hlen]

/-- Before the first difference the two ranges agree. -/
theorem getD_eq_of_lt_firstDiff {cur new : List Byte} (hlen : cur.length = new.length) {i : Nat}
    (hi : i < firstDiff cur new) : cur.getD i 0 = new.getD i 0 := by
  have hnot := List.not_of_lt_findIdx hi
  rw [diffs_getElem hlen] at hnot
  simpa using hnot

/-- From the end of the differing span on the two ranges agree. -/
theorem getD_eq_of_endDiff_le {cur new : List Byte} (hlen : cur.length = new.length) {i : Nat}
    (hi : endDiff cur new ≤ i) : cur.getD i 0 = new.getD i 0 := by
  have hdiffs : (diffs cur new).length = new.length := by simp [diffs, hlen]
  by_cases hin : i < new.length
  · have hback : new.length - 1 - i < (diffs cur new).reverse.findIdx id := by unfold endDiff at hi; omega
    have hnot := List.not_of_lt_findIdx hback
    rw [List.getElem_reverse, diffs_getElem hlen] at hnot
    simpa [hdiffs, show new.length - 1 - (new.length - 1 - i) = i by omega] using hnot
  · rw [List.getD_eq_default _ _ (by omega), List.getD_eq_default _ _ (by omega)]

theorem endDiff_le {cur new : List Byte} (hlen : cur.length = new.length) : endDiff cur new ≤ new.length := by
  simp [endDiff, diffs, hlen]

/-- Ranges that differ have a differing span. -/
theorem firstDiff_lt_endDiff {cur new : List Byte} (hlen : cur.length = new.length) (hne : cur ≠ new) :
    firstDiff cur new < endDiff cur new := by
  by_contra hempty
  refine hne (List.ext_getElem hlen fun i hc hn => ?_)
  rw [← List.getD_eq_getElem _ 0 hc, ← List.getD_eq_getElem _ 0 hn]
  by_cases hi : i < firstDiff cur new
  · exact getD_eq_of_lt_firstDiff hlen hi
  · exact getD_eq_of_endDiff_le hlen (by omega)

/-- Bytes equal to those there raise no bit of them. -/
theorem updatePossible_self (v : List Byte) : updatePossible v v = true :=
  (updatePossible_iff rfl).mpr fun _ _ => BitVec.and_not_self _

theorem getD_of_erasedOutside {sec : List Byte} {p k : Nat} (h : erasedOutside sec p k = true) {i : Nat}
    (hi : i < sec.length) (hout : i < p ∨ p + k ≤ i) : sec.getD i 0 = 0xFF := by
  simp only [erasedOutside, List.all_eq_true, List.mem_append, beq_iff_eq] at h
  rw [List.getD_eq_getElem _ 0 hi]
  refine h _ (hout.imp (fun hp => ?_) fun hk => ?_)
  · exact List.mem_take_iff_getElem.mpr ⟨i, by omega, rfl⟩
  · exact List.mem_drop_iff_getElem.mpr ⟨i - (p + k), by omega, by simp [hk]⟩

theorem splice_getD {sec v : List Byte} {p : Nat} (h : p + v.length ≤ sec.length) (i : Nat) :
    (splice sec p v).getD i 0 = if p ≤ i ∧ i < p + v.length then v.getD (i - p) 0 else sec.getD i 0 := by
  simp only [List.getD_eq_getElem?_getD, splice_getElem? h]
  split <;> rfl

/-! ## Ranges inside one sector (43_flash_safety.md R241, R247) -/

/-- `n` bytes from `x` on, at least one, all of them in the sector of `a`. -/
structure InSector (cfg : Config) (a x n : Nat) : Prop where
  pos : 0 < n
  lo : sectorOf cfg a ≤ x
  hi : x + n ≤ sectorOf cfg a + cfg.sectorSize

theorem sectorOf_eq {cfg : Config} {s₀ x : Nat} (hd : cfg.sectorSize ∣ s₀) (hlo : s₀ ≤ x)
    (hhi : x < s₀ + cfg.sectorSize) : sectorOf cfg x = s₀ := by
  obtain ⟨k, rfl⟩ := hd
  obtain ⟨r, rfl⟩ := Nat.exists_eq_add_of_le hlo
  have hmod : (cfg.sectorSize * k + r) % cfg.sectorSize = r := by
    rw [Nat.mul_add_mod, Nat.mod_eq_of_lt (by omega)]
  unfold sectorOf
  omega

/-- Every byte of the range has the sector of `a`. -/
theorem InSector.sectorOf_eq {cfg : Config} {a x n : Nat} (h : InSector cfg a x n) {y : Nat} (hlo : x ≤ y)
    (hhi : y < x + n) : sectorOf cfg y = sectorOf cfg a :=
  Machine.sectorOf_eq (sectorSize_dvd_sectorOf cfg a) (h.lo.trans hlo) (hhi.trans_le h.hi)

/-- A range in the sector of a flash byte lies in the flash (00_scope.md R8). -/
theorem InSector.fits {cfg : Config} (hw : cfg.WF) {a x n : Nat} (h : InSector cfg a x n) (ha : a < cfg.flashSize) :
    x + n ≤ cfg.flashSize :=
  h.hi.trans (sector_fits hw (sectorSize_dvd_sectorOf cfg a) ((Nat.sub_le _ _).trans_lt ha))

/-- A chunk is not empty and ends with the data or with its sector (43_flash_safety.md R241). -/
theorem chunkLen_inSector {cfg : Config} (hw : cfg.WF) (a : Nat) {n : Nat} (hn : 0 < n) :
    InSector cfg a a (chunkLen cfg a n) ∧
      (chunkLen cfg a n = n ∨ chunkLen cfg a n ≤ n ∧ a + chunkLen cfg a n = sectorOf cfg a + cfg.sectorSize) := by
  obtain ⟨hlo, hhi⟩ := sector_rest hw.sectorSize a
  unfold chunkLen
  exact ⟨⟨by omega, hlo, by omega⟩, by omega⟩

/-! ## The ways one chunk is written (43_flash_safety.md R243-R246) -/

/-- The byte at `x` when the flash holds `v` from `a` on and is otherwise as it was. -/
def State.flashWith (s : State) (a : Nat) (v : List Byte) (x : Nat) : Byte :=
  if a ≤ x ∧ x < a + v.length then v.getD (x - a) 0 else s.flashByte x

/-- The byte at `y` once `w` is programmed from `x` on into an erased sector. -/
def erasedWith (x : Nat) (w : List Byte) (y : Nat) : Byte :=
  if x ≤ y ∧ y < x + w.length then w.getD (y - x) 0 else 0xFF

/-- The whole sector of `a`, as the paths that do not replace all of it read it. -/
def State.readSector (s : State) (a : Nat) : List Byte := s.readFlash (sectorOf s.cfg a) s.cfg.sectorSize

@[simp] theorem State.readSector_length (s : State) (a : Nat) : (s.readSector a).length = s.cfg.sectorSize :=
  s.readFlash_length _ _

theorem State.readSector_getD (s : State) {a y : Nat} (hlo : sectorOf s.cfg a ≤ y)
    (hhi : y < sectorOf s.cfg a + s.cfg.sectorSize) : (s.readSector a).getD (y - sectorOf s.cfg a) 0 = s.flashByte y := by
  rw [State.readSector, State.readFlash_getD s (by omega), Nat.add_sub_cancel' hlo]

/-- What writing the chunk `v` at `a`, once it is read, can do: nothing where the flash holds `v`; else one write of a range
that differs, or an erase of the sector and one write. `image` says that, without faults, the write leaves `v` and every other
byte of the sector as they should be. -/
inductive ChunkWritten (s : State) (a : Nat) (v : List Byte) : State → Prop
  | same (hold : s.readFlash a v.length = v) : ChunkWritten s a v s
  | inPlace {x : Nat} {w : List Byte} (differ : s.readFlash a v.length ≠ v) (sector : InSector s.cfg a x w.length)
      (image : ∀ y, (if x ≤ y ∧ y < x + w.length then s.flashByte y &&& w.getD (y - x) 0 else s.flashByte y) =
        s.flashWith a v y) : ChunkWritten s a v (s.programFlash x w)
  | erase {x : Nat} {w : List Byte} {es : List Event} (differ : s.readFlash a v.length ≠ v)
      (reads : ∀ e ∈ es, ∃ y m, e = .read .flash y m) (sector : InSector s.cfg a x w.length)
      (image : ∀ y, sectorOf s.cfg a ≤ y → y < sectorOf s.cfg a + s.cfg.sectorSize →
        erasedWith x w y = s.flashWith a v y) :
      ChunkWritten s a v (((s.emit es).eraseSector (sectorOf s.cfg a)).programFlash x w)

/-- Bytes that differ only inside a span, and raise no bit there, are written by programming the span (R243). -/
theorem image_inPlace {s : State} {a f n : Nat} {v : List Byte} (hn : f + n ≤ v.length)
    (hclear : ∀ i < v.length, v.getD i 0 &&& ~~~(s.flashByte (a + i)) = 0)
    (hsame : ∀ i < v.length, i < f ∨ f + n ≤ i → s.flashByte (a + i) = v.getD i 0) (y : Nat) :
    (if a + f ≤ y ∧ y < a + f + (slice v f n).length then s.flashByte y &&& (slice v f n).getD (y - (a + f)) 0
      else s.flashByte y) = s.flashWith a v y := by
  rw [slice_length, show min n (v.length - f) = n by omega]
  unfold State.flashWith
  by_cases hv : a ≤ y ∧ y < a + v.length
  · obtain ⟨i, rfl⟩ := Nat.exists_eq_add_of_le hv.1
    have hi : i < v.length := by omega
    rw [if_pos hv, Nat.add_sub_cancel_left]
    by_cases hspan : a + f ≤ a + i ∧ a + i < a + f + n
    · rw [if_pos hspan, slice_getD (by omega), show f + (a + i - (a + f)) = i by omega]
      exact and_eq_of_clears (hclear i hi)
    · rw [if_neg hspan]
      exact hsame i hi (by omega)
  · rw [if_neg hv, if_neg (by omega)]

/-- A whole sector written into an erased one (R244). -/
theorem image_wholeSector {s : State} {a : Nat} {v : List Byte} (ha : a = sectorOf s.cfg a)
    (hv : v.length = s.cfg.sectorSize) {y : Nat} (hlo : sectorOf s.cfg a ≤ y)
    (hhi : y < sectorOf s.cfg a + s.cfg.sectorSize) : erasedWith a v y = s.flashWith a v y := by
  unfold erasedWith State.flashWith
  rw [if_pos (by omega), if_pos (by omega)]

/-- A chunk written into an erased sector whose other bytes were erased before (R245). -/
theorem image_erasedRest {s : State} {a : Nat} {v : List Byte} (ha : sectorOf s.cfg a ≤ a)
    (h : erasedOutside (s.readSector a) (a - sectorOf s.cfg a) v.length = true) {y : Nat}
    (hlo : sectorOf s.cfg a ≤ y) (hhi : y < sectorOf s.cfg a + s.cfg.sectorSize) :
    erasedWith a v y = s.flashWith a v y := by
  refine ite_congr rfl (fun _ => rfl) fun hout => ?_
  rw [← s.readSector_getD hlo hhi]
  exact (getD_of_erasedOutside h (by rw [State.readSector_length]; omega) (by omega)).symm

/-- A chunk lies in its sector at its offset there. -/
theorem InSector.offset_le {s : State} {a : Nat} {v : List Byte} (hv : InSector s.cfg a a v.length) :
    a - sectorOf s.cfg a + v.length ≤ (s.readSector a).length := by
  obtain ⟨-, hlo, hhi⟩ := hv
  rw [State.readSector_length]
  omega

/-- The old sector with the chunk spliced in, written into the erased sector (R246). -/
theorem image_merge {s : State} {a : Nat} {v : List Byte} (hv : InSector s.cfg a a v.length) {y : Nat}
    (hlo : sectorOf s.cfg a ≤ y) (hhi : y < sectorOf s.cfg a + s.cfg.sectorSize) :
    erasedWith (sectorOf s.cfg a) (splice (s.readSector a) (a - sectorOf s.cfg a) v) y = s.flashWith a v y := by
  have ha := hv.lo
  unfold erasedWith State.flashWith
  rw [splice_length hv.offset_le, State.readSector_length, if_pos ⟨hlo, hhi⟩, splice_getD hv.offset_le,
    s.readSector_getD hlo hhi, Nat.sub_sub_sub_cancel_right ha]
  exact if_congr (by omega) rfl rfl

/-! ## One chunk run to its end (43_flash_safety.md R242) -/

/-- The sector erased, then one write inside it: the end of the paths that need an erase. -/
theorem performs_eraseWrite {s : State} (hw : s.cfg.WF) {a x : Nat} {w : List Byte} (ha : a < s.cfg.flashSize)
    (hx : InSector s.cfg a x w.length) : Performs [.erase (sectorOf s.cfg a), .flashWrite x w] s
      ((s.eraseSector (sectorOf s.cfg a)).programFlash x w) := by
  have hd := sectorSize_dvd_sectorOf s.cfg a
  have hlt : sectorOf s.cfg a < s.cfg.flashSize := (Nat.sub_le _ _).trans_lt ha
  exact .cons rfl (perform_erase (Nat.mod_eq_zero_of_dvd hd) (sector_fits hw hd hlt))
    (.single rfl (perform_flashWrite (by rw [State.eraseSector_cfg]; exact hx.fits hw ha)))

/-- The whole-sector read, then the erased-rest or the merge path (R245, R246). -/
theorem sector_performs {s : State} (hw : s.cfg.WF) {a : Nat} {v : List Byte} (ha : a < s.cfg.flashSize)
    (hv : InSector s.cfg a a v.length) (hdiff : s.readFlash a v.length ≠ v) :
    ∃ t, Performs [.sector a v] s t ∧ ChunkWritten s a v t := by
  have hfit := sector_fits hw (sectorSize_dvd_sectorOf s.cfg a) (hv.lo.trans_lt ha)
  have hp : perform (.sector a v) s = some (s.emit [.read .flash (sectorOf s.cfg a) s.cfg.sectorSize],
      sectorPlan s.cfg a v (s.readSector a)) := if_pos (flashFits_iff.mpr hfit)
  have hreads : ∀ e ∈ [Event.read .flash (sectorOf s.cfg a) s.cfg.sectorSize], ∃ y m, e = .read .flash y m :=
    fun e he => ⟨_, _, List.mem_singleton.mp he⟩
  by_cases hrest : erasedOutside (s.readSector a) (a - sectorOf s.cfg a) v.length = true
  · have hplan : sectorPlan s.cfg a v (s.readSector a) = _ := if_pos hrest
    rw [hplan] at hp
    exact ⟨_, .cons rfl hp (performs_eraseWrite (s := s.emit _) hw ha hv),
      .erase hdiff hreads hv fun _ hlo hhi => image_erasedRest hv.lo hrest hlo hhi⟩
  · have hplan : sectorPlan s.cfg a v (s.readSector a) = _ := if_neg hrest
    rw [hplan] at hp
    have hx : InSector s.cfg a (sectorOf s.cfg a) (splice (s.readSector a) (a - sectorOf s.cfg a) v).length := by
      rw [splice_length hv.offset_le, State.readSector_length]
      exact ⟨hw.sectorSize, le_rfl, le_rfl⟩
    exact ⟨_, .cons rfl hp (performs_eraseWrite (s := s.emit _) hw ha hx),
      .erase hdiff hreads hx fun _ hlo hhi => image_merge hv hlo hhi⟩

/-- The in-place path: one write of the differing span (R243). -/
theorem inPlace_performs {s : State} (hw : s.cfg.WF) {a : Nat} {v : List Byte} (ha : a < s.cfg.flashSize)
    (hv : InSector s.cfg a a v.length) (hu : updatePossible (s.readFlash a v.length) v = true)
    (hdiff : s.readFlash a v.length ≠ v) :
    let cur := s.readFlash a v.length
    ∃ t, Performs [.flashWrite (a + firstDiff cur v) (slice v (firstDiff cur v) (endDiff cur v - firstDiff cur v))] s t ∧
      ChunkWritten s a v t := by
  intro cur
  have hlen : cur.length = v.length := s.readFlash_length a v.length
  have hspan := firstDiff_lt_endDiff hlen hdiff
  have hend := endDiff_le hlen
  have hread {i : Nat} (hi : i < v.length) : cur.getD i 0 = s.flashByte (a + i) := s.readFlash_getD hi
  have hx : InSector s.cfg a (a + firstDiff cur v)
      (slice v (firstDiff cur v) (endDiff cur v - firstDiff cur v)).length := by
    obtain ⟨-, hlo, hhi⟩ := hv
    rw [slice_length]
    exact ⟨by omega, by omega, by omega⟩
  refine ⟨_, .single rfl (perform_flashWrite (hx.fits hw ha)), .inPlace hdiff hx (image_inPlace (by omega) ?_ ?_)⟩
  · intro i hi
    rw [← hread hi]
    exact (updatePossible_iff hlen).mp hu i hi
  · intro i hi hout
    rw [← hread hi]
    exact hout.elim (getD_eq_of_lt_firstDiff hlen) fun hle => getD_eq_of_endDiff_le hlen (by omega)

/-- Once a chunk is read, its plan is one of the paths of R243-R246. -/
theorem chunkPlan_performs {s : State} (hw : s.cfg.WF) {a : Nat} {v : List Byte} (ha : a < s.cfg.flashSize)
    (hv : InSector s.cfg a a v.length) :
    ∃ t, Performs (chunkPlan s.cfg a v (s.readFlash a v.length)) s t ∧ ChunkWritten s a v t := by
  unfold chunkPlan
  split
  next hu =>
    split
    next hsame => exact ⟨s, .nil s, .same hsame⟩
    next hdiff => exact inPlace_performs hw ha hv hu hdiff
  next hu =>
    have hdiff : s.readFlash a v.length ≠ v := fun h => hu (by rw [h]; exact updatePossible_self v)
    split
    next hwhole =>
      obtain ⟨hbase, hsize⟩ := hwhole
      have hrun := performs_eraseWrite hw ha hv
      rw [← hbase] at hrun
      refine ⟨_, hrun, ?_⟩
      have hwritten := ChunkWritten.erase (es := []) hdiff (by simp) hv fun _ hlo hhi =>
        image_wholeSector hbase hsize hlo hhi
      rwa [State.emit_nil, ← hbase] at hwritten
    next => exact sector_performs hw ha hv hdiff

/-! ## The chunks one after the other (43_flash_safety.md R241, R242) -/

/-- What the safety write of `data` at `a` can do: each chunk is read and written; one that is not the last ends with its
sector. -/
inductive SafeWritten : Nat → List Byte → State → State → Prop
  | nil (a : Nat) (s : State) : SafeWritten a [] s s
  | chunk {a : Nat} {v w : List Byte} {s t u : State} (sector : InSector s.cfg a a v.length)
      (boundary : w = [] ∨ a + v.length = sectorOf s.cfg a + s.cfg.sectorSize)
      (first : ChunkWritten (s.emit [.read .flash a v.length]) a v t) (others : SafeWritten (a + v.length) w t u) :
      SafeWritten a (v ++ w) s u

theorem ChunkWritten.cfg_eq {s t : State} {a : Nat} {v : List Byte} (h : ChunkWritten s a v t) : t.cfg = s.cfg := by
  cases h <;> simp

/-- The read of the first chunk. -/
theorem perform_chunk {s : State} {a : Nat} {v w : List Byte} (hfit : a + (v ++ w).length ≤ s.cfg.flashSize)
    (hlen : chunkLen s.cfg a (v ++ w).length = v.length) : perform (.chunk a (v ++ w)) s =
      some (s.emit [.read .flash a v.length],
        chunkPlan s.cfg a v (s.readFlash a v.length) ++ safeWrite (a + v.length) w) := by
  refine (if_pos (flashFits_iff.mpr hfit)).trans ?_
  simp only [hlen, List.take_left, List.drop_left]

/-- The safety write runs to its end, chunk by chunk. -/
theorem safeWrite_performs (data : List Byte) (a : Nat) (s : State) (hw : s.cfg.WF)
    (hfit : a + data.length ≤ s.cfg.flashSize) : ∃ t, Performs (safeWrite a data) s t ∧ SafeWritten a data s t := by
  by_cases hdata : data = []
  · subst hdata
    exact ⟨s, .nil s, .nil a s⟩
  have hpos : 0 < data.length := List.length_pos_iff.mpr hdata
  obtain ⟨hin, hend⟩ := chunkLen_inSector hw a hpos
  obtain ⟨v, w, rfl, hlen⟩ : ∃ v w, data = v ++ w ∧ chunkLen s.cfg a data.length = v.length :=
    ⟨data.take (chunkLen s.cfg a data.length), data.drop _, (List.take_append_drop _ _).symm, by
      rw [List.length_take]; omega⟩
  rw [hlen] at hin hend
  have hp := perform_chunk hfit hlen
  have hv := hin.pos
  rw [List.length_append] at hfit hend
  obtain ⟨t, hfirst, hwritten⟩ := chunkPlan_performs (s := s.emit [.read .flash a v.length]) hw
    (show a < s.cfg.flashSize by omega) hin
  have hcfg : t.cfg = s.cfg := hwritten.cfg_eq
  obtain ⟨u, hrest, hothers⟩ := safeWrite_performs w (a + v.length) t (hcfg ▸ hw) (by rw [hcfg]; omega)
  refine ⟨u, ?_, .chunk hin ?_ hwritten hothers⟩
  · rw [safeWrite, if_neg (by simpa using hdata)]
    exact .cons rfl hp (by rw [List.append_nil]; exact hfirst.append hrest)
  · exact hend.imp (fun h => List.length_eq_zero_iff.mp (by omega)) And.right
termination_by data.length
decreasing_by
  subst data
  rw [List.length_append]
  omega

/-! ## The bytes it leaves (43_flash_safety.md R254) -/

/-- Only the flash and the event log may differ. -/
def State.OnlyFlash (s t : State) : Prop := t = { s with flash := t.flash, evl := t.evl }

theorem State.OnlyFlash.trans {s t u : State} (h : s.OnlyFlash t) (h' : t.OnlyFlash u) : s.OnlyFlash u := by
  unfold State.OnlyFlash at *
  rw [h', h]

theorem State.OnlyFlash.emit (s : State) (es : List Event) : s.OnlyFlash (s.emit es) := rfl

theorem State.OnlyFlash.programFlash {s : State} (hnf : s.cfg.storageFaults = false) (a : Nat) (v : List Byte) :
    s.OnlyFlash (s.programFlash a v) := by
  rw [State.programFlash_normal hnf]
  rfl

theorem State.OnlyFlash.eraseSector {s : State} (hnf : s.cfg.storageFaults = false) (s₀ : Nat) :
    s.OnlyFlash (s.eraseSector s₀) := by
  rw [State.eraseSector_normal hnf]
  rfl

theorem ChunkWritten.onlyFlash {s t : State} {a : Nat} {v : List Byte} (h : ChunkWritten s a v t)
    (hnf : s.cfg.storageFaults = false) : s.OnlyFlash t := by
  cases h with
  | same => rfl
  | inPlace => exact .programFlash hnf _ _
  | erase =>
    exact ((State.OnlyFlash.emit s _).trans (.eraseSector (s := s.emit _) hnf (sectorOf s.cfg a))).trans
      (.programFlash (by rw [State.eraseSector_cfg]; exact hnf) _ _)

/-- Without faults an erased sector with `w` programmed into it. -/
theorem State.eraseWrite_byte {s : State} (hnf : s.cfg.storageFaults = false) {a x : Nat} {w : List Byte}
    (hx : InSector s.cfg a x w.length) (y : Nat) :
    ((s.eraseSector (sectorOf s.cfg a)).programFlash x w).flashByte y =
      if sectorOf s.cfg a ≤ y ∧ y < sectorOf s.cfg a + s.cfg.sectorSize then erasedWith x w y else s.flashByte y := by
  have hlo := hx.lo
  have hhi := hx.hi
  rw [State.programFlash_byte_normal (by simpa using hnf), State.eraseSector_byte_normal hnf]
  by_cases hs : sectorOf s.cfg a ≤ y ∧ y < sectorOf s.cfg a + s.cfg.sectorSize
  · rw [if_pos hs, if_pos hs]
    exact ite_congr rfl (fun _ => BitVec.allOnes_and) fun _ => rfl
  · rw [if_neg hs, if_neg hs, if_neg (by omega)]

/-- Without faults every path leaves the chunk's bytes and no other change. -/
theorem ChunkWritten.flashByte_eq {s t : State} {a : Nat} {v : List Byte} (h : ChunkWritten s a v t)
    (hnf : s.cfg.storageFaults = false) (hv : InSector s.cfg a a v.length) (y : Nat) :
    t.flashByte y = s.flashWith a v y := by
  cases h with
  | same hold =>
    unfold State.flashWith
    split
    next hy =>
      rw [← (s.readFlash_eq_iff a v).mp hold (y - a) (by omega), Nat.add_sub_cancel' hy.1]
    next => rfl
  | inPlace _ _ image => exact (State.programFlash_byte_normal hnf _ _ y).trans (image y)
  | @erase x w es _ _ hx image =>
    have hbyte := State.eraseWrite_byte (s := s.emit es) hnf hx y
    refine hbyte.trans ?_
    split
    next hs => exact image y hs.1 hs.2
    next hs =>
      obtain ⟨-, hlo, hhi⟩ := hv
      exact (if_neg (by simp only [State.emit_cfg] at hs; omega)).symm

/-- Data written after data. -/
theorem State.flashWith_append {s t : State} {a : Nat} {v : List Byte} (h : ∀ y, t.flashByte y = s.flashWith a v y)
    (w : List Byte) (y : Nat) : t.flashWith (a + v.length) w y = s.flashWith a (v ++ w) y := by
  unfold State.flashWith at *
  rw [h, List.length_append]
  by_cases hv : a ≤ y ∧ y < a + v.length
  · rw [if_neg (by omega), if_pos hv, if_pos (by omega), List.getD_append _ _ _ _ (by omega)]
  · rw [if_neg hv]
    refine ite_congr (propext (by omega)) (fun hw => ?_) fun _ => rfl
    rw [List.getD_append_right _ _ _ _ (by omega), Nat.sub_sub]

theorem SafeWritten.onlyFlash {s t : State} {a : Nat} {data : List Byte} (h : SafeWritten a data s t)
    (hnf : s.cfg.storageFaults = false) : s.OnlyFlash t := by
  induction h with
  | nil => rfl
  | chunk _ _ first _ ih =>
    exact ((State.OnlyFlash.emit _ _).trans (first.onlyFlash hnf)).trans (ih (by rw [first.cfg_eq]; exact hnf))

theorem SafeWritten.flashByte_eq {s t : State} {a : Nat} {data : List Byte} (h : SafeWritten a data s t)
    (hnf : s.cfg.storageFaults = false) : ∀ y, t.flashByte y = s.flashWith a data y := by
  induction h with
  | nil a s => exact fun y => (if_neg (by simp)).symm
  | chunk hv _ first _ ih =>
    intro y
    rw [ih (by rw [first.cfg_eq]; exact hnf) y]
    exact State.flashWith_append (first.flashByte_eq hnf hv) _ y

/-- Settles O49: the queue runs to its end chunk by chunk, and each chunk leaves its bytes and no other change. -/
theorem safeWriteLeavesTheData : Obligations.SafeWriteLeavesTheData := by
  unfold Obligations.SafeWriteLeavesTheData
  intro s c n f a data rest hw hnf _ hfit h
  obtain ⟨t, hrun, hwritten⟩ := safeWrite_performs data a s hw hfit
  obtain ⟨k, hk⟩ := hrun.run h
  refine ⟨k, _, hk, ?_, hwritten.flashByte_eq hnf⟩
  have hframe := hwritten.onlyFlash hnf
  unfold State.OnlyFlash at hframe
  rw [hframe]

/-! ## The sectors it erases and the writes it issues (43_flash_safety.md R247, R248) -/

/-- The sectors that hold a byte of the range, in increasing order. -/
def sectorsOf (cfg : Config) (a n : Nat) : List Nat :=
  if n = 0 then []
  else (List.range ((sectorOf cfg (a + n - 1) - sectorOf cfg a) / cfg.sectorSize + 1)).map
    fun i => sectorOf cfg a + i * cfg.sectorSize

theorem sectorsOf_length {cfg : Config} {a n : Nat} (hn : 0 < n) : (sectorsOf cfg a n).length =
    (sectorOf cfg (a + n - 1) - sectorOf cfg a) / cfg.sectorSize + 1 := by
  simp [sectorsOf, hn.ne']

theorem sectorsOf_nodup {cfg : Config} (hw : cfg.WF) (a n : Nat) : (sectorsOf cfg a n).Nodup := by
  unfold sectorsOf
  split
  · exact List.nodup_nil
  · refine List.Nodup.map (fun i j h => ?_) List.nodup_range
    exact Nat.eq_of_mul_eq_mul_right hw.sectorSize (Nat.add_left_cancel h)

/-- A range inside the sector of `a` has this one sector, and what follows it, from the next sector on, has the others. -/
theorem sectorsOf_chunk {cfg : Config} {a n m : Nat} (hn : InSector cfg a a n)
    (hm : m = 0 ∨ a + n = sectorOf cfg a + cfg.sectorSize) :
    sectorsOf cfg a (n + m) = sectorOf cfg a :: sectorsOf cfg (a + n) m := by
  have ⟨hpos, hlo, hhi⟩ := hn
  unfold sectorsOf
  rw [if_neg (by omega)]
  by_cases hm0 : m = 0
  · rw [if_pos hm0, hm0, hn.sectorOf_eq (y := a + (n + 0) - 1) (by omega) (by omega)]
    simp
  · have hnext : a + n = sectorOf cfg a + cfg.sectorSize := hm.resolve_left hm0
    have hbase : sectorOf cfg (a + n) = sectorOf cfg a + cfg.sectorSize := by
      rw [hnext]
      exact sectorOf_eq ((sectorSize_dvd_sectorOf cfg a).add dvd_rfl) le_rfl (by omega)
    have hlast := sectorOf_mono cfg (show a + n ≤ a + n + m - 1 by omega)
    have hcount : (sectorOf cfg (a + n + m - 1) - sectorOf cfg a) / cfg.sectorSize =
        (sectorOf cfg (a + n + m - 1) - sectorOf cfg (a + n)) / cfg.sectorSize + 1 := by
      rw [← Nat.add_div_right _ (by omega)]
      congr 1
      omega
    rw [if_neg hm0, ← Nat.add_assoc, hcount, List.range_succ_eq_map, List.map_cons, List.map_map, hbase]
    refine congrArg₂ List.cons (by omega) (List.map_congr_left fun i _ => ?_)
    simp only [Function.comp_apply, Nat.succ_mul]
    omega

/-- The events R247 and R248 allow in the safety write of the `n` bytes from `a` on. -/
def Event.OfSafeWrite (cfg : Config) (a n : Nat) (e : Event) : Prop :=
  (∃ x m, e = .read .flash x m) ∨
    (∃ x m, e = .write .flash x m ∧ 0 < m ∧ sectorOf cfg x = sectorOf cfg (x + m - 1)) ∨
    (∃ x, e = .erase (sectorOf cfg x) ∧ a ≤ x ∧ x < a + n)

theorem Event.OfSafeWrite.mono {cfg : Config} {a n b m : Nat} {e : Event} (h : e.OfSafeWrite cfg b m) (hlo : a ≤ b)
    (hhi : b + m ≤ a + n) : e.OfSafeWrite cfg a n :=
  h.imp_right (Or.imp_right fun ⟨x, he, hx, hx'⟩ => ⟨x, he, hlo.trans hx, hx'.trans_le hhi⟩)

theorem InSector.write_ofSafeWrite {cfg : Config} {a b x n m : Nat} (h : InSector cfg b x m) :
    (Event.write .flash x m).OfSafeWrite cfg a n := by
  have hpos := h.pos
  refine .inr (.inl ⟨x, m, rfl, hpos, ?_⟩)
  rw [h.sectorOf_eq le_rfl (by omega), h.sectorOf_eq (y := x + m - 1) (by omega) (by omega)]

/-- Reads name no sector to erase. -/
theorem filterMap_erased_reads {es : List Event} (h : ∀ e ∈ es, ∃ y m, e = .read .flash y m) :
    es.filterMap Event.erased = [] := by
  refine List.filterMap_eq_nil_iff.mpr fun e he => ?_
  obtain ⟨y, m, rfl⟩ := h e he
  rfl

/-- Whatever the flash holds and a fault leaves, a chunk erases at most its own sector, once. -/
theorem ChunkWritten.logs {s t : State} {a : Nat} {v : List Byte} (h : ChunkWritten s a v t) (hv : 0 < v.length) :
    ∃ es, t.evl = s.evl ++ es ∧ (∀ e ∈ es, e.OfSafeWrite s.cfg a v.length) ∧
      (es.filterMap Event.erased).Sublist [sectorOf s.cfg a] := by
  cases h with
  | same => exact ⟨[], by simp, by simp, by simp⟩
  | @inPlace x w _ hx _ =>
    refine ⟨[.write .flash x w.length], s.programFlash_evl x w, ?_, by simp [Event.erased]⟩
    simpa using hx.write_ofSafeWrite
  | @erase x w es _ reads hx _ =>
    refine ⟨es ++ [.erase (sectorOf s.cfg a), .write .flash x w.length], by simp, fun e he => ?_, ?_⟩
    · simp only [List.mem_append, List.mem_cons, List.not_mem_nil, or_false] at he
      rcases he with he | rfl | rfl
      · exact .inl (reads e he)
      · exact .inr (.inr ⟨a, rfl, le_rfl, by omega⟩)
      · exact hx.write_ofSafeWrite
    · rw [List.filterMap_append, filterMap_erased_reads reads]
      exact .refl _

theorem SafeWritten.logs {s t : State} {a : Nat} {data : List Byte} (h : SafeWritten a data s t) :
    ∃ es, t.evl = s.evl ++ es ∧ (∀ e ∈ es, e.OfSafeWrite s.cfg a data.length) ∧
      (es.filterMap Event.erased).Sublist (sectorsOf s.cfg a data.length) := by
  induction h with
  | nil a s => exact ⟨[], by simp, by simp, by simp⟩
  | @chunk a v w s t u hv hend first _ ih =>
    obtain ⟨es, hes, hallowed, hsub⟩ := first.logs hv.pos
    obtain ⟨es', hes', hallowed', hsub'⟩ := ih
    have hcfg : t.cfg = s.cfg := first.cfg_eq
    rw [hcfg] at hallowed' hsub'
    refine ⟨.read .flash a v.length :: (es ++ es'), by rw [hes', hes]; simp, fun e he => ?_, ?_⟩
    · rw [List.length_append]
      rcases List.mem_cons.mp he with rfl | he
      · exact .inl ⟨_, _, rfl⟩
      rcases List.mem_append.mp he with he | he
      · exact (hallowed e he).mono le_rfl (by omega)
      · exact (hallowed' e he).mono (by omega) (by omega)
    · have herased : (Event.read .flash a v.length :: (es ++ es')).filterMap Event.erased =
          es.filterMap Event.erased ++ es'.filterMap Event.erased :=
        (List.filterMap_cons_none rfl).trans List.filterMap_append
      rw [herased, List.length_append, sectorsOf_chunk hv (hend.imp_left List.length_eq_zero_iff.mpr)]
      exact hsub.append hsub'

/-- Settles O50: the sectors erased are, in order, some of those that hold a byte of the range. -/
theorem safeWriteErasesLittle : Obligations.SafeWriteErasesLittle := by
  unfold Obligations.SafeWriteErasesLittle
  intro s c n f a data rest hw _ hfit h
  obtain ⟨t, hrun, hwritten⟩ := safeWrite_performs data a s hw hfit
  obtain ⟨k, hk⟩ := hrun.run h
  obtain ⟨es, hes, hallowed, hsub⟩ := hwritten.logs
  exact ⟨k, _, es, hk, rfl, hes, hallowed, (sectorsOf_nodup hw _ _).sublist hsub,
    fun hpos => sectorsOf_length hpos ▸ hsub.length_le⟩

/-! ## Data already there (43_flash_safety.md R243, R251) -/

/-- A chunk the flash already holds is left alone. -/
theorem ChunkWritten.eq_of_hold {s t : State} {a : Nat} {v : List Byte} (h : ChunkWritten s a v t)
    (hold : s.readFlash a v.length = v) : t = s := by
  cases h with
  | same => rfl
  | inPlace differ => exact absurd hold differ
  | erase differ => exact absurd hold differ

/-- A flash that holds data holds both its parts. -/
theorem State.readFlash_of_append {s : State} {a : Nat} {v w : List Byte}
    (h : s.readFlash a (v ++ w).length = v ++ w) :
    s.readFlash a v.length = v ∧ s.readFlash (a + v.length) w.length = w := by
  rw [List.length_append, State.readFlash, Memory.readBytes_add] at h
  exact List.append_inj h (by simp)

theorem SafeWritten.reads_of_hold {s t : State} {a : Nat} {data : List Byte} (h : SafeWritten a data s t)
    (hold : s.readFlash a data.length = data) : ∃ es, t = s.emit es ∧ ∀ e ∈ es, e.isRead = true := by
  induction h with
  | nil a s => exact ⟨[], s.emit_nil.symm, by simp⟩
  | @chunk a v w s t u _ _ first _ ih =>
    obtain ⟨hfirst, hothers⟩ := State.readFlash_of_append hold
    obtain rfl := first.eq_of_hold hfirst
    obtain ⟨es, rfl, hes⟩ := ih hothers
    exact ⟨.read .flash a v.length :: es, by simp [State.emit], by simpa [Event.isRead] using hes⟩

/-- Settles O51: every chunk of data already there is only read. -/
theorem safeWriteTwiceOnlyReads : Obligations.SafeWriteTwiceOnlyReads := by
  unfold Obligations.SafeWriteTwiceOnlyReads
  intro s c n f a data rest hw _ hfit h hold
  obtain ⟨t, hrun, hwritten⟩ := safeWrite_performs data a s hw hfit
  obtain ⟨k, hk⟩ := hrun.run h
  obtain ⟨es, rfl, hes⟩ := hwritten.reads_of_hold ((s.readFlash_eq_iff a data).mpr hold)
  exact ⟨k, es, hk, hes⟩

end Sys2Proof.Machine
end

section
/-! The guarded OTP write: what the host reads back from the wire, what the class EMPTY means cell by cell, and the exchanges the
procedure can ask for (44_otp_safety.md R270-R276). -/

namespace Sys2Proof.Machine

/-! ## Cells on the wire (44_otp_safety.md R270, R276) -/

/-- The values of a cell are the values of its `W/8` bytes. -/
theorem cell_bound_eq_bytes (cfg : Config) : 2 ^ (8 * cfg.w8) = 256 ^ cfg.w8 := Nat.pow_mul 2 8 cfg.w8

/-- The first cell is the first `W/8` bytes, the others are read from the rest. -/
theorem cellsOf_succ_append {cfg : Config} {cell : List Byte} (h : cell.length = cfg.w8) (k : Nat) (bytes : List Byte) :
    cellsOf cfg (k + 1) (cell ++ bytes) = leNat cell :: cellsOf cfg k bytes := by
  have hfirst : slice (cell ++ bytes) (0 * cfg.w8) cfg.w8 = cell :=
    slice_eq_of_append (u := []) rfl (by simp) h
  have hothers (i : Nat) : slice (cell ++ bytes) ((i + 1) * cfg.w8) cfg.w8 = slice bytes (i * cfg.w8) cfg.w8 := by
    rw [slice, Nat.succ_mul, Nat.add_comm, ← List.drop_drop, ← h, List.drop_left, slice]
  simp only [cellsOf, List.range_succ_eq_map, List.map_cons, List.map_map, Function.comp_def, hfirst, hothers]

/-- Cells are read back from the wire as they were written. -/
theorem cellsOf_cellBytes {cfg : Config} {cells : List Nat} (h : ∀ v ∈ cells, v < 2 ^ (8 * cfg.w8)) :
    cellsOf cfg cells.length (cellBytes cfg cells) = cells := by
  rw [cell_bound_eq_bytes] at h
  induction cells with
  | nil => rfl
  | cons v cells ih =>
    obtain ⟨hv, hcells⟩ := List.forall_mem_cons.mp h
    calc cellsOf cfg (cells.length + 1) (leBytes cfg.w8 v ++ cellBytes cfg cells)
        = leNat (leBytes cfg.w8 v) :: cellsOf cfg cells.length (cellBytes cfg cells) :=
          cellsOf_succ_append (leBytes_length _ _) _ _
      _ = v :: cells := by rw [leNat_leBytes_of_lt hv, ih hcells]

/-! ## The class EMPTY and the verification (44_otp_safety.md R271, R273) -/

/-- A cell that programming takes to its target: it holds the target already, or it is erased (R271). -/
def CellWritable (cfg : Config) (c t : Nat) : Prop := c = t ∨ c = erasedCell cfg

/-- Programming such a cell gives its target (R65, R270). -/
theorem CellWritable.and_eq {cfg : Config} {c t : Nat} (h : CellWritable cfg c t) (ht : t < 2 ^ (8 * cfg.w8)) :
    c &&& t = t := by
  rcases h with rfl | rfl
  · exact Nat.and_self c
  · rw [erasedCell, Nat.and_comm, Nat.and_two_pow_sub_one_of_lt_two_pow ht]

/-- The scan of R271 stops at a cell exactly when that cell is not writable. -/
theorem cellWritable_iff (cfg : Config) (c t : Nat) :
    CellWritable cfg c t ↔ ¬ (c != t && c != erasedCell cfg) = true := by
  simp [CellWritable, or_iff_not_imp_left]

/-- EMPTY: not the target yet, but programming takes every cell to it (R271). -/
theorem otpClassify_empty_iff {cfg : Config} {cur tgt : List Nat} (hlen : cur.length = tgt.length) :
    otpClassify cfg cur tgt = .empty ↔ cur ≠ tgt ∧ List.Forall₂ (CellWritable cfg) cur tgt := by
  have hscan : (List.zipWith (fun c t => c != t && c != erasedCell cfg) cur tgt).any id = false ↔
      List.Forall₂ (CellWritable cfg) cur tgt := by
    rw [List.any_eq_false, ← List.forall_iff_forall_mem, List.forall_zipWith hlen,
      funext₂ fun c t => propext (cellWritable_iff cfg c t)]
    rfl
  rw [← hscan, otpClassify]
  by_cases hsame : cur = tgt
  · simp [hsame]
  · cases (List.zipWith (fun c t => c != t && c != erasedCell cfg) cur tgt).any id <;> simp [hsame]

/-- Programming writable cells leaves the target (R65). -/
theorem zipWith_and_eq {cfg : Config} {cur tgt : List Nat} (h : List.Forall₂ (CellWritable cfg) cur tgt)
    (htgt : ∀ t ∈ tgt, t < 2 ^ (8 * cfg.w8)) : List.zipWith (fun c t => c &&& t) cur tgt = tgt := by
  induction h with
  | nil => rfl
  | cons hcell _ ih =>
    obtain ⟨ht, htgt⟩ := List.forall_mem_cons.mp htgt
    rw [List.zipWith_cons_cons, hcell.and_eq ht, ih htgt]

/-- A read-back equal to the target passes, with wildcards or without (R273). -/
theorem otpVerify_self (cfg : Config) (tgt : List Nat) (wildcard : Bool) : otpVerify cfg tgt tgt wildcard = true := by
  simp [otpVerify]

/-! ## The moves of the procedure (44_otp_safety.md R275, R276) -/

/-- The procedure can only start with its read (R276). -/
theorem otpStart_send {cfg : Config} {w : Nat} {tgt : List Nat} {fr : Frame} {st : OtpStage}
    (h : otpStart cfg w tgt = .send fr st) : fr = otpReadFrame w tgt.length ∧ st = .readFirst := by
  unfold otpStart at h
  split at h
  · cases h
  · cases h
    exact ⟨rfl, rfl⟩

/-- After its first read the procedure goes on to the write exactly for the class EMPTY. -/
theorem otpNext_readFirst_send_iff {cfg : Config} {w : Nat} {tgt : List Nat} {wildcard : Bool} {bytes : List Byte}
    {fr : Frame} {st : OtpStage} : otpNext cfg w tgt wildcard .readFirst (.data bytes) = .send fr st ↔
      otpClassify cfg (cellsOf cfg tgt.length bytes) tgt = .empty ∧ fr = otpWriteFrame cfg w tgt ∧ st = .write := by
  simp only [otpNext]
  cases otpClassify cfg (cellsOf cfg tgt.length bytes) tgt <;> simp [eq_comm]

/-- What an answer can lead to: the write after the first read, the read-back after the write, and nothing more. -/
theorem otpNext_send {cfg : Config} {w : Nat} {tgt : List Nat} {wildcard : Bool} {stage : OtpStage} {reply : Reply}
    {fr : Frame} {st : OtpStage} (h : otpNext cfg w tgt wildcard stage reply = .send fr st) :
    (stage = .readFirst ∧ ∃ bytes, reply = .data bytes ∧ otpClassify cfg (cellsOf cfg tgt.length bytes) tgt = .empty) ∨
      fr = otpReadFrame w tgt.length := by
  cases reply with
  | aborted r => cases stage <;> cases h
  | data bytes =>
    cases stage with
    | readFirst => exact .inl ⟨rfl, bytes, rfl, (otpNext_readFirst_send_iff.mp h).1⟩
    | write => cases h; exact .inr rfl
    | readBack =>
      simp only [otpNext] at h
      split at h <;> cases h

/-- Settles O60: `otpNext_send` leaves WRITE_OTP one place, the answer to the first read, and `otpClassify_empty_iff` says what
programming does to cells of the class it asks for. -/
theorem otpGuard : Obligations.OtpGuard := by
  unfold Obligations.OtpGuard
  intro cfg w cur tgt wildcard
  refine ⟨?argError, ?start, ?write, fun hlen hcur htgt => ?wire⟩
  case argError =>
    rintro s greeted scheds rfl harg
    rw [otpSafeWrite, otpStart, if_pos harg, otpRun_done]
  case start =>
    intro fr st h
    obtain ⟨rfl, rfl⟩ := otpStart_send h
    exact ⟨rfl, rfl⟩
  case write =>
    intro stage reply fr st h hfr
    rcases otpNext_send h with hread | rfl
    · exact hread
    · cases hfr
  case wire =>
    have hback : cellsOf cfg tgt.length (cellBytes cfg cur) = cur := hlen ▸ cellsOf_cellBytes hcur
    refine ⟨hback, fun fr st => by rw [otpNext_readFirst_send_iff, hback], fun hempty => ?_⟩
    have hand := zipWith_and_eq ((otpClassify_empty_iff hlen).mp hempty).2 htgt
    exact ⟨hand, hand.symm ▸ otpVerify_self cfg tgt false⟩

end Sys2Proof.Machine
end

section
/-! Total input handling and the abort (60_exceptions.md R300, R301, R305). -/

namespace Sys2Proof.Machine

/-- Settles O13: `step_inv` says it of every event, together with the invariant of the next state. -/
theorem stepCompletesUnderInvariant : Obligations.StepCompletesUnderInvariant := by
  unfold Obligations.StepCompletesUnderInvariant
  intro s h
  obtain ⟨t, e, -⟩ := step_inv h
  exact ⟨t, e⟩

/-- Settles O39: `raiseAbort_eq` gives the next state, and the byte column of R300 is checked code by code. -/
theorem abortReturnsToIdle : Obligations.AbortReturnsToIdle := by
  unfold Obligations.AbortReturnsToIdle
  intro code s
  rw [raiseAbort_eq]
  cases code <;> rfl

end Sys2Proof.Machine
end

section
/-! RESET between two steps and during a storage primitive (70_reset_and_hazards.md R330-R332; 10_state.md R43). -/

namespace Sys2Proof.Machine

/-! ## The wake-up contents of RAM and BUF (10_state.md R43) -/

/-- A byte written past the last entry becomes the new last entry. -/
theorem Memory.writeBytes_past {blank : Byte} {m : Memory} {c : Host.Cell} (hlt : ∀ d ∈ m, d.1 < c.1)
    (hc : c.2 ≠ blank) : Memory.writeBytes blank m c.1 [c.2] = m ++ [c] := by
  have hbelow : m.filter (fun d => decide (d.1 < c.1)) = m :=
    List.filter_eq_self.mpr fun d hd => decide_eq_true (hlt d hd)
  have habove : m.filter (fun d => decide (c.1 + [c.2].length ≤ d.1)) = [] :=
    List.filter_eq_nil_iff.mpr fun d hd => by have := hlt d hd; simp only [decide_eq_true_eq]; omega
  rw [Memory.writeBytes, hbelow, habove, List.append_nil, Memory.cellsFrom, if_neg hc, Memory.cellsFrom]

/-- A memory in canonical form is the memory its own entries build. -/
theorem Memory.ofCells_of_wf {blank : Byte} {m : Memory} (h : Memory.wf blank m) : Memory.ofCells blank m = m := by
  induction m using List.reverseRecOn with
  | nil => rfl
  | append_singleton cs c ih =>
    obtain ⟨hsorted, hblank⟩ := h
    obtain ⟨hcs, -, hlast⟩ := List.pairwise_append.mp hsorted
    have hbuilt : Memory.ofCells blank cs = cs := ih ⟨hcs, fun d hd => hblank d (List.mem_append_left _ hd)⟩
    calc Memory.ofCells blank (cs ++ [c])
        = Memory.writeBytes blank (Memory.ofCells blank cs) c.1 [c.2] := by simp [Memory.ofCells]
      _ = Memory.writeBytes blank cs c.1 [c.2] := by rw [hbuilt]
      _ = cs ++ [c] :=
          Memory.writeBytes_past (fun d hd => hlast d hd c List.mem_cons_self) (hblank c (by simp))

/-- Settles O27: contents in canonical form that lie in their spaces lose nothing on the way into the state. -/
theorem resetEvent : Obligations.ResetEvent := by
  unfold Obligations.ResetEvent
  intro s ram buf es he hram hbuf hramIn hbufIn
  have hramCells : ramCells s.cfg ram = ram := List.filter_eq_self.mpr hramIn
  have hbufCells : bufCells s.cfg buf = buf :=
    List.filter_eq_self.mpr fun c hc => bufRangeOk_iff.mpr (hbufIn c hc)
  calc step s = .next (resetState ram buf (s.setEnv es)) := step_of_env_cons he
    _ = .next { s with
          ctl := .announce, cmd := none, baud := s.cfg.baudInit, rxq := []
          ram := Memory.ofCells Space.ram.blank (ramCells s.cfg ram)
          buf := Memory.ofCells Space.buf.blank (bufCells s.cfg buf), env := es } := rfl
    _ = _ := by rw [hramCells, hbufCells, Memory.ofCells_of_wf hram, Memory.ofCells_of_wf hbuf]

/-! ## A primitive cut short (70_reset_and_hazards.md R332) -/

/-- The step of a RESET during the primitive `op`: `cutOp`, then the reset values. -/
theorem step_resetCut {s : State} {ram buf : List Host.Cell} {left : List Byte} {es : List EnvEvent} {op : ExecOp}
    (he : s.env = .resetCut ram buf left :: es) (hop : s.headOp = some op) :
    step s = .next (resetState ram buf (cutOp op left (s.setEnv es))) := by
  have hop : (s.setEnv es).headOp = some op := hop
  rw [step_of_env_cons he, envStep, resetCutState, hop]

/-- A cut touches nothing but flash and OTP. -/
theorem cutOp_eq (op : ExecOp) (left : List Byte) (s : State) :
    cutOp op left s = { s with flash := (cutOp op left s).flash, otp := (cutOp op left s).otp } := by
  cases op <;> rfl

/-- A cut flash primitive leaves its range as `left`, and every other byte as it was. -/
theorem cutFlash_flashByte {a n : Nat} {left : List Byte} (hlen : left.length = n) (s : State) (x : Nat) :
    (cutFlash a n left s).flashByte x = if a ≤ x ∧ x < a + n then left.getD (x - a) 0 else s.flashByte x := by
  subst hlen
  rw [cutFlash, List.take_length]
  exact Memory.read_writeBytes_getD _ _ _ _ _ _

/-- A cut `OtpProgram` leaves each byte of its cell ANDed with `left`, and every other byte as it was. -/
theorem cutOp_program_otpByte {left : List Byte} {s : State} (hlen : left.length = s.cfg.w8) (w : Nat) (v : List Byte)
    (x : Nat) : (cutOp (.program w v) left s).otpByte x =
      if w * s.cfg.w8 ≤ x ∧ x < w * s.cfg.w8 + s.cfg.w8 then s.otpByte x &&& left.getD (x - w * s.cfg.w8) 0
      else s.otpByte x := by
  have hcell : left.length = (s.readCell w).length := by simp [hlen]
  have hread := Memory.read_programmed Space.otp.blank s.otp (w * s.cfg.w8) s.cfg.w8 left x
  rw [hlen, Nat.min_self] at hread
  rw [cutOp, overlay_of_length hcell]
  exact hread

/-- A cut of anything but the four storage primitives changes nothing. -/
theorem cutOp_of_not_storage {op : ExecOp} (left : List Byte) (s : State) (hwrite : ∀ a v, op ≠ .flashWrite a v)
    (herase : ∀ a, op ≠ .erase a) (hchip : op ≠ .chipErase) (hprogram : ∀ w v, op ≠ .program w v) :
    cutOp op left s = s := by
  cases op with
  | flashWrite a v => exact absurd rfl (hwrite a v)
  | erase a => exact absurd rfl (herase a)
  | chipErase => exact absurd rfl hchip
  | program w v => exact absurd rfl (hprogram w v)
  | write | copy | chunk | sector | verify | setBaud | gpio | check => rfl

/-- Settles O28: the step is `cutOp` and a RESET, which leaves flash and OTP as the cut left them. -/
theorem resetCutsPrimitive : Obligations.ResetCutsPrimitive := by
  unfold Obligations.ResetCutsPrimitive
  intro s ram buf left es c op rest he hk hc hq
  have hop : s.headOp = some op := by simp [State.headOp, hk, hc, hq]
  refine ⟨_, step_resetCut he hop, ?frame, ?flashWrite, ?erase, ?chipErase, ?program, ?other⟩
  case frame => rw [cutOp_eq]; rfl
  case flashWrite =>
    rintro a v rfl hlen
    exact ⟨rfl, cutFlash_flashByte hlen (s.setEnv es)⟩
  case erase =>
    rintro a rfl hlen
    exact ⟨rfl, cutFlash_flashByte hlen (s.setEnv es)⟩
  case chipErase =>
    rintro rfl hlen
    refine ⟨rfl, fun x => ?_⟩
    have hbyte := cutFlash_flashByte (a := 0) hlen (s.setEnv es) x
    simp only [Nat.zero_le, true_and, Nat.zero_add, Nat.sub_zero] at hbyte
    exact hbyte
  case program =>
    rintro w v rfl hlen
    exact ⟨rfl, cutOp_program_otpByte (s := s.setEnv es) hlen w v⟩
  case other =>
    intro hwrite herase hchip hprogram
    rw [cutOp_of_not_storage left _ hwrite herase hchip hprogram]
    exact ⟨rfl, rfl⟩

end Sys2Proof.Machine
end
